-- ==== Sys2Proof/Word.lean ====
section
/-! DEFINITION. The two word widths of the spec: a byte of an address space (R60) and a 16-bit register word (R90). Every cycle
count, line number, counter and index is an unbounded integer instead (R10), so no other width is named. -/

namespace Sys2Proof

/-- A byte: bits 7 down to 0 (R11). -/
abbrev Byte := BitVec 8

/-- A 16-bit register word: bits 15 down to 0 (R11). -/
abbrev Word := BitVec 16

end Sys2Proof
end

