-- ==== Sys2Proof/Config.lean ====
section
/-! DEFINITION. The configuration (R7), the inputs the block samples (R8), what the environment may answer at an interleaving
point (R66, R170), the unspecified contents of an allocated or released block (R41), and the opaque constants that stand for
every value the spec leaves open. -/

namespace Sys2Proof

/-- The seven parameters of the table of R7, as a platform would write them down. `Params.toConfig` (WellFormed.lean) refuses a
record outside the table's constraint column (U6). -/
structure Params where
  scanlines : Nat := 259
  maxRaster : Nat
  regfileBytes : Nat
  beamIrqLevel : Nat
  vblankIrqLevel : Nat
  runOverMax : Nat
  dispatchLimit : Nat := maxRaster + 1
  deriving DecidableEq, Repr

/-- A configuration that meets R7's constraints by construction: each constrained field counts from the bound the constraint
sets, so that every allowed parameter value can be written and no forbidden one can. -/
structure Config where
  /-- Scanlines from line 240 (the end of the active display) to the end of the frame: `SCANLINES` is 240 more. -/
  blankLines : Fin 272
  /-- `MAX_RASTER`. -/
  maxRaster : Nat
  /-- Bytes of the register file above offset 0x53: `REGFILE_BYTES` is 0x54 more. -/
  regfileExtra : Nat
  /-- `BEAM_IRQ_LEVEL`. -/
  beamIrqLevel : Nat
  /-- `VBLANK_IRQ_LEVEL`. -/
  vblankIrqLevel : Nat
  /-- `RUN_OVER_MAX`. -/
  runOverMax : Nat
  /-- By how much the platform lowers `DISPATCH_LIMIT` under its default `MAX_RASTER + 1` (D12). -/
  limitCut : Nat
  deriving DecidableEq, Repr

/-- `SCANLINES`: 240 to 511 (R7). -/
def Config.scanlines (c : Config) : Nat := 240 + c.blankLines.val

/-- `CAPACITY`, the number of snapshot slots (R7). -/
def Config.capacity (c : Config) : Nat := c.maxRaster + 2

/-- `LAST_SLOT`, the highest slot index (R7). -/
def Config.lastSlot (c : Config) : Nat := c.maxRaster + 1

/-- `REGFILE_BYTES`, at least 0x54 (R7). -/
def Config.regfileBytes (c : Config) : Nat := c.regfileExtra + 0x54

/-- `DISPATCH_LIMIT`, at most `LAST_SLOT` (R7). -/
def Config.dispatchLimit (c : Config) : Nat := c.maxRaster + 1 - c.limitCut

/-- The levels the driver holds on the block's inputs (R8). They are no state of the block (R39): the machine keeps the level
each input stands at, and the environment moves it at an interleaving point. -/
structure Inputs where
  clock : Nat := 0
  speedAdjust : Nat := 256
  frameSkip : Bool := false
  audioDisable : Bool := false
  resetRequest : Bool := false
  deriving DecidableEq, Repr, Inhabited

/-- One interrupt source, `src[P]` or `src[S]` (R23 to R25). -/
structure Source where
  autoRepeat : Bool := false
  line : Nat := 0
  enabled : Bool := false
  deriving DecidableEq, Repr, Inhabited

/-- `seg`, the active-display segment being run: 1 to 3 (R36). -/
inductive Seg where
  | one | two | three
  deriving DecidableEq, Repr, Inhabited

/-- Values for everything that R41 leaves unspecified when the block is allocated (`SETUP`) or released (`TEARDOWN`), but for
the snapshot slots. -/
structure Contents where
  cyclesPerFrame : Nat := 0
  srcP : Source := {}
  srcS : Source := {}
  nextLine : Nat := 0
  nextCycle : Int := 0
  irqCount : Nat := 0
  carry : Int := 0
  executedTotal : Int := 0
  seg : Seg := .one
  pending : List Nat := []
  rf : List Host.Cell := []
  aux : List Host.Cell := []
  deriving DecidableEq, Repr, Inhabited

/-- What the environment does at one interleaving point (R5, R66). A field that the point in question does not read is ignored
there. -/
structure Answer where
  /-- `Run(n)`: cycles executed beyond the budget, cut at `RUN_OVER_MAX` (R170). -/
  overrun : Nat := 0
  /-- Bytes of `RF` the environment stores, in order; an offset outside `RF` is no store (R60, R66). -/
  rf : List Host.Cell := []
  /-- Bytes of `AUX` the environment stores, in order (R61, R66). -/
  aux : List Host.Cell := []
  /-- New levels of the inputs, if they move (R8, R290). -/
  inputs : Option Inputs := none
  /-- `Run(n)`: interrupt levels the processor takes off its pending set (R37). -/
  taken : List Nat := []
  /-- `SubsysInit`: the integer the subsystems return, 0 for success (R221). -/
  code : Int := 0
  /-- `CpuReset`: the processor's cycle account afterwards, which R41 leaves unspecified. -/
  account : Int := 0
  /-- `CpuReset`: the levels pending afterwards, which R41 leaves unspecified. -/
  pending : List Nat := []
  /-- `SubsysInit`, `SubsysExit`: the contents the block is left with (R41). -/
  fresh : Contents := {}
  deriving DecidableEq, Repr, Inhabited

/-- A snapshot slot with nothing promised about it (R30, R41). -/
structure RawSlot where
  rasterLine : Int := 0
  populated : Bool := false
  regCopy : List Host.Cell := []
  auxCopy : List Host.Cell := []
  deriving DecidableEq, Repr, Inhabited

/-- FREE VALUE: what the environment answers at the interleaving point of that number, where `State.answers` foretells none
(U3, U4, U12, U17, U18). Nothing is known of it. -/
opaque Config.freeAnswer : Nat → Answer

/-- FREE VALUE: what slot `i` holds after the clear or the allocation of that number (R30, R174, U2). Nothing is known of it. -/
opaque Config.freeSlot : Nat → Nat → RawSlot

/-- OPEN parameter `MAX_RASTER` of the platform that `State.reset` stands on (R7, D5). -/
opaque Config.openMaxRaster : Nat

/-- OPEN parameter: the platform's `REGFILE_BYTES` less 0x54 (R7, D6). -/
opaque Config.openRegfileExtra : Nat

/-- OPEN parameter `BEAM_IRQ_LEVEL` of the platform (R7, D7). -/
opaque Config.openBeamIrqLevel : Nat

/-- OPEN parameter `VBLANK_IRQ_LEVEL` of the platform (R7, D7). -/
opaque Config.openVblankIrqLevel : Nat

/-- OPEN parameter `RUN_OVER_MAX` of the platform (R7, D16). -/
opaque Config.openRunOverMax : Nat

/-- The configuration of `State.reset`: the defaults where R7 gives one (`SCANLINES` 259, `DISPATCH_LIMIT` `MAX_RASTER + 1`), an
open constant elsewhere. -/
def Config.platform : Config where
  blankLines := 19
  maxRaster := Config.openMaxRaster
  regfileExtra := Config.openRegfileExtra
  beamIrqLevel := Config.openBeamIrqLevel
  vblankIrqLevel := Config.openVblankIrqLevel
  runOverMax := Config.openRunOverMax
  limitCut := 0

end Sys2Proof
end

