-- ==== Sys2Proof/Syntax.lean ====
section
/-! DEFINITION. The operations of the block: one constructor of `Instr` for each row of spec/opcode_table.json (R100 for the
21 operations, R91 and R92 for the three register words), and the names their operands use. -/

namespace Sys2Proof

/-- The six optional lifecycle callbacks (R38, R225). -/
inductive Hook where
  | postInit | postReset | preExit | frameStart | frameMid | frameEnd
  deriving DecidableEq, Repr

/-- `phase`, the sequencing register: code 0 and the eleven steps of the Frame Executor (R36, R99). -/
inductive Phase where
  | idle | setupFrame | catchup | leadin | basesnap | lateguard | active | objcap | vblank | drain | drift | frameend
  deriving DecidableEq, Repr

/-- The operations. A phase takes no operand (its inputs are sampled, R8); `run` and `idlecyc` take a signed count of cycles,
`snapcopy` a slot index, `hookreg` a hook name and a bit, and a register word its sixteen bits. -/
inductive Instr where
  /-- `IDLE`, phase 0 (R175). -/
  | idle
  /-- `SETUP_FRAME`, phase 1 (R173, R174). -/
  | setupFrame
  /-- `CATCHUP`, phase 2 (R176). -/
  | catchup
  /-- `LEADIN`, phase 3 (R178). -/
  | leadin
  /-- `BASESNAP`, phase 4 (R182). -/
  | basesnap
  /-- `LATEGUARD`, phase 5 (R183). -/
  | lateguard
  /-- `ACTIVE`, phase 6 (R184). -/
  | active
  /-- `OBJCAP`, phase 7 (R190). -/
  | objcap
  /-- `VBLANK`, phase 8 (R191). -/
  | vblank
  /-- `DRAIN`, phase 9 (R192). -/
  | drain
  /-- `DRIFT`, phase 10 (R193, R194). -/
  | drift
  /-- `FRAMEEND`, phase 11 (R195). -/
  | frameend
  /-- `SCHED`, the Interrupt Line Scheduler (R125). -/
  | sched
  /-- `DISPATCH`, the Interrupt Dispatcher (R140). -/
  | dispatch
  /-- `RUN n` (R170). -/
  | run (n : Int)
  /-- `IDLECYC n` (R172). -/
  | idlecyc (n : Int)
  /-- `SNAPCOPY i` (R65). -/
  | snapcopy (i : Nat)
  /-- `SETUP` (R221). -/
  | setup
  /-- `FULLRESET` (R222). -/
  | fullreset
  /-- `TEARDOWN` (R224). -/
  | teardown
  /-- `HOOKREG h present` (R225). -/
  | hookreg (h : Hook) (present : Bool)
  /-- `CTRL`, the control word as it is stored at offset 0x4E (R34, R91). -/
  | ctrl (w : Word)
  /-- `TRIG_P`, the primary trigger word as it is stored at offset 0x50 (R35, R92). -/
  | trigP (w : Word)
  /-- `TRIG_S`, the secondary trigger word as it is stored at offset 0x52 (R35, R92). -/
  | trigS (w : Word)
  deriving DecidableEq, Repr

/-- What an external agent may present on the port: the lifecycle commands of R220, and a store to one of the three register
words (R66 (c)). Phases, sub-operations and primitives are the block's own (R100). -/
def Instr.isCommand : Instr → Bool
  | .setup | .fullreset | .teardown | .hookreg _ _ | .ctrl _ | .trigP _ | .trigS _ => true
  | .idle | .setupFrame | .catchup | .leadin | .basesnap | .lateguard | .active | .objcap | .vblank | .drain | .drift
  | .frameend | .sched | .dispatch | .run _ | .idlecyc _ | .snapcopy _ => false

end Sys2Proof
end

