-- ==== Sys2Proof/Decode.lean ====
section
/-! DEFINITION. The decoder of the block's operation port, the encoder after it, and the reading of a word of the opcode table.

The spec gives an operation a 5-bit code (R100) and gives operands no bits, because the block never fetches an operation. The
port's layout is the model's (DESIGN CHOICE, log entry 3): one byte whose bits 4 to 0 are the code and whose bits 7 to 5 are 0;
then the operand, if there is one: a cycle count as a zigzag number in base 128, a slot index as a number in base 128, a hook as
one byte. A store to a register word (R91, R92) is the word's own offset, which is no operation code, and its two bytes, the
high one first (R62). -/

namespace Sys2Proof

/-- Why the decoder refuses the bytes on the port. -/
inductive DecodeError where
  /-- There is no byte. -/
  | empty
  /-- The first byte is no code of R100's table and no offset of a register word. -/
  | unassigned (b : Byte)
  /-- The bytes end inside the operand. -/
  | truncated
  /-- The hook byte names none of the six hooks or has a bit outside its fields. -/
  | badHook (b : Byte)
  /-- A number ends in a superfluous zero digit. -/
  | overlong
  deriving DecidableEq, Repr

/-- A number in base 128, the least significant digit first; bit 7 of a byte says that a further digit follows. -/
def decodeNat : List Byte → Except DecodeError (Nat × List Byte)
  | [] => .error .truncated
  | b :: bs =>
    if b.toNat < 128 then .ok (b.toNat, bs)
    else
      match decodeNat bs with
      | .error e => .error e
      | .ok (k, rest) => if k = 0 then .error .overlong else .ok (b.toNat - 128 + 128 * k, rest)

/-- The signed number that a zigzag number stands for: 0, -1, 1, -2, 2, … -/
def unzigzag (k : Nat) : Int := if k % 2 = 0 then (k / 2 : Nat) else -((k / 2 : Nat) : Int) - 1

/-- The hook byte: bits 2 to 0 the hook in R38's order, bit 3 `present`. -/
def decodeHook (b : Byte) : Except DecodeError (Hook × Bool) :=
  let h (k : Nat) : Option Hook :=
    match k with
    | 0 => some .postInit
    | 1 => some .postReset
    | 2 => some .preExit
    | 3 => some .frameStart
    | 4 => some .frameMid
    | 5 => some .frameEnd
    | _ => none
  match h (b.toNat % 8), b.toNat / 8 with
  | some k, 0 => .ok (k, false)
  | some k, 1 => .ok (k, true)
  | _, _ => .error (.badHook b)

/-- The two bytes of a 16-bit word, the byte at the lower offset first: big-endian (R62). -/
def joinBytes (hi lo : Byte) : Word := hi ++ lo

/-- Bits 15 to 8 of a word (R62). -/
def highByte (w : Word) : Byte := w.extractLsb' 8 8

/-- Bits 7 to 0 of a word (R62). -/
def lowByte (w : Word) : Byte := w.extractLsb' 0 8

/-- The two bytes of a register word, as the instruction that stores it. -/
def decodeWord (mk : Word → Instr) : List Byte → Except DecodeError (Instr × List Byte)
  | hi :: lo :: rest => .ok (mk (joinBytes hi lo), rest)
  | _ => .error .truncated

/-- The operand of `RUN` and `IDLECYC`. -/
def decodeCount (mk : Int → Instr) (bs : List Byte) : Except DecodeError (Instr × List Byte) :=
  match decodeNat bs with
  | .error e => .error e
  | .ok (k, rest) => .ok (mk (unzigzag k), rest)

/-- The operand of `SNAPCOPY`. -/
def decodeIndex (bs : List Byte) : Except DecodeError (Instr × List Byte) :=
  match decodeNat bs with
  | .error e => .error e
  | .ok (k, rest) => .ok (.snapcopy k, rest)

/-- The operand of `HOOKREG`. -/
def decodeHookreg : List Byte → Except DecodeError (Instr × List Byte)
  | [] => .error .truncated
  | b :: rest =>
    match decodeHook b with
    | .error e => .error e
    | .ok (h, present) => .ok (.hookreg h present, rest)

/-- The instruction whose first byte is `b` and whose operand stands in `bs`, with the bytes that follow it. The codes are those
of R100's table; the offsets are those of R91 and R92. -/
def decodeOp (b : Byte) (bs : List Byte) : Except DecodeError (Instr × List Byte) :=
  match b.toNat with
  | 0x00 => .ok (.idle, bs)
  | 0x01 => .ok (.setupFrame, bs)
  | 0x02 => .ok (.catchup, bs)
  | 0x03 => .ok (.leadin, bs)
  | 0x04 => .ok (.basesnap, bs)
  | 0x05 => .ok (.lateguard, bs)
  | 0x06 => .ok (.active, bs)
  | 0x07 => .ok (.objcap, bs)
  | 0x08 => .ok (.vblank, bs)
  | 0x09 => .ok (.drain, bs)
  | 0x0A => .ok (.drift, bs)
  | 0x0B => .ok (.frameend, bs)
  | 0x10 => .ok (.sched, bs)
  | 0x11 => .ok (.dispatch, bs)
  | 0x12 => decodeCount .run bs
  | 0x13 => decodeCount .idlecyc bs
  | 0x14 => decodeIndex bs
  | 0x18 => .ok (.setup, bs)
  | 0x19 => .ok (.fullreset, bs)
  | 0x1A => .ok (.teardown, bs)
  | 0x1B => decodeHookreg bs
  | 0x4E => decodeWord .ctrl bs
  | 0x50 => decodeWord .trigP bs
  | 0x52 => decodeWord .trigS bs
  | _ => .error (.unassigned b)

/-- The first instruction of the bytes on the port, with the bytes that follow it. -/
def decode : List Byte → Except DecodeError (Instr × List Byte)
  | [] => .error .empty
  | b :: bs => decodeOp b bs

/-- The zigzag number of a signed number. -/
def zigzag (n : Int) : Nat := if 0 ≤ n then 2 * n.toNat else 2 * (-n - 1).toNat + 1

/-- The digits of `n` in base 128, the least significant first; `fuel` is the number of digits after the first that it may
write. -/
def encodeDigits : Nat → Nat → List Byte
  | 0, n => [BitVec.ofNat 8 n]
  | fuel + 1, n => if n < 128 then [BitVec.ofNat 8 n] else BitVec.ofNat 8 (128 + n % 128) :: encodeDigits fuel (n / 128)

/-- A number in base 128, as `decodeNat` reads it: a digit has seven bits. -/
def encodeNat (n : Nat) : List Byte := encodeDigits (n.log2 / 7) n

/-- The number of a hook in R38's order. -/
def hookCode : Hook → Nat
  | .postInit => 0
  | .postReset => 1
  | .preExit => 2
  | .frameStart => 3
  | .frameMid => 4
  | .frameEnd => 5

/-- The bytes of an instruction on the port, from R100's codes and the layout of the head comment. -/
def encode : Instr → List Byte
  | .idle => [0x00]
  | .setupFrame => [0x01]
  | .catchup => [0x02]
  | .leadin => [0x03]
  | .basesnap => [0x04]
  | .lateguard => [0x05]
  | .active => [0x06]
  | .objcap => [0x07]
  | .vblank => [0x08]
  | .drain => [0x09]
  | .drift => [0x0A]
  | .frameend => [0x0B]
  | .sched => [0x10]
  | .dispatch => [0x11]
  | .run n => 0x12 :: encodeNat (zigzag n)
  | .idlecyc n => 0x13 :: encodeNat (zigzag n)
  | .snapcopy i => 0x14 :: encodeNat i
  | .setup => [0x18]
  | .fullreset => [0x19]
  | .teardown => [0x1A]
  | .hookreg h present => [0x1B, BitVec.ofNat 8 (hookCode h + if present then 8 else 0)]
  | .ctrl w => [0x4E, highByte w, lowByte w]
  | .trigP w => [0x50, highByte w, lowByte w]
  | .trigS w => [0x52, highByte w, lowByte w]

/-- `count` bytes of `w`, the byte of bits 7 to 0 first. -/
def bytesOf : Nat → Nat → List Byte
  | 0, _ => []
  | count + 1, w => BitVec.ofNat 8 w :: bytesOf count (w / 256)

/-- The bytes that a word of the opcode table stands for, with zero bytes after it up to the longest fixed-length instruction. A
row of 5 bits is an operation's first byte. A row of 16 bits is a register word, whose row says its offset but whose bits do
not: it is laid out at the first of the three offsets, 0x4E (log entry 4). -/
def tableBytes (nbits w : Nat) : List Byte :=
  if nbits = 16 then [0x4E, highByte (BitVec.ofNat 16 w), lowByte (BitVec.ofNat 16 w)]
  else bytesOf ((nbits + 7) / 8) w ++ [0, 0, 0]

/-- Those of `tableBytes` that the instruction itself takes; all of them where the decoder refuses. -/
def tableInstrBytes (nbits w : Nat) : List Byte :=
  match decode (tableBytes nbits w) with
  | .error _ => tableBytes nbits w
  | .ok (_, rest) => (tableBytes nbits w).take ((tableBytes nbits w).length - rest.length)

/-- The instruction that `decode` reads from a word of the opcode table. -/
def decodeTableWord (nbits w : Nat) : Option Instr :=
  match decode (tableBytes nbits w) with
  | .error _ => none
  | .ok (i, _) => some i

end Sys2Proof
end

