-- ==== Sys2Proof/Machine/State.lean ====
section
/-! DEFINITION. The machine's state: every element of 10_state.md, the interface state the block shares with its collaborators,
and the model's own fields (what the outside does next, and the counters of free values); why a step can stop; and the state
after reset. State is plain data. -/

namespace Sys2Proof.Machine

/-- The bytes of one address space, as pairs of offset and byte (R60). `Memory.wf` (Ops.lean) is its one canonical form. -/
abbrev Memory := List Host.Cell

/-- One entry of the snapshot store (R30, R98). -/
structure Slot where
  rasterLine : Int := 0
  populated : Bool := false
  regCopy : Memory := []
  auxCopy : Memory := []
  deriving DecidableEq, Repr

/-- The six hook-registered bits `hook[h]` (R38). -/
structure Hooks where
  postInit : Bool := false
  postReset : Bool := false
  preExit : Bool := false
  frameStart : Bool := false
  frameMid : Bool := false
  frameEnd : Bool := false
  deriving DecidableEq, Repr

/-- The events the block emits (R13). `irqAssert` is always in automatic-vector mode (R244). -/
inductive Event where
  | irqAssert (level : Nat)
  | ctxSelect
  | ctxRelease
  | cpuBeginFrame
  | cpuReset
  | runReq (n : Int)
  | runAck (e : Int)
  | idleReq (n : Int)
  | objCapture
  | draw
  | audioBegin
  | audioEnd
  | hookFrameStart
  | hookFrameMid
  | hookFrameEnd
  | hookPostInit
  | hookPostReset
  | hookPreExit
  | subsysInit
  | subsysReset
  | subsysExit
  deriving DecidableEq, Repr

/-- The exceptions the block raises: one (R240, R243). -/
inductive BlockException where
  /-- `SetupFailure(c)`, number 1, with the integer the failing subsystem returned. -/
  | setupFailure (c : Int)
  deriving DecidableEq, Repr

/-- What the external driver does at a point where the block is idle and nothing stands on the port (R8, R220). -/
inductive DriverAct where
  /-- The command `frameStart`. -/
  | frameStart
  /-- An operation is presented on the port, for the next step to take. -/
  | issue (i : Instr)
  deriving DecidableEq, Repr

/-- The state. -/
structure State where
  /-- The parameters of R7. No step writes them (R39, R290). -/
  cfg : Config
  /-- `cyclesPerFrame` (R22). -/
  cyclesPerFrame : Nat
  /-- `src[P]` (R23 to R25). -/
  srcP : Source
  /-- `src[S]` (R23 to R25). -/
  srcS : Source
  /-- `nextLine` (R26). -/
  nextLine : Nat
  /-- `nextCycle` (R27). -/
  nextCycle : Int
  /-- `irqCount` (R28). -/
  irqCount : Nat
  /-- `carry` (R29). -/
  carry : Int
  /-- `snap[0 .. LAST_SLOT]` (R30). -/
  snaps : List Slot
  /-- `executedTotal` (R33). -/
  executedTotal : Int
  /-- The register file `RF` (R34, R35, R60). -/
  rf : Memory
  /-- The auxiliary block `AUX` (R61). -/
  aux : Memory
  /-- `phase` (R36). -/
  phase : Phase
  /-- `seg` (R36). -/
  seg : Seg
  /-- `setupDone` (R38). -/
  setupDone : Bool
  /-- `hook[h]` (R38). -/
  hooks : Hooks
  /-- The output trace `out`, oldest first (R13, R37). -/
  out : List Event
  /-- The exceptions returned to the external driver, oldest first: the block keeps no copy (R240), the driver's side does. -/
  raised : List BlockException
  /-- The interrupt levels pending at the processor, a set: hidden state the block causes and never reads (R37). -/
  pending : List Nat
  /-- The levels of the inputs (R8): the model's own field. -/
  inputs : Inputs
  /-- The bytes standing on the operation port: the model's own field. -/
  port : List Byte
  /-- What the external driver does at the next idle points: the model's own field. -/
  driver : List DriverAct
  /-- What the environment answers at the next interleaving points, as far as it is foretold: the model's own field. -/
  answers : List Answer
  /-- How many interleaving points there have been: the model's own field, the argument of `Config.freeAnswer`. -/
  draws : Nat
  /-- How many times the slots were cleared or allocated: the model's own field, the argument of `Config.freeSlot`. -/
  fills : Nat
  deriving DecidableEq, Repr

/-- Why the machine stops. All are faults of the model, in states no operation sequence of the spec reaches: safe. -/
inductive Fault where
  /-- `SnapOverflow` (R141, R242): raised by step a of `DISPATCH` where it would count past `LAST_SLOT`, and by its step d where
  the counter already stands outside the store. Safe: the spec asks for it (U10) and no run reaches it (R187). -/
  | snapOverflow
  /-- Raised by `SNAPCOPY` with an index outside the store (R65, R101): the spec gives no such slot. Safe: no run reaches it. -/
  | slotOutOfRange
  /-- Raised by phase 6 if its loop were to outrun the bound of R185. Safe: no state reaches it. -/
  | segmentUnbounded
  deriving DecidableEq, Repr

/-- Why an instruction has no meaning. -/
inductive Refusal where
  /-- Raised by an arm of `exec` for an instruction without a meaning; no arm does. Safe. -/
  | notModelled (mnemonic : String)
  /-- Raised by `step` where the bytes on the port are no operation (R101: no rule produces such a code). Safe. -/
  | undecodable (e : DecodeError)
  deriving DecidableEq, Repr

/-- The machine right after reset, that is, at power-on (R41, R270): `phase` 0, `setupDone` false and no hook registered are the
spec's; every other element is unspecified there and holds the value its log entry names (5 to 8). -/
def State.reset : State where
  cfg := Config.platform
  cyclesPerFrame := 0
  srcP := {}
  srcS := {}
  nextLine := 0
  nextCycle := 0
  irqCount := 0
  carry := 0
  snaps := List.replicate Config.platform.capacity {}
  executedTotal := 0
  rf := []
  aux := []
  phase := .idle
  seg := .one
  setupDone := false
  hooks := {}
  out := []
  raised := []
  pending := []
  inputs := {}
  port := []
  driver := []
  answers := []
  draws := 0
  fills := 0

end Sys2Proof.Machine
end

