-- ==== Sys2Proof/Machine/Operands.lean ====
section
/-! DEFINITION. What the block reads out of its operands: the constants of R6, the fields of the register words (R91 to R94), and
the cycle-to-beam arithmetic of a scanline (R120 to R124). All quantities are unbounded integers and every division is a floor
division of a non-negative dividend (R10, R127). -/

namespace Sys2Proof.Machine

/-- `FIRST_LINE` (R6). -/
def firstLine : Nat := 16

/-- `ACTIVE_LINES` (R6). -/
def activeLines : Nat := 224

/-- `REPEAT_STRIDE` (R6). -/
def repeatStride : Nat := 32

/-- `SEGMENTS` (R6). -/
def segments : Nat := 3

/-- `SPEED_DENOM` (R6). -/
def speedDenom : Nat := 256

/-- `AUX_BYTES` (R6). -/
def auxBytes : Nat := 16

/-- `OFF_CTRL` (R6). -/
def offCtrl : Nat := 0x4E

/-- `OFF_TRIG_P` (R6). -/
def offTrigP : Nat := 0x50

/-- `OFF_TRIG_S` (R6). -/
def offTrigS : Nat := 0x52

/-- `DecodeCtrl(w)`: the bit `BSD`, bit 9; every other bit is ignored (R91, R93, R97). -/
def decodeCtrl (w : Word) : Bool := w.getLsbD 9

/-- `DecodeTrig(w)`: `AUTO`, bit 15, and `LINE`, bits 8 to 0 as an unsigned number; bits 14 to 9 are ignored (R92, R94, R97). -/
def decodeTrig (w : Word) : Bool × Nat := (w.getLsbD 15, (w.extractLsb' 0 9).toNat)

/-- The control word that full reset writes: `BSD` = 1 and every other bit 0 (R95). -/
def disabledCtrl : Word := 0x0200

/-- The trigger word that full reset writes: `AUTO` = 0 and `LINE` = `SCANLINES` (R95). -/
def disabledTrig (c : Config) : Word := BitVec.ofNat 16 c.scanlines

/-- `ClampLine(v)` (R120). -/
def clampLine (c : Config) (v : Nat) : Nat := min v c.scanlines

/-- The scanline a trigger word loads: its `LINE` field, zero-extended and clamped (R96). -/
def trigLine (c : Config) (w : Word) : Nat := clampLine c (decodeTrig w).2

/-- `cyclesPerFrame` from the inputs (R22, R174). -/
def frameCycles (i : Inputs) : Nat := i.clock * i.speedAdjust / speedDenom

/-- `LineStart(l)`, the cycle count at which scanline `l` begins (R121). -/
def lineStart (c : Config) (cpf l : Nat) : Nat := l * cpf / c.scanlines

/-- `LineToCycle(l)` (R121). -/
def lineToCycle (c : Config) (cpf l : Nat) : Nat := lineStart c cpf l + 1

/-- `CyclesPerLine` (R122). -/
def cyclesPerLine (c : Config) (cpf : Nat) : Nat := cpf / c.scanlines

/-- `FirstCycle`, the start of the first visible line (R123). -/
def firstCycle (c : Config) (cpf : Nat) : Nat := lineStart c cpf firstLine

/-- `EndCycle`, the start of the line after the active display (R123). -/
def endCycle (c : Config) (cpf : Nat) : Nat := lineStart c cpf (firstLine + activeLines)

/-- The number of an active-display segment, 1 to 3 (R36). -/
def segNumber : Seg → Nat
  | .one => 1
  | .two => 2
  | .three => 3

/-- `SegBoundary(k)`, the cycle count at which active-display segment `k` ends (R124). -/
def segBoundary (c : Config) (cpf : Nat) (k : Seg) : Nat :=
  firstCycle c cpf + segNumber k * (endCycle c cpf - firstCycle c cpf) / segments

/-- The sentinel cycle, "no more interrupts this frame" (R125). -/
def sentinel (cpf : Nat) : Nat := cpf + 1

/-- The cycle at which a line is due: its own, or the sentinel where it is not armed (R125). -/
def dueCycle (c : Config) (cpf l : Nat) : Nat := if l < c.scanlines then lineToCycle c cpf l else sentinel cpf

end Sys2Proof.Machine
end

