-- ==== Sys2Proof/Machine/Flags.lean ====
section
/-! DEFINITION. The conditions the rules test. The block has no status flags and no condition codes: every comparison is made on
the named registers at the moment of use (R20). Here each of those comparisons stands once, with its strictness (R127). -/

namespace Sys2Proof.Machine

/-- The source is armed; it is exhausted otherwise (R15, R24). -/
def armed (c : Config) (src : Source) : Bool := src.line < c.scanlines

/-- Whether a source is armed when phase 1 loads it: its own `AUTO` bit, or the global bit clear (R174, D8). -/
def sourceEnabled (auto bsd : Bool) : Bool := auto || !bsd

/-- A scanline at or beyond `FIRST_LINE` is counted by step a of `DISPATCH` (R141). -/
def counted (due : Nat) : Bool := firstLine ≤ due

/-- A recorded raster line lies in the active display (R144). -/
def inActive (raster : Int) : Bool := 0 ≤ raster && raster < activeLines

/-- Phase 3 dispatches (R178). -/
def leadinDue (s : State) : Bool := s.nextCycle < firstCycle s.cfg s.cyclesPerFrame

/-- The part of phase 5's guard that is on the schedule: nothing is armed (R183). -/
def nothingScheduled (s : State) : Bool := s.cfg.scanlines ≤ s.nextLine

/-- Phase 6 dispatches before the boundary `b` (R184): the interrupt is due before it and the store is not full. -/
def dispatchOpen (b : Int) (s : State) : Bool := s.nextCycle < b && s.irqCount < s.cfg.dispatchLimit

/-- `frameStart` is accepted (R175, R220). -/
def frameAccepted (s : State) : Bool := s.phase == .idle && s.setupDone

/-- `SETUP` is accepted (R220). -/
def setupAccepted (s : State) : Bool := s.phase == .idle && !s.setupDone

/-- `FULLRESET` as a command is accepted (R220). -/
def fullresetAccepted (s : State) : Bool := s.phase == .idle && s.setupDone

/-- `TEARDOWN` is accepted (R220). -/
def teardownAccepted (s : State) : Bool := s.phase == .idle && s.setupDone

/-- `HOOKREG` is accepted (R220, R225). -/
def hookregAccepted (s : State) : Bool := s.phase == .idle

/-- A store to a register word from outside a `Run` and outside an event is legal: between frames (R66 (c)). -/
def betweenFrames (s : State) : Bool := s.phase == .idle

/-- How a reader of the snapshot store must take slot `i` (R98, R291). -/
inductive SlotUse where
  /-- In use and valid: render with `regCopy` from line `rasterLine` on. -/
  | valid
  /-- In use and discarded: ignore. -/
  | discarded
  /-- Not in use in this frame: ignore. -/
  | unused
  deriving DecidableEq, Repr

/-- The use of slot `i` holding `slot` (R98). -/
def slotUse (s : State) (i : Nat) (slot : Slot) : SlotUse :=
  if s.irqCount < i then .unused else if slot.populated then .valid else .discarded

end Sys2Proof.Machine
end

