-- ==== Sys2Proof/Machine/Ops.lean ====
section
/-! DEFINITION. The named operations over memory, the trace, the environment and the snapshot store, which every meaning is
written over, and the raising of an exception. -/

namespace Sys2Proof.Machine

/-! ## Outcomes in sequence -/

/-- The outcome of a step of this machine. -/
abbrev Result := Host.Outcome State Fault Refusal

/-- Statements run in the order written (R12): `f` runs on the state the first part leaves, unless that part stopped. -/
def andThen (r : Result) (f : State → Result) : Result :=
  match r with
  | .next s => f s
  | .fault x => .fault x
  | .refused x => .refused x

/-! ## Memory -/

/-- What a byte that no entry lists reads as (DESIGN CHOICE, log entry 7). -/
def Memory.unlisted : Byte := 0

/-- One byte of an address space (R60). -/
def Memory.read : Memory → Nat → Byte
  | [], _ => Memory.unlisted
  | (b, x) :: rest, a => if a = b then x else Memory.read rest a

/-- Storing one byte, which keeps the canonical form. -/
def Memory.write : Memory → Nat → Byte → Memory
  | [], a, v => if v = Memory.unlisted then [] else [(a, v)]
  | (b, x) :: rest, a, v =>
    if a < b then (if v = Memory.unlisted then (b, x) :: rest else (a, v) :: (b, x) :: rest)
    else if a = b then (if v = Memory.unlisted then rest else (a, v) :: rest)
    else (b, x) :: Memory.write rest a v

/-- Every offset of the list is above `low`, the offsets rise strictly, and no entry is what an unlisted byte reads as. -/
def Memory.wfAbove : Nat → Memory → Bool
  | _, [] => true
  | low, (a, x) :: rest => low ≤ a && x != Memory.unlisted && Memory.wfAbove (a + 1) rest

/-- The canonical form: equal memories are equal lists. -/
def Memory.wf (m : Memory) : Bool := Memory.wfAbove 0 m

/-- Every listed offset lies in an address space of `size` bytes (R60). -/
def Memory.within (size : Nat) (m : Memory) : Bool := m.all fun cell => cell.1 < size

/-- The bytes of `cells` stored in order into an address space of `size` bytes; an offset outside it is no store (R60). -/
def Memory.patch (size : Nat) (m : Memory) : List Host.Cell → Memory
  | [] => m
  | (a, v) :: rest => Memory.patch size (if a < size then m.write a v else m) rest

/-- `MemRead(RF, off, 2)`, written `RF16(off)`: big-endian (R62). -/
def Memory.read16 (m : Memory) (off : Nat) : Word := joinBytes (m.read off) (m.read (off + 1))

/-- `MemWrite(RF, off, 2, v)`: big-endian (R62). -/
def Memory.write16 (m : Memory) (off : Nat) (v : Word) : Memory := (m.write off (highByte v)).write (off + 1) (lowByte v)

/-- `BSD` of the control word as it stands in `RF` (R34, R62). -/
def bsd (s : State) : Bool := decodeCtrl (s.rf.read16 offCtrl)

/-! ## The trace and the environment -/

/-- `emit E` (R12): the event goes to the end of the trace. -/
def emit (e : Event) (s : State) : State := { s with out := s.out ++ [e] }

/-- The environment's answer at the interleaving point that comes next: the one foretold, else a free value (R66, U4). -/
def answer (s : State) : Answer := s.answers.headD (Config.freeAnswer s.draws)

/-- The environment's move at an interleaving point (R66): it may change any byte of `RF` and `AUX` and the levels of the
inputs, and it never writes a register of the block or the snapshot store. -/
def interleave (s : State) : State :=
  { s with
    rf := s.rf.patch s.cfg.regfileBytes (answer s).rf
    aux := s.aux.patch auxBytes (answer s).aux
    inputs := (answer s).inputs.getD s.inputs
    answers := s.answers.tail
    draws := s.draws + 1 }

/-- An event that is an interleaving point (R66 (b)): a hook or a subsystem acts inside it. -/
def signal (e : Event) (s : State) : State := interleave (emit e s)

/-- The bit `hook[h]` (R38). -/
def Hooks.get (k : Hooks) : Hook → Bool
  | .postInit => k.postInit
  | .postReset => k.postReset
  | .preExit => k.preExit
  | .frameStart => k.frameStart
  | .frameMid => k.frameMid
  | .frameEnd => k.frameEnd

/-- `hook[h] <- present` (R225). -/
def Hooks.set (k : Hooks) (h : Hook) (present : Bool) : Hooks :=
  match h with
  | .postInit => { k with postInit := present }
  | .postReset => { k with postReset := present }
  | .preExit => { k with preExit := present }
  | .frameStart => { k with frameStart := present }
  | .frameMid => { k with frameMid := present }
  | .frameEnd => { k with frameEnd := present }

/-- The event of an optional callback (R13). -/
def hookEvent : Hook → Event
  | .postInit => .hookPostInit
  | .postReset => .hookPostReset
  | .preExit => .hookPreExit
  | .frameStart => .hookFrameStart
  | .frameMid => .hookFrameMid
  | .frameEnd => .hookFrameEnd

/-- `if hook[h] then emit …`: the callback's event, only if it is registered (R13, R225). -/
def callHook (h : Hook) (s : State) : State := if s.hooks.get h then signal (hookEvent h) s else s

/-- `emit IrqAssert(level)` (R142, R191): the level becomes pending at the processor (R37, R246). -/
def irqAssert (level : Nat) (s : State) : State := { emit (.irqAssert level) s with pending := s.pending.insert level }

/-! ## Processor primitives -/

/-- The cycles the processor reports for a budget of `n`: at least `n`, at most `n + RUN_OVER_MAX` (R170). -/
def reported (n : Int) (s : State) : Int := n + (min (answer s).overrun s.cfg.runOverMax : Nat)

/-- The environment's part of `Run`: the processor executes, may store to `RF` and `AUX`, and may take pending interrupts
(R170, R37). -/
def execute (s : State) : State :=
  { interleave s with pending := s.pending.filter fun level => !(answer s).taken.contains level }

/-- `Run(n)` (R170). -/
def run (n : Int) (s : State) : State :=
  if n ≤ 0 then s
  else
    { emit (.runAck (reported n s)) (execute (emit (.runReq n) s)) with executedTotal := s.executedTotal + reported n s }

/-- `RunTo(t)` (R171). -/
def runTo (t : Int) (s : State) : State := if s.executedTotal < t then run (t - s.executedTotal) s else s

/-- `Idle(n)` (R172): no execution and no interleaving point. -/
def idleCycles (n : Int) (s : State) : State := { emit (.idleReq n) s with executedTotal := s.executedTotal + n }

/-- `CpuReset` (R222): an interleaving point; the processor's account and its pending requests are unspecified afterwards
(R41, U12, U17). -/
def cpuReset (s : State) : State :=
  { signal .cpuReset s with executedTotal := (answer s).account, pending := (answer s).pending }

/-! ## The snapshot store -/

/-- A slot with nothing promised about it, its images in canonical form. -/
def rawSlot (c : Config) (r : RawSlot) : Slot where
  rasterLine := r.rasterLine
  populated := r.populated
  regCopy := Memory.patch c.regfileBytes [] r.regCopy
  auxCopy := Memory.patch auxBytes [] r.auxCopy

/-- The slots from index `i` on, cleared (R174): `rasterLine` 0, `populated` false, the copies unspecified (D14, N20). -/
def clearSlots (c : Config) (fill : Nat) : Nat → List Slot → List Slot
  | _, [] => []
  | i, _ :: rest =>
    { rawSlot c (Config.freeSlot fill i) with rasterLine := 0, populated := false } :: clearSlots c fill (i + 1) rest

/-- `count` slots from index `i` on, as they come into existence: unspecified (R221). -/
def freshSlots (c : Config) (fill : Nat) : Nat → Nat → List Slot
  | _, 0 => []
  | i, count + 1 => rawSlot c (Config.freeSlot fill i) :: freshSlots c fill (i + 1) count

/-- `SnapCopy(i)` (R65): every byte of `RF` and `AUX`, `rasterLine` not written. -/
def snapCopy (i : Nat) (s : State) : State :=
  { s with snaps := s.snaps.modify i fun slot => { slot with regCopy := s.rf, auxCopy := s.aux, populated := true } }

/-- `snap[i].rasterLine <- v`. -/
def setRaster (i : Nat) (v : Int) (s : State) : State :=
  { s with snaps := s.snaps.modify i fun slot => { slot with rasterLine := v } }

/-! ## Exceptions, allocation and full reset -/

/-- Raising an exception (R240, R248): control returns to the external driver with the value; the block itself saves nothing,
enters no mode and has no handler. It is back in its power-on state (R249, R270): `phase` is 0 already, `setupDone` is false,
no hook is registered (log entry 12), and the rest is unspecified, as `SETUP` has left it. There is no return from it (R249). -/
def raiseException (e : BlockException) (s : State) : State :=
  { s with raised := s.raised ++ [e], setupDone := false, hooks := {} }

/-- Every element that R41's power-on column leaves unspecified takes a value about which nothing is known: at the allocation of
`SETUP` (R221) and at the release of `TEARDOWN` (R224). -/
def unspecify (c : Contents) (s : State) : State :=
  { s with
    cyclesPerFrame := c.cyclesPerFrame
    srcP := c.srcP
    srcS := c.srcS
    nextLine := c.nextLine
    nextCycle := c.nextCycle
    irqCount := c.irqCount
    carry := c.carry
    snaps := freshSlots s.cfg s.fills 0 s.cfg.capacity
    executedTotal := c.executedTotal
    rf := Memory.patch s.cfg.regfileBytes [] c.rf
    aux := Memory.patch auxBytes [] c.aux
    seg := c.seg
    pending := c.pending
    fills := s.fills + 1 }

/-- The three whole-word writes of full reset (R95). -/
def disableWords (s : State) : State :=
  { s with
    rf := ((s.rf.write16 offCtrl disabledCtrl).write16 offTrigP (disabledTrig s.cfg)).write16 offTrigS (disabledTrig s.cfg) }

/-- `FULLRESET`, as phase 1 and the command perform it (R222). -/
def fullReset (s : State) : State :=
  callHook .postReset
    (signal .subsysReset
      (emit .ctxRelease
        (cpuReset
          (emit .ctxSelect
            { disableWords s with carry := 0 }))))

end Sys2Proof.Machine
end

