-- ==== Sys2Proof/Machine/Lifecycle.lean ====
section
/-! DEFINITION. The lifecycle commands (43_lifecycle.md). A command that is not accepted changes no state and emits no event
(R220). -/

namespace Sys2Proof.Machine

/-- The end of `SETUP`, once the subsystems have answered `c` (R221): the exception, or the post-init hook. -/
def finishSetup (c : Int) (s : State) : State :=
  if c ≠ 0 then raiseException (.setupFailure c) s else { callHook .postInit s with setupDone := true }

/-- `SETUP` (R221). -/
def execSetup (s : State) : Result :=
  .next (if setupAccepted s then finishSetup (answer s).code (signal .subsysInit (unspecify (answer s).fresh s)) else s)

/-- `FULLRESET` as a command (R220, R222). -/
def execFullreset (s : State) : Result := .next (if fullresetAccepted s then fullReset s else s)

/-- The end of `TEARDOWN` (R224): the subsystems leave, the hooks are cleared, everything is released. -/
def release (s : State) : State :=
  unspecify (answer s).fresh { signal .subsysExit s with hooks := {}, setupDone := false }

/-- `TEARDOWN` (R224). -/
def execTeardown (s : State) : Result := .next (if teardownAccepted s then release (callHook .preExit s) else s)

/-- `HOOKREG h present` (R225). -/
def execHookreg (h : Hook) (present : Bool) (s : State) : Result :=
  .next (if hookregAccepted s then { s with hooks := s.hooks.set h present } else s)

end Sys2Proof.Machine
end

