-- ==== Sys2Proof/Machine/Scheduler.lean ====
section
/-! DEFINITION. `SCHED`, the Interrupt Line Scheduler (40_scheduler.md). -/

namespace Sys2Proof.Machine

/-- The smaller of the two trigger lines, the primary's on a tie (R125). -/
def earliestLine (s : State) : Nat := if s.srcS.line < s.srcP.line then s.srcS.line else s.srcP.line

/-- `SCHED` (R125): it writes `nextLine` and `nextCycle` and nothing else, and it does not look at `executedTotal`. -/
def schedule (s : State) : State :=
  { s with nextLine := earliestLine s, nextCycle := dueCycle s.cfg s.cyclesPerFrame (earliestLine s) }

/-- `SCHED` (R125). -/
def execSched (s : State) : Result := .next (schedule s)

end Sys2Proof.Machine
end

