-- ==== Sys2Proof/Machine/Dispatcher.lean ====
section
/-! DEFINITION. `DISPATCH`, the Interrupt Dispatcher, in its seven steps (41_dispatcher.md). -/

namespace Sys2Proof.Machine

/-- Step a (R141): count the interrupt and record its raw line, for a due line at or beyond `FIRST_LINE`. -/
def countInterrupt (due : Nat) (s : State) : Result :=
  if counted due then
    if s.irqCount < s.cfg.lastSlot then
      .next (setRaster (s.irqCount + 1) (due - firstLine : Nat) { s with irqCount := s.irqCount + 1 })
    else .fault .snapOverflow
  else .next s

/-- Steps b and c (R142, R143): assert the interrupt, then let the processor run one scanline. -/
def interruptAndRun (s : State) : State :=
  run (cyclesPerLine s.cfg s.cyclesPerFrame) (irqAssert s.cfg.beamIrqLevel s)

/-- Step d (R144): copy into slot `irqCount`, or discard it, on the raster line recorded there. -/
def capture (s : State) : Result :=
  match s.snaps[s.irqCount]? with
  | none => .fault .snapOverflow
  | some slot => .next (if inActive slot.rasterLine then snapCopy s.irqCount s else setRaster s.irqCount 0 s)

/-- Step e for one source (R145): advance it by 32 lines, exhaust it, or leave it. -/
def rearm (c : Config) (due : Nat) (src : Source) : Source :=
  if src.autoRepeat then
    if src.line = due then { src with line := clampLine c (src.line + repeatStride) } else src
  else if src.line ≤ due then { src with line := c.scanlines } else src

/-- Step e (R145): both sources, by the same rule (R148). -/
def rearmSources (due : Nat) (s : State) : State :=
  { s with srcP := rearm s.cfg due s.srcP, srcS := rearm s.cfg due s.srcS }

/-- Step g (R147): the next interrupt is due strictly after the cycles already executed. -/
def forceProgress (s : State) : State :=
  if s.nextCycle ≤ s.executedTotal then { s with nextCycle := s.executedTotal + 1 } else s

/-- `DISPATCH` (R140): the due line is read once, on entry. -/
def dispatch (s : State) : Result :=
  andThen (countInterrupt s.nextLine s) fun s₁ =>
    andThen (capture (interruptAndRun s₁)) fun s₂ =>
      .next (forceProgress (schedule (rearmSources s.nextLine s₂)))

/-- `DISPATCH` (R140). -/
def execDispatch (s : State) : Result := dispatch s

end Sys2Proof.Machine
end

