-- ==== Sys2Proof/Machine/Phases.lean ====
section
/-! DEFINITION. The phases of the Frame Executor (42_frame_phases.md): `IDLE` and the eleven steps of a frame. -/

namespace Sys2Proof.Machine

/-- What the external driver does next at an idle point (R175, R220): nothing; `frameStart`, which is accepted only after a
successful `SETUP` and is dropped otherwise; or an operation, which goes on the port. -/
def driverActs (s : State) : State :=
  match s.driver with
  | [] => s
  | .frameStart :: rest => { s with driver := rest, phase := if frameAccepted s then .setupFrame else s.phase }
  | .issue i :: rest => { s with driver := rest, port := s.port ++ encode i }

/-- `IDLE`, phase 0 (R175, R256): between frames the environment may change `RF` and `AUX` (R66 (c)) and the driver may act; the
block itself does nothing and keeps all its state. Outside phase 0 it is no interleaving point and no driver act is looked at
(R220). -/
def execIdle (s : State) : Result := .next (if s.phase = .idle then driverActs (interleave s) else s)

/-- The audio subsystem's frame hooks are called only if audio is enabled (R173, R195). -/
def callAudio (e : Event) (s : State) : State := if s.inputs.audioDisable then s else signal e s

/-- Phase 1, first part (R173): the reset request, then the opening of the frame. -/
def openFrame (s : State) : State :=
  let s₀ : State := { s with phase := .setupFrame }
  let s₁ := if s₀.inputs.resetRequest then fullReset s₀ else s₀
  let s₂ : State := { emit .cpuBeginFrame (emit .ctxSelect s₁) with executedTotal := 0 }
  callHook .frameStart (callAudio .audioBegin s₂)

/-- `LOADSRC` (R103, R174): a source as its trigger word and the global bit load it. -/
def loadSource (c : Config) (bsd : Bool) (w : Word) : Source where
  autoRepeat := (decodeTrig w).1
  enabled := sourceEnabled (decodeTrig w).1 bsd
  line := if sourceEnabled (decodeTrig w).1 bsd then trigLine c w else c.scanlines

/-- Phase 1, second part (R174): recompute, clear, load, schedule. -/
def loadFrame (s : State) : State :=
  schedule
    { s with
      cyclesPerFrame := frameCycles s.inputs
      irqCount := 0
      snaps := clearSlots s.cfg s.fills 0 s.snaps
      fills := s.fills + 1
      srcP := loadSource s.cfg (bsd s) (s.rf.read16 offTrigP)
      srcS := loadSource s.cfg (bsd s) (s.rf.read16 offTrigS) }

/-- `SETUP_FRAME`, phase 1 (R173, R174). -/
def execSetupFrame (s : State) : Result := .next { loadFrame (openFrame s) with phase := .catchup }

/-- `CATCHUP`, phase 2 (R176): the carry is read, not cleared. -/
def execCatchup (s : State) : Result := .next { idleCycles s.carry { s with phase := .catchup } with phase := .leadin }

/-- The lead-in's one dispatch, if the scheduled interrupt is due in it (R178). -/
def leadinDispatch (s : State) : Result := if leadinDue s then dispatch (runTo s.nextCycle s) else .next s

/-- `LEADIN`, phase 3 (R178). -/
def execLeadin (s : State) : Result :=
  andThen (leadinDispatch { s with phase := .leadin }) fun s₁ =>
    .next { runTo (firstCycle s₁.cfg s₁.cyclesPerFrame) s₁ with phase := .basesnap }

/-- `BASESNAP`, phase 4 (R182). -/
def execBasesnap (s : State) : Result := .next { snapCopy 0 { s with phase := .basesnap } with phase := .lateguard }

/-- The reload of phase 5 (R183): the lines of both sources and `enabled`, not `autoRepeat`; no step g follows. -/
def reloadLines (s : State) : State :=
  schedule
    { s with
      srcP := { s.srcP with line := trigLine s.cfg (s.rf.read16 offTrigP), enabled := true }
      srcS := { s.srcS with line := trigLine s.cfg (s.rf.read16 offTrigS), enabled := true } }

/-- `LATEGUARD`, phase 5 (R183). -/
def execLateguard (s : State) : Result :=
  .next { (if nothingScheduled s && !bsd s then reloadLines s else s) with phase := .active }

/-- One segment of the active display, up to the boundary `b` (R184). `fuel` bounds the loop, whose iterations R185 bounds. -/
def runSegment (b : Int) : Nat → State → Result
  | 0, _ => .fault .segmentUnbounded
  | fuel + 1, s =>
    if dispatchOpen b s then andThen (dispatch (runTo s.nextCycle s)) (runSegment b fuel) else .next (runTo b s)

/-- A fuel that the loop of a segment never uses up: each iteration counts an interrupt, and at most `DISPATCH_LIMIT` do, or is
for one of the 16 lines before `FIRST_LINE`, each at most once after the first iteration (R185). -/
def segmentFuel (c : Config) : Nat := c.dispatchLimit + firstLine + 2

/-- The segment `k` (R184). -/
def activeSegment (k : Seg) (s : State) : Result :=
  runSegment (segBoundary s.cfg s.cyclesPerFrame k) (segmentFuel s.cfg) { s with seg := k }

/-- `ACTIVE`, phase 6 (R184). -/
def execActive (s : State) : Result :=
  andThen (activeSegment .one { s with phase := .active }) fun s₁ =>
    andThen (activeSegment .two s₁) fun s₂ =>
      andThen (activeSegment .three s₂) fun s₃ => .next { s₃ with phase := .objcap }

/-- `OBJCAP`, phase 7 (R190). -/
def execObjcap (s : State) : Result :=
  .next { signal .objCapture (callHook .frameMid { s with phase := .objcap }) with phase := .vblank }

/-- The renderer's hook, unless frame output is being skipped (R191). -/
def callDraw (s : State) : State := if s.inputs.frameSkip then s else signal .draw s

/-- `VBLANK`, phase 8 (R191). -/
def execVblank (s : State) : Result :=
  .next { callDraw (irqAssert s.cfg.vblankIrqLevel { s with phase := .vblank }) with phase := .drain }

/-- `DRAIN`, phase 9 (R192). -/
def execDrain (s : State) : Result := .next { runTo s.cyclesPerFrame { s with phase := .drain } with phase := .drift }

/-- `DRIFT`, phase 10 (R193, R194). -/
def execDrift (s : State) : Result :=
  .next
    { callHook .frameEnd (emit .ctxRelease { s with phase := .drift, carry := s.executedTotal - s.cyclesPerFrame }) with
      phase := .frameend }

/-- `FRAMEEND`, phase 11 (R195). -/
def execFrameend (s : State) : Result := .next { callAudio .audioEnd { s with phase := .frameend } with phase := .idle }

/-- `FRAME` (R103, R175): the eleven phases in order. -/
def frame (s : State) : Result :=
  andThen (execSetupFrame s) fun s => andThen (execCatchup s) fun s => andThen (execLeadin s) fun s =>
    andThen (execBasesnap s) fun s => andThen (execLateguard s) fun s => andThen (execActive s) fun s =>
      andThen (execObjcap s) fun s => andThen (execVblank s) fun s => andThen (execDrain s) fun s =>
        andThen (execDrift s) execFrameend

end Sys2Proof.Machine
end

