-- ==== Sys2Proof/Machine/Primitives.lean ====
section
/-! DEFINITION. The three primitives of R100 as operations of their own: `RUN`, `IDLECYC`, `SNAPCOPY`. -/

namespace Sys2Proof.Machine

/-- `RUN n` (R170). -/
def execRun (n : Int) (s : State) : Result := .next (run n s)

/-- `IDLECYC n` (R172). -/
def execIdlecyc (n : Int) (s : State) : Result := .next (idleCycles n s)

/-- `SNAPCOPY i`, for a slot of the store (R65); another index is never produced (R101). -/
def execSnapcopy (i : Nat) (s : State) : Result :=
  if i ≤ s.cfg.lastSlot then .next (snapCopy i s) else .fault .slotOutOfRange

end Sys2Proof.Machine
end

