-- ==== Sys2Proof/Machine/RegisterWords.lean ====
section
/-! DEFINITION. The three register words as operations: a store of the whole word into `RF` by an agent outside the block
(R34, R35). Between frames it takes effect (R66 (c)); within a frame such an agent acts only inside a `Run` or an event, where
`interleave` has it, so that a store presented on the port is not made (log entry 11). The block decodes the words when it
samples them, in phases 1 and 5 (R72). -/

namespace Sys2Proof.Machine

/-- A store of the word `w` at the offset `off`. -/
def storeWord (off : Nat) (w : Word) (s : State) : State :=
  if betweenFrames s then { s with rf := s.rf.write16 off w } else s

/-- `CTRL` (R34, R91). -/
def execCtrl (w : Word) (s : State) : Result := .next (storeWord offCtrl w s)

/-- `TRIG_P` (R35, R92). -/
def execTrigP (w : Word) (s : State) : Result := .next (storeWord offTrigP w s)

/-- `TRIG_S` (R35, R92). -/
def execTrigS (w : Word) (s : State) : Result := .next (storeWord offTrigS w s)

end Sys2Proof.Machine
end

