-- ==== Sys2Proof/Machine/Dispatch.lean ====
section
/-! DEFINITION. The meaning of each operation. -/

namespace Sys2Proof.Machine

/-- The outcome of one operation of R100, or of one register word. -/
def exec (i : Instr) (s : State) : Host.Outcome State Fault Refusal :=
  match i with
  | .idle => Sys2Proof.Machine.execIdle s
  | .setupFrame => Sys2Proof.Machine.execSetupFrame s
  | .catchup => Sys2Proof.Machine.execCatchup s
  | .leadin => Sys2Proof.Machine.execLeadin s
  | .basesnap => Sys2Proof.Machine.execBasesnap s
  | .lateguard => Sys2Proof.Machine.execLateguard s
  | .active => Sys2Proof.Machine.execActive s
  | .objcap => Sys2Proof.Machine.execObjcap s
  | .vblank => Sys2Proof.Machine.execVblank s
  | .drain => Sys2Proof.Machine.execDrain s
  | .drift => Sys2Proof.Machine.execDrift s
  | .frameend => Sys2Proof.Machine.execFrameend s
  | .sched => Sys2Proof.Machine.execSched s
  | .dispatch => Sys2Proof.Machine.execDispatch s
  | .run n => Sys2Proof.Machine.execRun n s
  | .idlecyc n => Sys2Proof.Machine.execIdlecyc n s
  | .snapcopy slot => Sys2Proof.Machine.execSnapcopy slot s
  | .setup => Sys2Proof.Machine.execSetup s
  | .fullreset => Sys2Proof.Machine.execFullreset s
  | .teardown => Sys2Proof.Machine.execTeardown s
  | .hookreg h present => Sys2Proof.Machine.execHookreg h present s
  | .ctrl w => Sys2Proof.Machine.execCtrl w s
  | .trigP w => Sys2Proof.Machine.execTrigP w s
  | .trigS w => Sys2Proof.Machine.execTrigS w s

end Sys2Proof.Machine
end

