-- ==== Sys2Proof/Machine/Fetch.lean ====
section
/-! DEFINITION. Which operation comes next: the one standing on the port, else the one whose code `phase` is (R36, R99, R100). -/

namespace Sys2Proof.Machine

/-- The operation whose code is the phase code (R99, R100). -/
def phaseInstr : Phase → Instr
  | .idle => .idle
  | .setupFrame => .setupFrame
  | .catchup => .catchup
  | .leadin => .leadin
  | .basesnap => .basesnap
  | .lateguard => .lateguard
  | .active => .active
  | .objcap => .objcap
  | .vblank => .vblank
  | .drain => .drain
  | .drift => .drift
  | .frameend => .frameend

/-- The next operation, and the state with its bytes taken off the port. -/
def fetch (s : State) : Except DecodeError (Instr × State) :=
  match s.port with
  | [] => .ok (phaseInstr s.phase, s)
  | b :: bs =>
    match decode (b :: bs) with
    | .error e => .error e
    | .ok (i, rest) => .ok (i, { s with port := rest })

/-- The state with bytes put on the port before those that stand there. -/
def present (bytes : List Byte) (s : State) : State := { s with port := bytes ++ s.port }

end Sys2Proof.Machine
end

