-- ==== Sys2Proof/Machine/Step.lean ====
section
/-! DEFINITION. One step: the next operation, performed whole (R5: each operation is atomic). -/

namespace Sys2Proof.Machine

/-- One step of the block. -/
def step (s : State) : Host.Outcome State Fault Refusal :=
  match fetch s with
  | .error e => .refused (.undecodable e)
  | .ok (i, s') => exec i s'

/-- `s` with a word of the opcode table put on the port, so that the next step runs its instruction and no other. -/
def State.withFetchWord (s : State) (nbits w : Nat) : State := present (tableInstrBytes nbits w) s

end Sys2Proof.Machine
end

