-- ==== Sys2Proof/Safety.lean ====
section
/-! DEFINITION. What a good configuration and a good state are, in the terms the statements use: `WellConfigured` (R9), the form
the stored data keeps (R30, R60), the invariants of R42, and what a reader sees who does not look into `RF` or `AUX`. -/

namespace Sys2Proof.Machine

/-- `WellConfigured` (R9), but for R7's constraints, which hold by construction, for a frame of `cpf` cycles. -/
def WellConfigured (c : Config) (cpf : Nat) : Prop :=
  0 < cpf ∧ endCycle c cpf + cyclesPerLine c cpf + 2 * c.runOverMax ≤ cpf ∧
    firstCycle c cpf + 2 * cyclesPerLine c cpf + 3 * c.runOverMax ≤ cpf

/-- An image of `RF` or `AUX` is in canonical form and inside its address space of `size` bytes (R60). -/
def ImageOk (size : Nat) (m : Memory) : Prop := m.wf = true ∧ m.within size = true

/-- Both images of a slot are in canonical form and inside their address spaces (R30). -/
def SlotOk (c : Config) (slot : Slot) : Prop := ImageOk c.regfileBytes slot.regCopy ∧ ImageOk auxBytes slot.auxCopy

/-- The stored data has its form: the store has its `CAPACITY` slots, and every memory image is canonical and in its space. -/
structure Stored (s : State) : Prop where
  capacity : s.snaps.length = s.cfg.capacity
  rf : ImageOk s.cfg.regfileBytes s.rf
  aux : ImageOk auxBytes s.aux
  slots : ∀ slot ∈ s.snaps, SlotOk s.cfg slot

/-- What the outside presents are commands, and none of the block's own operations (R100, R220): the port holds the bytes of
commands, and the driver issues commands. -/
structure Commanded (s : State) : Prop where
  port : ∃ l : List Instr, (∀ i ∈ l, i.isCommand = true) ∧ s.port = l.flatMap encode
  driver : ∀ i, DriverAct.issue i ∈ s.driver → i.isCommand = true

/-- A frame is in progress and its phase 1 is over. -/
def Framed (s : State) : Prop := s.phase ≠ .idle ∧ s.phase ≠ .setupFrame

/-- The invariants I1 to I7 of R42. I3 is said through the line's own due cycle, which step g only ever raises; the bound on the
recorded raster line in `rasterBound` holds of every slot, discarded and unused ones too (R42, R98). -/
structure FrameState (s : State) : Prop where
  lineP : s.srcP.line ≤ s.cfg.scanlines
  lineS : s.srcS.line ≤ s.cfg.scanlines
  nextIsMin : s.nextLine = min s.srcP.line s.srcS.line
  dueBeforeNext : (dueCycle s.cfg s.cyclesPerFrame s.nextLine : Int) ≤ s.nextCycle
  count : s.irqCount ≤ s.cfg.lastSlot
  unusedClear : ∀ (i : Nat) (slot : Slot), s.snaps[i]? = some slot → s.irqCount < i → slot.populated = false ∧ slot.rasterLine = 0
  rasterBound : ∀ (i : Nat) (slot : Slot), s.snaps[i]? = some slot → 0 ≤ slot.rasterLine ∧ slot.rasterLine < activeLines
  baseline : ∀ slot : Slot, s.snaps[0]? = some slot → slot.rasterLine = 0

/-- The invariant of a run: the store has its slots, only commands come from outside, R42 holds inside a frame, and nothing is
counted before the lead-in is over (R28, R174). -/
structure FrameInv (s : State) : Prop where
  capacity : s.snaps.length = s.cfg.capacity
  commanded : Commanded s
  frame : Framed s → FrameState s
  early : s.phase = .catchup ∨ s.phase = .leadin → s.irqCount = 0

/-- The state without the contents of the register file and of its copies. -/
def withoutRf (s : State) : State :=
  { s with rf := [], snaps := s.snaps.map fun slot => { slot with regCopy := [] } }

/-- The state without the contents of the auxiliary block and of its copies. -/
def withoutAux (s : State) : State :=
  { s with aux := [], snaps := s.snaps.map fun slot => { slot with auxCopy := [] } }

/-- The interrupt assertions among some events. -/
def assertions (events : List Event) : List Nat :=
  events.filterMap fun e => match e with
    | .irqAssert level => some level
    | _ => none

end Sys2Proof.Machine
end

