-- ==== Sys2Proof/WellFormed.lean ====
section
/-! DEFINITION. The two checks of the spec on what is given to the model from outside: a platform's parameters (R7, U6) and an
instruction's operand (R65, R101). -/

namespace Sys2Proof

/-- The constraint column of R7's table. -/
def Params.ok (p : Params) : Bool :=
  240 ≤ p.scanlines && p.scanlines ≤ 511 && 0x54 ≤ p.regfileBytes && p.dispatchLimit ≤ p.maxRaster + 1

/-- The configuration of a parameter record; `none` refuses one outside R7's constraints (U6, R127). -/
def Params.toConfig (p : Params) : Option Config :=
  if h : 240 ≤ p.scanlines ∧ p.scanlines ≤ 511 then
    if 0x54 ≤ p.regfileBytes ∧ p.dispatchLimit ≤ p.maxRaster + 1 then
      some
        { blankLines := ⟨p.scanlines - 240, by omega⟩
          maxRaster := p.maxRaster
          regfileExtra := p.regfileBytes - 0x54
          beamIrqLevel := p.beamIrqLevel
          vblankIrqLevel := p.vblankIrqLevel
          runOverMax := p.runOverMax
          limitCut := p.maxRaster + 1 - p.dispatchLimit }
    else none
  else none

/-- The parameter record a configuration stands for. -/
def Config.params (c : Config) : Params where
  scanlines := c.scanlines
  maxRaster := c.maxRaster
  regfileBytes := c.regfileBytes
  beamIrqLevel := c.beamIrqLevel
  vblankIrqLevel := c.vblankIrqLevel
  runOverMax := c.runOverMax
  dispatchLimit := c.dispatchLimit

/-- An instruction's operand is one the block has: `SNAPCOPY i` names a slot of the store (R65, R101). No other operand is
restricted: every cycle count is legal (R170, R172) and so is every register word (R93, R94, R97). -/
def Instr.wellFormed (c : Config) : Instr → Bool
  | .snapcopy i => i ≤ c.lastSlot
  | .idle | .setupFrame | .catchup | .leadin | .basesnap | .lateguard | .active | .objcap | .vblank | .drain | .drift
  | .frameend | .sched | .dispatch | .run _ | .idlecyc _ | .setup | .fullreset | .teardown | .hookreg _ _ | .ctrl _
  | .trigP _ | .trigS _ => true

end Sys2Proof
end

