-- ==== Sys2Proof/Certificates/Slice0/Obligations.lean ====
section
/-! DEFINITION. The statements for the provers. -/

open Sys2Proof Sys2Proof.Machine

/-! ## Encoding -/

/-- Decode and encode agree: no bit of an operand is dropped, whatever follows on the port. The operand layout is the model's
(log entry 3); the codes are R100's. -/
def Obligations.DecodeOfEncode : Prop :=
  ∀ (i : Instr) (rest : List Byte), decode (encode i ++ rest) = .ok (i, rest)

/-- An instruction has one encoding only: what the decoder takes off the port is what the encoder writes (log entry 3). -/
def Obligations.EncodeOfDecode : Prop :=
  ∀ (bs rest : List Byte) (i : Instr), decode bs = .ok (i, rest) → encode i ++ rest = bs

/-- The codes of R100's table, the words of R104, and the refusal of every unassigned 5-bit code. -/
def Obligations.OperationCodesDecode : Prop :=
  (∀ p ∈ ([(0x00, .idle), (0x01, .setupFrame), (0x02, .catchup), (0x03, .leadin), (0x04, .basesnap), (0x05, .lateguard),
      (0x06, .active), (0x07, .objcap), (0x08, .vblank), (0x09, .drain), (0x0A, .drift), (0x0B, .frameend), (0x10, .sched),
      (0x11, .dispatch), (0x12, .run 0), (0x13, .idlecyc 0), (0x14, .snapcopy 0), (0x18, .setup), (0x19, .fullreset),
      (0x1A, .teardown), (0x1B, .hookreg .postInit false)] : List (Nat × Instr)), decodeTableWord 8 p.1 = some p.2) ∧
    (∀ w ∈ ([0x0C, 0x0D, 0x0E, 0x0F, 0x15, 0x16, 0x17, 0x1C, 0x1D, 0x1E, 0x1F] : List Nat), decodeTableWord 8 w = none) ∧
    decodeTableWord 24 0x10804E = some (.ctrl 0x8010) ∧ decodeTableWord 24 0x108050 = some (.trigP 0x8010) ∧
    decodeTableWord 24 0x05FE52 = some (.trigS 0xFE05)

/-- Only bit 9 of the control word is decoded, of every one of the 65536 values (R93). -/
def Obligations.ControlWordDecodesBitNine : Prop :=
  ∀ w w' : Word, decodeCtrl w = decide (w.toNat / 2 ^ 9 % 2 = 1) ∧ (w.getLsbD 9 = w'.getLsbD 9 → decodeCtrl w = decodeCtrl w')

/-- Bit 15 and bits 8 to 0 of a trigger word are decoded, the latter as an unsigned number that is clamped when it is loaded, and
no other bit (R94, R96). -/
def Obligations.TriggerWordDecodesAutoAndLine : Prop :=
  ∀ (c : Config) (w w' : Word), decodeTrig w = (decide (2 ^ 15 ≤ w.toNat), w.toNat % 2 ^ 9) ∧
    ((w.getLsbD 15 = w'.getLsbD 15 ∧ ∀ k < 9, w.getLsbD k = w'.getLsbD k) → decodeTrig w = decodeTrig w') ∧
    trigLine c w = min (w.toNat % 512) c.scanlines

/-- A 16-bit word of the register file is big-endian: a read joins two bytes, a write stores two and leaves every other byte, and
the fields of the control words lie where R62 says in the bytes. That a write keeps the canonical form is the model's
representation of an address space (log entry 7, DESIGN CHOICE), not R62's. -/
def Obligations.RegisterWordsAreBigEndian : Prop :=
  ∀ (m : Memory) (off : Nat) (v : Word),
    (m.read16 off).toNat = (m.read off).toNat * 256 + (m.read (off + 1)).toNat ∧
    decodeCtrl (m.read16 off) = (m.read off).getLsbD 1 ∧
    decodeTrig (m.read16 off) =
      ((m.read off).getLsbD 7, ((m.read off).getLsbD 0).toNat * 256 + (m.read (off + 1)).toNat) ∧
    (m.wf = true →
      (m.write16 off v).wf = true ∧ ((m.write16 off v).read off).toNat = v.toNat / 256 ∧
      ((m.write16 off v).read (off + 1)).toNat = v.toNat % 256 ∧
      ∀ a, a ≠ off → a ≠ off + 1 → (m.write16 off v).read a = m.read a)

/-- An instruction whose bytes stand on the port is performed, with the bytes taken off; with an empty port the operation whose
code is the phase is performed (R36, R99, R100); bytes that are no operation are refused. -/
def Obligations.StepRunsDecodedOperation : Prop :=
  ∀ s : State,
    (s.port = [] → step s = exec (phaseInstr s.phase) s) ∧
    (∀ (i : Instr) (rest : List Byte), decode s.port = .ok (i, rest) → step s = exec i { s with port := rest }) ∧
    (∀ e : DecodeError, s.port ≠ [] → decode s.port = .error e → step s = .refused (.undecodable e))

/-- A word of the opcode table that is put on the port is performed by the very next step, which leaves the rest of the port. -/
def Obligations.PresentedWordRunsNext : Prop :=
  ∀ (s : State) (nbits w : Nat) (i : Instr), decodeTableWord nbits w = some i → step (s.withFetchWord nbits w) = exec i s

/-! ## Configuration and memory -/

/-- A parameter record is accepted exactly when it meets R7's constraints, and the configuration stands for that very record. -/
def Obligations.ParametersAcceptedExactly : Prop :=
  ∀ p : Params,
    (p.toConfig = none ↔ ¬(240 ≤ p.scanlines ∧ p.scanlines ≤ 511 ∧ 0x54 ≤ p.regfileBytes ∧ p.dispatchLimit ≤ p.maxRaster + 1)) ∧
    (∀ c : Config, p.toConfig = some c → c.params = p) ∧ (∀ c : Config, c.params.ok = true)

/-- No step changes a parameter. -/
def Obligations.ParametersNeverChange : Prop :=
  ∀ s t : State, step s = .next t → t.cfg = s.cfg

/-- A byte that was stored reads as stored, and every other byte as before. -/
def Obligations.MemoryReadsWhatWasWritten : Prop :=
  ∀ (m : Memory) (a b : Nat) (v : Byte), m.wf = true → (m.write a v).read b = if b = a then v else m.read b

/-- Two canonical memories that read the same are the same list. -/
def Obligations.CanonicalMemoriesAreEqual : Prop :=
  ∀ m m' : Memory, m.wf = true → m'.wf = true → (∀ a, m.read a = m'.read a) → m = m'

/-- Every step keeps the form of the stored data: `CAPACITY` slots, and every image of `RF` and `AUX`, the copies in the slots
among them, canonical and inside its address space. -/
def Obligations.StoredFormKept : Prop :=
  ∀ s t : State, Stored s → step s = .next t → Stored t

/-! ## The cycle-to-beam arithmetic and `SCHED` -/

/-- The formulas of R120 to R124, and the values of the tables V11, V13 and V14. -/
def Obligations.CycleArithmetic : Prop :=
  (∀ (c : Config) (cpf l v : Nat), clampLine c v = min v c.scanlines ∧ lineToCycle c cpf l = l * cpf / c.scanlines + 1 ∧
    cyclesPerLine c cpf = cpf / c.scanlines ∧ firstCycle c cpf = 16 * cpf / c.scanlines ∧
    endCycle c cpf = 240 * cpf / c.scanlines ∧
    segBoundary c cpf .one = firstCycle c cpf + (endCycle c cpf - firstCycle c cpf) / 3 ∧
    segBoundary c cpf .two = firstCycle c cpf + 2 * (endCycle c cpf - firstCycle c cpf) / 3 ∧
    segBoundary c cpf .three = firstCycle c cpf + 3 * (endCycle c cpf - firstCycle c cpf) / 3) ∧
  (∀ c : Config, c.scanlines = 259 → lineToCycle c 200000 100 = 77221 ∧ segBoundary c 200000 .two = 127670) ∧
  (∀ c : Config, c.scanlines = 262 → cyclesPerLine c 200000 = 763 ∧ segBoundary c 200000 .one = 69210)

/-- The monotonicity facts of R128. -/
def Obligations.CycleArithmeticIsMonotone : Prop :=
  ∀ (c : Config) (cpf : Nat),
    (∀ a b, a ≤ b → lineStart c cpf a ≤ lineStart c cpf b ∧ lineToCycle c cpf a ≤ lineToCycle c cpf b) ∧
    (∀ l, lineStart c cpf (l + 1) - lineStart c cpf l = cyclesPerLine c cpf ∨
      lineStart c cpf (l + 1) - lineStart c cpf l = cyclesPerLine c cpf + 1) ∧
    lineStart c cpf c.scanlines = cpf ∧
    (∀ l, l < c.scanlines → (1 ≤ cyclesPerLine c cpf → lineToCycle c cpf l ≤ cpf)) ∧
    (1 ≤ cyclesPerLine c cpf → ∀ l, l < c.scanlines → lineToCycle c cpf l < sentinel cpf) ∧
    firstCycle c cpf ≤ segBoundary c cpf .one ∧ segBoundary c cpf .one ≤ segBoundary c cpf .two ∧
    segBoundary c cpf .two ≤ segBoundary c cpf .three ∧ segBoundary c cpf .three = endCycle c cpf ∧ endCycle c cpf ≤ cpf ∧
    (∀ l, lineToCycle c cpf l < firstCycle c cpf ↔ lineStart c cpf l + 1 < lineStart c cpf 16) ∧
    (2 ≤ cyclesPerLine c cpf → ∀ l, (lineToCycle c cpf l < firstCycle c cpf ↔ l ≤ 15) ∧
      (lineToCycle c cpf l < endCycle c cpf ↔ l ≤ 239))

/-- `SCHED` (R125): the smaller line, its due cycle or the sentinel, nothing else written, no event; twice is as once. -/
def Obligations.SchedResult : Prop :=
  ∀ s : State,
    exec .sched s = .next { s with
      nextLine := min s.srcP.line s.srcS.line
      nextCycle :=
        if min s.srcP.line s.srcS.line < s.cfg.scanlines then
          ((min s.srcP.line s.srcS.line * s.cyclesPerFrame / s.cfg.scanlines + 1 : Nat) : Int)
        else (s.cyclesPerFrame + 1 : Nat) } ∧
    ∀ t, exec .sched s = .next t → exec .sched t = .next t

/-! ## `DISPATCH` -/

/-- `DISPATCH` (R140) where the store has room: the seven steps. `k` is the slot it works on, `r` the state after the processor
was interrupted and ran one scanline; the last clause is the frame. -/
def Obligations.DispatchResult : Prop :=
  ∀ s : State, s.snaps.length = s.cfg.capacity → (s.nextLine < 16 → s.irqCount ≤ s.cfg.lastSlot) →
    (16 ≤ s.nextLine → s.irqCount < s.cfg.lastSlot) →
    let k := if 16 ≤ s.nextLine then s.irqCount + 1 else s.irqCount
    let raster (slot : Slot) : Int := if 16 ≤ s.nextLine then (s.nextLine : Int) - 16 else slot.rasterLine
    let r := run (s.cyclesPerFrame / s.cfg.scanlines : Nat)
      { s with out := s.out ++ [.irqAssert s.cfg.beamIrqLevel], pending := s.pending.insert s.cfg.beamIrqLevel }
    let line (src : Source) : Nat :=
      if src.autoRepeat then (if src.line = s.nextLine then min (src.line + 32) s.cfg.scanlines else src.line)
      else if src.line ≤ s.nextLine then s.cfg.scanlines else src.line
    ∃ t, exec .dispatch s = .next t ∧ t.irqCount = k ∧ t.snaps.length = s.snaps.length ∧
      (∀ (j : Nat) (slot : Slot), s.snaps[j]? = some slot → t.snaps[j]? = some
        (if j = k then
          (if 0 ≤ raster slot ∧ raster slot < 224 then
            { rasterLine := raster slot, populated := true, regCopy := r.rf, auxCopy := r.aux }
          else { slot with rasterLine := 0 })
        else slot)) ∧
      t.srcP = { s.srcP with line := line s.srcP } ∧ t.srcS = { s.srcS with line := line s.srcS } ∧
      t.nextLine = min t.srcP.line t.srcS.line ∧
      t.nextCycle = max (r.executedTotal + 1)
        (if t.nextLine < s.cfg.scanlines then ((t.nextLine * s.cyclesPerFrame / s.cfg.scanlines + 1 : Nat) : Int)
          else (s.cyclesPerFrame + 1 : Nat)) ∧
      t = { r with
        irqCount := t.irqCount, snaps := t.snaps, srcP := t.srcP, srcS := t.srcS, nextLine := t.nextLine,
        nextCycle := t.nextCycle }

/-- After every dispatch the next interrupt is due strictly later than the cycles executed (R147, I8). -/
def Obligations.DispatchSchedulesForward : Prop :=
  ∀ s t : State, exec .dispatch s = .next t → t.executedTotal < t.nextCycle

/-- A dispatch of the earliest line moves both sources past it: the next line is strictly greater (R150). -/
def Obligations.DispatchAdvancesLines : Prop :=
  ∀ s t : State, s.nextLine = min s.srcP.line s.srcS.line → s.nextLine < s.cfg.scanlines → exec .dispatch s = .next t →
    s.nextLine < t.srcP.line ∧ s.nextLine < t.srcS.line ∧ s.nextLine < t.nextLine ∧
    (s.srcP.line = s.nextLine → t.srcP.line = if s.srcP.autoRepeat then min (s.nextLine + 32) s.cfg.scanlines else s.cfg.scanlines) ∧
    (s.srcS.line = s.nextLine → t.srcS.line = if s.srcS.autoRepeat then min (s.nextLine + 32) s.cfg.scanlines else s.cfg.scanlines) ∧
    (s.nextLine < s.srcP.line → t.srcP.line = s.srcP.line) ∧ (s.nextLine < s.srcS.line → t.srcS.line = s.srcS.line)

/-- Two dispatches that follow each other, the processor run up to the second one's cycle: the second is entered strictly later
(R149). -/
def Obligations.DispatchesRiseInTime : Prop :=
  ∀ s t u : State, exec .dispatch s = .next t → exec .dispatch (runTo t.nextCycle t) = .next u →
    s.executedTotal < (runTo t.nextCycle t).executedTotal ∧ (runTo t.nextCycle t).executedTotal < u.nextCycle

/-- The two shapes that the source describes for step e compute the same function, that of R145 (R148). -/
def Obligations.RearmShapesAgree : Prop :=
  ∀ (c : Config) (due : Nat) (src : Source),
    let shapeA : Nat :=
      if src.autoRepeat = false ∧ src.line ≤ due then c.scanlines
      else if src.autoRepeat = true ∧ src.line = due then min (src.line + 32) c.scanlines else src.line
    let shapeB : Nat :=
      if src.autoRepeat = true then (if src.line = due then min (src.line + 32) c.scanlines else src.line)
      else if src.line ≤ due then c.scanlines else src.line
    shapeA = shapeB ∧ rearm c due src = { src with line := shapeA }

/-- A dispatch that phase 3 or phase 6 makes is for a line before 240 (an inference that the spec marks as its own, R186): in a
state with R42's invariants, where the guard of phase 3 or that of a segment of phase 6 holds, the due line is below 240, and the
dispatch that the guard leads to leaves a state with R42's invariants again. Lines 0 to 15 are dispatched too. -/
def Obligations.DispatchedLinesAreBelow240 : Prop :=
  ∀ s : State, FrameState s →
    (∀ k : Seg, segBoundary s.cfg s.cyclesPerFrame k ≤ endCycle s.cfg s.cyclesPerFrame) ∧
    firstCycle s.cfg s.cyclesPerFrame ≤ endCycle s.cfg s.cyclesPerFrame ∧
    (s.nextCycle < endCycle s.cfg s.cyclesPerFrame → s.nextLine < 240) ∧
    (leadinDue s = true → s.nextLine < 240) ∧
    (∀ k : Seg, dispatchOpen (segBoundary s.cfg s.cyclesPerFrame k) s = true → s.nextLine < 240) ∧
    ((leadinDue s = true ∨ ∃ k : Seg, dispatchOpen (segBoundary s.cfg s.cyclesPerFrame k) s = true) →
      s.snaps.length = s.cfg.capacity → ∀ d, exec .dispatch (runTo s.nextCycle s) = .next d → FrameState d)

/-! ## The primitives -/

/-- `Run(n)` (R170): nothing for a budget that is not positive; else the two events, the reported cycles within the contract, and
the environment's move: bytes of `RF` and `AUX` (R66), and, by log entries 9, 14 and 16, one answer used up, the inputs and the
pending levels. -/
def Obligations.RunResult : Prop :=
  ∀ (n : Int) (s : State),
    (n ≤ 0 → exec (.run n) s = .next s) ∧
    (0 < n → ∃ e : Int, n ≤ e ∧ e ≤ n + s.cfg.runOverMax ∧
      exec (.run n) s = .next { s with
        executedTotal := s.executedTotal + e
        out := s.out ++ [.runReq n, .runAck e]
        rf := s.rf.patch s.cfg.regfileBytes (answer s).rf
        aux := s.aux.patch 16 (answer s).aux
        inputs := (answer s).inputs.getD s.inputs
        pending := s.pending.filter fun level => !(answer s).taken.contains level
        answers := s.answers.tail
        draws := s.draws + 1 })

/-- The environment may answer a `Run` with any count the contract allows and leave any bytes in `RF` and `AUX` (R66, R170). -/
def Obligations.RunAdmitsEveryAnswer : Prop :=
  ∀ (n e : Int) (s : State) (rf aux : Memory), 0 < n → n ≤ e → e ≤ n + s.cfg.runOverMax → Stored s →
    ImageOk s.cfg.regfileBytes rf → ImageOk auxBytes aux →
    ∃ (a : Answer) (t : State), exec (.run n) { s with answers := [a] } = .next t ∧ t.executedTotal = s.executedTotal + e ∧
      t.rf = rf ∧ t.aux = aux

/-- `RunTo(t)` (R171). -/
def Obligations.RunToReaches : Prop :=
  ∀ (t : Int) (s : State),
    (t ≤ s.executedTotal → runTo t s = s) ∧
    (s.executedTotal < t → exec (.run (t - s.executedTotal)) s = .next (runTo t s)) ∧
    t ≤ (runTo t s).executedTotal ∧ (runTo t s).executedTotal ≤ max s.executedTotal (t + s.cfg.runOverMax)

/-- `Idle(n)` (R172), for any sign of `n`: `RF` and `AUX` do not change. -/
def Obligations.IdlecycResult : Prop :=
  ∀ (n : Int) (s : State),
    exec (.idlecyc n) s = .next { s with executedTotal := s.executedTotal + n, out := s.out ++ [.idleReq n] }

/-- `SnapCopy(i)` for a slot of the store (R65): the slot takes both images whole and keeps its raster line; every other slot and
every other element is unchanged. -/
def Obligations.SnapcopyResult : Prop :=
  ∀ (i : Nat) (s : State), (Instr.snapcopy i).wellFormed s.cfg = true → s.snaps.length = s.cfg.capacity →
    ∃ t, exec (.snapcopy i) s = .next t ∧ t = { s with snaps := t.snaps } ∧ t.snaps.length = s.snaps.length ∧
      ∀ (j : Nat) (slot : Slot), s.snaps[j]? = some slot →
        t.snaps[j]? = some (if j = i then { slot with regCopy := s.rf, auxCopy := s.aux, populated := true } else slot)

/-- The two faults of the model that name a slot outside the store: a dispatch that would count past `LAST_SLOT` (R141), and a
`SNAPCOPY` of an index beyond it (R101). -/
def Obligations.SlotsOutsideTheStoreFault : Prop :=
  ∀ (i : Nat) (s : State),
    (16 ≤ s.nextLine → s.cfg.lastSlot ≤ s.irqCount → exec .dispatch s = .fault .snapOverflow) ∧
    (s.cfg.lastSlot < i → exec (.snapcopy i) s = .fault .slotOutOfRange)

/-- At an interleaving point the environment may change `RF` and `AUX`, and no register of the block, no slot and no event (R66,
R40). That it moves the levels of the inputs there is log entry 14 (DEDUCED), and that it uses up one answer and counts the point
is log entry 9 (DESIGN CHOICE). -/
def Obligations.EnvironmentOnlyMovesItsOwn : Prop :=
  ∀ s : State, interleave s =
    { s with
      rf := (interleave s).rf, aux := (interleave s).aux, inputs := (interleave s).inputs, answers := s.answers.tail,
      draws := s.draws + 1 }

/-! ## The phases -/

/-- `IDLE` (R175, R256): between frames the environment may move and the driver may act, and `frameStart` is accepted exactly
after a successful setup; within a frame nothing happens. -/
def Obligations.IdleResult : Prop :=
  ∀ s : State,
    (s.phase ≠ .idle → exec .idle s = .next s) ∧
    (s.phase = .idle → s.driver = [] → exec .idle s = .next (interleave s)) ∧
    (∀ rest, s.phase = .idle → s.driver = .frameStart :: rest →
      exec .idle s = .next { interleave s with driver := rest, phase := if s.setupDone then .setupFrame else .idle }) ∧
    (∀ i rest, s.phase = .idle → s.driver = .issue i :: rest →
      exec .idle s = .next { interleave s with driver := rest, port := s.port ++ encode i })

/-- `SETUP_FRAME`, first part (R173): the reset request first, then the opening events, the account at 0. `v` is the state after
the reset request was honoured or there was none. -/
def Obligations.SetupFrameOpens : Prop :=
  ∀ s : State,
    let v := if s.inputs.resetRequest then fullReset { s with phase := .setupFrame } else { s with phase := .setupFrame }
    ∃ t, exec .setupFrame s = .next t ∧ t.phase = .catchup ∧ t.executedTotal = 0 ∧
      t.carry = (if s.inputs.resetRequest then 0 else s.carry) ∧
      t.out = v.out ++ [.ctxSelect, .cpuBeginFrame] ++ (if v.inputs.audioDisable then [] else [.audioBegin]) ++
        (if s.hooks.frameStart then [.hookFrameStart] else []) ∧
      (v.inputs.audioDisable = true → s.hooks.frameStart = false → t.rf = v.rf ∧ t.aux = v.aux ∧ t.inputs = v.inputs) ∧
      t.hooks = s.hooks ∧ t.setupDone = s.setupDone ∧ t.port = s.port ∧ t.driver = s.driver ∧ t.raised = s.raised ∧
      t.seg = s.seg ∧ t.pending = v.pending

/-- `SETUP_FRAME`, second part (R174): the frame's cycle count, the clear, the load of both sources and the schedule. `u` is the
state the first part leaves; the last clause is the frame. -/
def Obligations.SetupFrameLoads : Prop :=
  ∀ s : State,
    let u := openFrame s
    let off := (u.rf.read16 0x4E).getLsbD 9
    let load (w : Word) : Source :=
      { autoRepeat := w.getLsbD 15
        enabled := w.getLsbD 15 || !off
        line := if w.getLsbD 15 || !off then min (w.toNat % 512) s.cfg.scanlines else s.cfg.scanlines }
    ∃ t, exec .setupFrame s = .next t ∧ t.cyclesPerFrame = u.inputs.clock * u.inputs.speedAdjust / 256 ∧ t.irqCount = 0 ∧
      t.snaps.length = s.snaps.length ∧
      (∀ slot ∈ t.snaps, slot.rasterLine = 0 ∧ slot.populated = false) ∧
      t.srcP = load (u.rf.read16 0x50) ∧ t.srcS = load (u.rf.read16 0x52) ∧
      t.nextLine = min t.srcP.line t.srcS.line ∧
      t.nextCycle = (if t.nextLine < s.cfg.scanlines then
        ((t.nextLine * t.cyclesPerFrame / s.cfg.scanlines + 1 : Nat) : Int) else (t.cyclesPerFrame + 1 : Nat)) ∧
      t = { u with
        cyclesPerFrame := t.cyclesPerFrame, irqCount := 0, snaps := t.snaps, srcP := t.srcP, srcS := t.srcS,
        nextLine := t.nextLine, nextCycle := t.nextCycle, phase := .catchup, fills := s.fills + 1 }

/-- `CATCHUP` (R176): the carry is idled and kept; no interrupt is dispatched. -/
def Obligations.CatchupResult : Prop :=
  ∀ s : State, exec .catchup s = .next
    { s with executedTotal := s.executedTotal + s.carry, out := s.out ++ [.idleReq s.carry], phase := .leadin }

/-- `LEADIN` (R178): at most one dispatch, of an interrupt due before `FirstCycle`, with the processor run up to its cycle first;
then the processor is run to `FirstCycle`. -/
def Obligations.LeadinResult : Prop :=
  ∀ s : State,
    let first := (16 * s.cyclesPerFrame / s.cfg.scanlines : Nat)
    ((first : Int) ≤ s.nextCycle → ∃ t, exec .leadin s = .next t ∧ t = { runTo first s with phase := .basesnap } ∧
      (first : Int) ≤ t.executedTotal) ∧
    (s.nextCycle < first → s.snaps.length = s.cfg.capacity → s.irqCount < s.cfg.lastSlot →
      ∃ d t, exec .dispatch (runTo s.nextCycle { s with phase := .leadin }) = .next d ∧ exec .leadin s = .next t ∧
        t = { runTo first d with phase := .basesnap } ∧ (first : Int) ≤ t.executedTotal)

/-- The lead-in counts at most one interrupt, and none where a scanline has at least two cycles (R179). -/
def Obligations.LeadinCountsAtMostOne : Prop :=
  ∀ s t : State, FrameState s → s.irqCount = 0 → exec .leadin s = .next t →
    t.irqCount ≤ 1 ∧ (2 ≤ cyclesPerLine s.cfg s.cyclesPerFrame → t.irqCount = 0)

/-- `BASESNAP` (R182): slot 0 takes both images and keeps its raster line. -/
def Obligations.BasesnapResult : Prop :=
  ∀ s : State, s.snaps.length = s.cfg.capacity →
    ∃ t, exec .basesnap s = .next t ∧ t = { s with snaps := t.snaps, phase := .lateguard } ∧
      t.snaps.length = s.snaps.length ∧
      ∀ (j : Nat) (slot : Slot), s.snaps[j]? = some slot →
        t.snaps[j]? = some (if j = 0 then { slot with regCopy := s.rf, auxCopy := s.aux, populated := true } else slot)

/-- `LATEGUARD` (R183): where nothing is scheduled and the global bit is clear, the lines of both sources are loaded again and
scheduled, `autoRepeat` keeps its value, and no step g follows; elsewhere only the phase moves. -/
def Obligations.LateguardResult : Prop :=
  ∀ s : State,
    let lineP := min ((s.rf.read16 0x50).toNat % 512) s.cfg.scanlines
    let lineS := min ((s.rf.read16 0x52).toNat % 512) s.cfg.scanlines
    exec .lateguard s = .next
      (if s.cfg.scanlines ≤ s.nextLine ∧ (s.rf.read16 0x4E).getLsbD 9 = false then
        { s with
          srcP := { s.srcP with line := lineP, enabled := true }
          srcS := { s.srcS with line := lineS, enabled := true }
          nextLine := min lineP lineS
          nextCycle :=
            if min lineP lineS < s.cfg.scanlines then
              ((min lineP lineS * s.cyclesPerFrame / s.cfg.scanlines + 1 : Nat) : Int)
            else (s.cyclesPerFrame + 1 : Nat)
          phase := .active }
      else { s with phase := .active })

/-- What `ACTIVE` does (R184, R185). It always completes: its loops end, the store is never overrun, the processor stands at or
past the end of the active display, and what is still scheduled is not due before it or has no room. It is the segments 1, 2 and
3 in that order. A segment with an interrupt due before its boundary and room in the store runs the processor to the
interrupt's cycle, dispatches, and goes on; any other segment only runs the processor to its boundary. -/
def Obligations.ActiveCompletes : Prop :=
  (∀ s : State, s.snaps.length = s.cfg.capacity →
    ∃ t, exec .active s = .next t ∧ t.phase = .objcap ∧ t.seg = .three ∧
      (endCycle s.cfg s.cyclesPerFrame : Int) ≤ t.executedTotal ∧
      ((endCycle s.cfg s.cyclesPerFrame : Int) ≤ t.nextCycle ∨ s.cfg.dispatchLimit ≤ t.irqCount) ∧
      s.irqCount ≤ t.irqCount ∧ t.irqCount ≤ max s.irqCount s.cfg.dispatchLimit) ∧
  (∀ s : State, exec .active s =
    andThen (activeSegment .one { s with phase := .active }) fun a => andThen (activeSegment .two a) fun b =>
      andThen (activeSegment .three b) fun c => .next { c with phase := .objcap }) ∧
  (∀ (k : Seg) (s : State),
    let boundary := (segBoundary s.cfg s.cyclesPerFrame k : Int)
    let here : State := { s with seg := k }
    (boundary ≤ s.nextCycle ∨ s.cfg.dispatchLimit ≤ s.irqCount → activeSegment k s = .next (runTo boundary here)) ∧
    (s.nextCycle < boundary → s.irqCount < s.cfg.dispatchLimit → s.snaps.length = s.cfg.capacity →
      ∃ d, exec .dispatch (runTo s.nextCycle here) = .next d ∧ activeSegment k s = activeSegment k d))

/-- Phase 6 leaves alone what neither `DISPATCH` nor `Run` writes (R184). -/
def Obligations.ActiveFrame : Prop :=
  ∀ s t : State, exec .active s = .next t →
    t.cfg = s.cfg ∧ t.cyclesPerFrame = s.cyclesPerFrame ∧ t.carry = s.carry ∧ t.setupDone = s.setupDone ∧ t.hooks = s.hooks ∧
    t.raised = s.raised ∧ t.port = s.port ∧ t.driver = s.driver ∧ t.fills = s.fills ∧
    t.srcP.autoRepeat = s.srcP.autoRepeat ∧ t.srcP.enabled = s.srcP.enabled ∧
    t.srcS.autoRepeat = s.srcS.autoRepeat ∧ t.srcS.enabled = s.srcS.enabled ∧ t.snaps.length = s.snaps.length ∧
    (∀ i, i < s.irqCount ∨ t.irqCount < i → t.snaps[i]? = s.snaps[i]?) ∧ s.out <+: t.out

/-- Where the store is full, or nothing is due before `EndCycle`, phase 6 only runs the processor to the three boundaries: no
interrupt is asserted, no source and no slot changes, and nothing records the drop (R189, R241). -/
def Obligations.ActiveWithoutDispatch : Prop :=
  ∀ s : State, s.cfg.dispatchLimit ≤ s.irqCount ∨ (endCycle s.cfg s.cyclesPerFrame : Int) ≤ s.nextCycle →
    ∃ t, exec .active s = .next t ∧ assertions t.out = assertions s.out ∧
      t = { runTo (segBoundary s.cfg s.cyclesPerFrame .three) (runTo (segBoundary s.cfg s.cyclesPerFrame .two)
          (runTo (segBoundary s.cfg s.cyclesPerFrame .one) s)) with phase := .objcap, seg := .three }

/-- `OBJCAP` (R190). -/
def Obligations.ObjcapResult : Prop :=
  ∀ s : State,
    ∃ t, exec .objcap s = .next t ∧ t.phase = .vblank ∧
      t.out = s.out ++ (if s.hooks.frameMid then [.hookFrameMid] else []) ++ [.objCapture] ∧
      t = { (if s.hooks.frameMid then interleave (interleave s) else interleave s) with out := t.out, phase := .vblank }

/-- `VBLANK` (R191): the vertical-blank interrupt in every frame, and the renderer unless frame output is skipped. -/
def Obligations.VblankResult : Prop :=
  ∀ s : State,
    exec .vblank s = .next
      (if s.inputs.frameSkip then
        { s with
          out := s.out ++ [.irqAssert s.cfg.vblankIrqLevel], pending := s.pending.insert s.cfg.vblankIrqLevel
          phase := .drain }
      else
        { interleave s with
          out := s.out ++ [.irqAssert s.cfg.vblankIrqLevel, .draw], pending := s.pending.insert s.cfg.vblankIrqLevel
          phase := .drain })

/-- `DRAIN` (R192): the processor is run up to `cyclesPerFrame`, or not at all where it is past it. -/
def Obligations.DrainResult : Prop :=
  ∀ s : State,
    ∃ t, exec .drain s = .next t ∧ (s.cyclesPerFrame : Int) ≤ t.executedTotal ∧
      ((s.cyclesPerFrame : Int) ≤ s.executedTotal → t = { s with phase := .drift }) ∧
      (s.executedTotal < s.cyclesPerFrame →
        ∃ r, exec (.run (s.cyclesPerFrame - s.executedTotal)) s = .next r ∧ t = { r with phase := .drift })

/-- `DRIFT` (R193, R194): the carry of either sign, then the closing events. -/
def Obligations.DriftResult : Prop :=
  ∀ s : State,
    exec .drift s = .next
      (if s.hooks.frameEnd then
        { interleave s with
          carry := s.executedTotal - s.cyclesPerFrame, out := s.out ++ [.ctxRelease, .hookFrameEnd], phase := .frameend }
      else
        { s with carry := s.executedTotal - s.cyclesPerFrame, out := s.out ++ [.ctxRelease], phase := .frameend })

/-- `FRAMEEND` (R195): the audio subsystem is notified if audio is enabled, and the frame is over. -/
def Obligations.FrameendResult : Prop :=
  ∀ s : State,
    exec .frameend s = .next
      (if s.inputs.audioDisable then { s with phase := .idle }
      else { interleave s with out := s.out ++ [.audioEnd], phase := .idle })

/-! ## The lifecycle commands and the register words -/

/-- `SETUP` whose subsystems answer 0 (R221). The contents of every other register and of `RF`, `AUX` and the store are
unspecified afterwards: nothing is said of them but their form. -/
def Obligations.SetupSucceeds : Prop :=
  ∀ s : State, s.phase = .idle → s.setupDone = false → (answer s).code = 0 →
    ∃ t, exec .setup s = .next t ∧ t.setupDone = true ∧ t.phase = .idle ∧ t.hooks = s.hooks ∧ t.raised = s.raised ∧
      t.out = s.out ++ [.subsysInit] ++ (if s.hooks.postInit then [.hookPostInit] else []) ∧ Stored t ∧
      t.cfg = s.cfg ∧ t.port = s.port ∧ t.driver = s.driver

/-- `SETUP` whose subsystems answer a non-zero integer raises `SetupFailure` (R221, R240): the driver gets the integer, no hook is
called, setup is not done, and a `frameStart` that follows is not accepted. That no hook stays registered is R270's sentence on
the state after a failed setup (log entry 12). -/
def Obligations.SetupFailureRaised : Prop :=
  ∀ s : State, s.phase = .idle → s.setupDone = false → (answer s).code ≠ 0 →
    ∃ t, exec .setup s = .next t ∧ t.raised = s.raised ++ [.setupFailure (answer s).code] ∧ t.setupDone = false ∧
      t.phase = .idle ∧ t.out = s.out ++ [.subsysInit] ∧ t.hooks = {} ∧ t.cfg = s.cfg ∧ t.port = s.port ∧ t.driver = s.driver ∧
      ∀ rest u, exec .idle { t with driver := .frameStart :: rest } = .next u → u.phase = .idle ∧ u.out = t.out

/-- `FULLRESET` (R222): the carry is cleared and the collaborators are reset, and every other register, the store and the hooks
stay. Where the collaborators store nothing in `RF`, the three words read as their disabled encodings and every other byte as
before; where they store nothing in `AUX`, it is as before, for the block never writes it (R61). There are three of them with the
post-reset hook registered and two without. -/
def Obligations.FullresetResult : Prop :=
  ∀ s : State, s.phase = .idle → s.setupDone = true →
    let quiet (stores : Answer → List Host.Cell) : Prop :=
      ∀ n < (if s.hooks.postReset then 3 else 2), ∃ a, s.answers[n]? = some a ∧ stores a = []
    ∃ t, exec .fullreset s = .next t ∧ t.carry = 0 ∧
      t.out = s.out ++ [.ctxSelect, .cpuReset, .ctxRelease, .subsysReset] ++
        (if s.hooks.postReset then [.hookPostReset] else []) ∧
      t = { s with
        carry := 0, out := t.out, rf := t.rf, aux := t.aux, inputs := t.inputs, executedTotal := t.executedTotal,
        pending := t.pending, answers := t.answers, draws := t.draws } ∧
      (quiet (·.aux) → t.aux = s.aux) ∧
      (quiet (·.rf) → s.rf.wf = true →
        t.rf.read16 0x4E = 0x0200 ∧ (t.rf.read16 0x50).toNat = s.cfg.scanlines ∧
        (t.rf.read16 0x52).toNat = s.cfg.scanlines ∧
        ∀ x, x < 0x4E ∨ 0x53 < x → t.rf.read x = s.rf.read x)

/-- `TEARDOWN` (R224): the closing events, no hook, no setup; the rest is released, and nothing is said of it but its form. -/
def Obligations.TeardownResult : Prop :=
  ∀ s : State, s.phase = .idle → s.setupDone = true →
    ∃ t, exec .teardown s = .next t ∧ t.setupDone = false ∧ t.phase = .idle ∧ t.hooks = {} ∧
      t.out = s.out ++ (if s.hooks.preExit then [.hookPreExit] else []) ++ [.subsysExit] ∧ Stored t ∧
      t.cfg = s.cfg ∧ t.raised = s.raised ∧ t.port = s.port ∧ t.driver = s.driver

/-- `HOOKREG h present` (R225): the one bit is written, before setup as well as after. -/
def Obligations.HookregResult : Prop :=
  ∀ (h : Hook) (p : Bool) (s : State), s.phase = .idle →
    ∃ t, exec (.hookreg h p) s = .next t ∧ t = { s with hooks := t.hooks } ∧ t.hooks.get h = p ∧
      ∀ k, k ≠ h → t.hooks.get k = s.hooks.get k

/-- A register word stored between frames stands in `RF` afterwards, big-endian, and every other byte is as before; within a
frame the store is not made (log entry 11). -/
def Obligations.RegisterWordStores : Prop :=
  ∀ (w : Word) (s : State) (i : Instr) (off : Nat),
    (i, off) ∈ [(Instr.ctrl w, 0x4E), (Instr.trigP w, 0x50), (Instr.trigS w, 0x52)] →
    (s.phase ≠ .idle → exec i s = .next s) ∧
    (s.phase = .idle → s.rf.wf = true →
      ∃ t, exec i s = .next t ∧ t = { s with rf := t.rf } ∧ t.rf.read16 off = w ∧
        ∀ a, a < off ∨ off + 1 < a → t.rf.read a = s.rf.read a)

/-- A command that is not accepted changes no state and emits no event: every command within a frame, and each one whose own
precondition fails (R220). -/
def Obligations.CommandsNotAcceptedDoNothing : Prop :=
  ∀ s : State,
    (s.phase ≠ .idle → ∀ i : Instr, i.isCommand = true → exec i s = .next s) ∧
    (s.setupDone = true → exec .setup s = .next s) ∧
    (s.setupDone = false → exec .fullreset s = .next s ∧ exec .teardown s = .next s)

/-! ## Whole frames and whole-machine rules -/

/-- `FRAME` is the eleven steps that the machine takes from phase 1 with nothing on the port (R103, R175). -/
def Obligations.FrameIsElevenSteps : Prop :=
  ∀ s : State, s.phase = .setupFrame → s.port = [] → Host.Core.run core 11 s = frame s

/-- A frame always runs to completion: it never faults, it ends in phase 0, and the counter is within the store (R175, R187,
R243). -/
def Obligations.FrameAlwaysCompletes : Prop :=
  ∀ s : State, s.phase = .setupFrame → s.port = [] → s.snaps.length = s.cfg.capacity →
    ∃ t, Host.Core.run core 11 s = .next t ∧ t.phase = .idle ∧ t.irqCount ≤ max 1 s.cfg.dispatchLimit ∧
      t.irqCount ≤ s.cfg.lastSlot ∧ t.carry = t.executedTotal - t.cyclesPerFrame

/-- The drift is bounded (R196): under `WellConfigured` a carry between 0 and `RUN_OVER_MAX` leads to such a carry again. `u` is
the state at the end of phase 8. -/
def Obligations.FrameDriftBounded : Prop :=
  ∀ s u : State, s.phase = .setupFrame → s.port = [] → 0 ≤ s.carry → s.carry ≤ s.cfg.runOverMax →
    Host.Core.run core 8 s = .next u → WellConfigured u.cfg u.cyclesPerFrame →
    u.executedTotal ≤ u.cyclesPerFrame ∧
    ∃ t, Host.Core.run core 3 u = .next t ∧ t.phase = .idle ∧ (u.cyclesPerFrame : Int) ≤ t.executedTotal ∧
      t.executedTotal ≤ u.cyclesPerFrame + u.cfg.runOverMax ∧ 0 ≤ t.carry ∧ t.carry ≤ t.cfg.runOverMax

/-- A frame with nothing armed (R197): no dispatch, the counter at 0, slot 0 the only populated slot, and the vertical-blank
interrupt the only one. `o` is the state in which phase 1 samples the words, `u` the state before phase 5. A source is loaded
exhausted by the global bit, where its own `AUTO` bit is 0, or by its line; the two sources need not be so in the same way. -/
def Obligations.NothingArmedFrame : Prop :=
  ∀ s u : State, s.phase = .setupFrame → s.port = [] → s.snaps.length = s.cfg.capacity →
    let o := openFrame s
    let exhausted (x : State) : Prop :=
      s.cfg.scanlines ≤ (x.rf.read16 0x50).toNat % 512 ∧ s.cfg.scanlines ≤ (x.rf.read16 0x52).toNat % 512
    let disabled (x : State) : Prop := (x.rf.read16 0x4E).getLsbD 9 = true
    let unarmed (off : Nat) : Prop :=
      (disabled o ∧ (o.rf.read16 off).getLsbD 15 = false) ∨ s.cfg.scanlines ≤ (o.rf.read16 off).toNat % 512
    unarmed 0x50 ∧ unarmed 0x52 →
    Host.Core.run core 4 s = .next u → disabled u ∨ exhausted u →
    ∃ t, Host.Core.run core 7 u = .next t ∧ t.phase = .idle ∧ t.irqCount = 0 ∧
      (∀ (i : Nat) (slot : Slot), t.snaps[i]? = some slot → (slot.populated = true ↔ i = 0)) ∧
      assertions t.out = assertions s.out ++ [s.cfg.vblankIrqLevel]

/-- R42 holds throughout every frame: from every state with the invariant a step answers a next state, so that no fault of the
model is reached (R187, R242), and that state has the invariant again, whatever the environment does. -/
def Obligations.FrameInvariantKept : Prop :=
  ∀ s : State, FrameInv s → (∃ t, step s = .next t) ∧ ∀ t, step s = .next t → FrameInv t

/-- The stored data has its form, and the invariant of a run holds, after reset. -/
def Obligations.InvariantsHoldAtReset : Prop := Stored State.reset ∧ FrameInv State.reset

/-- The contents of the register file steer nothing but phases 1 and 5 (R72): every other operation ends the same way and in the
same state, but for the register file and its copies. -/
def Obligations.RegisterFileUnseenElsewhere : Prop :=
  ∀ (i : Instr) (s t : State), i ≠ .setupFrame → i ≠ .lateguard → withoutRf s = withoutRf t →
    andThen (exec i s) (fun u => .next (withoutRf u)) = andThen (exec i t) (fun u => .next (withoutRf u))

/-- The block never interprets a byte of the auxiliary block (R61): every operation ends the same way and in the same state, but
for `AUX` and its copies. -/
def Obligations.AuxiliaryBlockNeverInterpreted : Prop :=
  ∀ (i : Instr) (s t : State), withoutAux s = withoutAux t →
    andThen (exec i s) (fun u => .next (withoutAux u)) = andThen (exec i t) (fun u => .next (withoutAux u))
end

