-- ==== Sys2Proof/Laws/Memory.lean ====
section
/-! SUPPORT. Every memory operation keeps the canonical form and stays inside its address space. -/

namespace Sys2Proof.Machine

theorem Memory.wfAbove_mono {low low' : Nat} {m : Memory} (h : low' ≤ low) (hm : Memory.wfAbove low m = true) :
    Memory.wfAbove low' m = true := by
  cases m with
  | nil => rfl
  | cons c rest =>
    obtain ⟨b, x⟩ := c
    simp only [Memory.wfAbove, Bool.and_eq_true, decide_eq_true_eq] at hm ⊢
    exact ⟨⟨by omega, hm.1.2⟩, hm.2⟩

theorem Memory.write_wfAbove {low a : Nat} {v : Byte} {m : Memory} (ha : low ≤ a) (hm : Memory.wfAbove low m = true) :
    Memory.wfAbove low (Memory.write m a v) = true := by
  induction m generalizing low with
  | nil => by_cases hv : v = Memory.unlisted <;> simp [Memory.write, Memory.wfAbove, hv, ha]
  | cons c rest ih =>
    obtain ⟨b, x⟩ := c
    simp only [Memory.wfAbove, Bool.and_eq_true, decide_eq_true_eq] at hm
    simp only [Memory.write]
    split
    · split
      · simpa [Memory.wfAbove] using hm
      · simp_all [Memory.wfAbove]
    · split
      · subst_vars
        split
        · exact Memory.wfAbove_mono (by omega) hm.2
        · simp_all [Memory.wfAbove]
      · simp only [Memory.wfAbove, Bool.and_eq_true, decide_eq_true_eq]
        exact ⟨hm.1, ih (by omega) hm.2⟩

/-- A store of one byte keeps the canonical form. -/
theorem Memory.write_wf {m : Memory} (a : Nat) (v : Byte) (hm : m.wf = true) : (m.write a v).wf = true :=
  Memory.write_wfAbove (Nat.zero_le a) hm

/-- A store lists no offset but its own and those listed before. -/
theorem Memory.mem_write {a : Nat} {v : Byte} {m : Memory} {c : Host.Cell} (h : c ∈ m.write a v) : c.1 = a ∨ c ∈ m := by
  induction m with
  | nil =>
    simp only [Memory.write] at h
    split at h <;> simp_all
  | cons d rest ih =>
    obtain ⟨b, x⟩ := d
    simp only [Memory.write] at h
    split at h
    · split at h
      · exact .inr h
      · rcases List.mem_cons.1 h with rfl | h
        · exact .inl rfl
        · exact .inr h
    · split at h
      · split at h
        · exact .inr (List.mem_cons_of_mem _ h)
        · rcases List.mem_cons.1 h with rfl | h
          · exact .inl rfl
          · exact .inr (List.mem_cons_of_mem _ h)
      · rcases List.mem_cons.1 h with rfl | h
        · exact .inr (List.mem_cons_self ..)
        · exact (ih h).imp_right (List.mem_cons_of_mem _)

theorem Memory.within_iff {size : Nat} {m : Memory} : m.within size = true ↔ ∀ c ∈ m, c.1 < size := by
  simp [Memory.within, List.all_eq_true]

/-- A store inside the address space stays inside it. -/
theorem Memory.write_within {size a : Nat} {m : Memory} (v : Byte) (ha : a < size) (hm : m.within size = true) :
    (m.write a v).within size = true := by
  rw [Memory.within_iff] at hm ⊢
  intro c hc
  rcases Memory.mem_write hc with rfl | hc
  · exact ha
  · exact hm c hc

/-- The stores of the environment keep the canonical form. -/
theorem Memory.patch_wf {size : Nat} (cells : List Host.Cell) {m : Memory} (hm : m.wf = true) :
    (Memory.patch size m cells).wf = true := by
  induction cells generalizing m with
  | nil => exact hm
  | cons c rest ih =>
    obtain ⟨a, v⟩ := c
    simp only [Memory.patch]
    split
    · exact ih (Memory.write_wf a v hm)
    · exact ih hm

/-- The stores of the environment stay inside the address space. -/
theorem Memory.patch_within {size : Nat} (cells : List Host.Cell) {m : Memory} (hm : m.within size = true) :
    (Memory.patch size m cells).within size = true := by
  induction cells generalizing m with
  | nil => exact hm
  | cons c rest ih =>
    obtain ⟨a, v⟩ := c
    simp only [Memory.patch]
    split
    · rename_i h
      exact ih (Memory.write_within v h hm)
    · exact ih hm

/-- A store of a 16-bit word keeps the canonical form. -/
theorem Memory.write16_wf {m : Memory} (off : Nat) (v : Word) (hm : m.wf = true) : (m.write16 off v).wf = true :=
  Memory.write_wf _ _ (Memory.write_wf _ _ hm)

/-- A store of a 16-bit word inside the address space stays inside it. -/
theorem Memory.write16_within {size off : Nat} {m : Memory} (v : Word) (ho : off + 1 < size) (hm : m.within size = true) :
    (m.write16 off v).within size = true :=
  Memory.write_within _ ho (Memory.write_within _ (by omega) hm)

theorem ImageOk.nil (size : Nat) : ImageOk size [] := ⟨rfl, rfl⟩

theorem ImageOk.patch {size : Nat} {m : Memory} (cells : List Host.Cell) (h : ImageOk size m) :
    ImageOk size (Memory.patch size m cells) :=
  ⟨Memory.patch_wf cells h.1, Memory.patch_within cells h.2⟩

theorem ImageOk.write16 {size off : Nat} {m : Memory} (v : Word) (ho : off + 1 < size) (h : ImageOk size m) :
    ImageOk size (m.write16 off v) :=
  ⟨Memory.write16_wf off v h.1, Memory.write16_within v ho h.2⟩

end Sys2Proof.Machine
end

