-- ==== Sys2Proof/Laws/State.lean ====
section
/-! SUPPORT. What each named update of the state leaves alone, one lemma a field: no later proof unfolds a record update. -/

namespace Sys2Proof.Machine

/-! ### `emit` -/

@[simp] theorem emit_cfg (e : Event) (s : State) : (emit e s).cfg = s.cfg := rfl
@[simp] theorem emit_cyclesPerFrame (e : Event) (s : State) : (emit e s).cyclesPerFrame = s.cyclesPerFrame := rfl
@[simp] theorem emit_srcP (e : Event) (s : State) : (emit e s).srcP = s.srcP := rfl
@[simp] theorem emit_srcS (e : Event) (s : State) : (emit e s).srcS = s.srcS := rfl
@[simp] theorem emit_nextLine (e : Event) (s : State) : (emit e s).nextLine = s.nextLine := rfl
@[simp] theorem emit_nextCycle (e : Event) (s : State) : (emit e s).nextCycle = s.nextCycle := rfl
@[simp] theorem emit_irqCount (e : Event) (s : State) : (emit e s).irqCount = s.irqCount := rfl
@[simp] theorem emit_carry (e : Event) (s : State) : (emit e s).carry = s.carry := rfl
@[simp] theorem emit_snaps (e : Event) (s : State) : (emit e s).snaps = s.snaps := rfl
@[simp] theorem emit_executedTotal (e : Event) (s : State) : (emit e s).executedTotal = s.executedTotal := rfl
@[simp] theorem emit_rf (e : Event) (s : State) : (emit e s).rf = s.rf := rfl
@[simp] theorem emit_aux (e : Event) (s : State) : (emit e s).aux = s.aux := rfl
@[simp] theorem emit_phase (e : Event) (s : State) : (emit e s).phase = s.phase := rfl
@[simp] theorem emit_seg (e : Event) (s : State) : (emit e s).seg = s.seg := rfl
@[simp] theorem emit_setupDone (e : Event) (s : State) : (emit e s).setupDone = s.setupDone := rfl
@[simp] theorem emit_hooks (e : Event) (s : State) : (emit e s).hooks = s.hooks := rfl
@[simp] theorem emit_raised (e : Event) (s : State) : (emit e s).raised = s.raised := rfl
@[simp] theorem emit_pending (e : Event) (s : State) : (emit e s).pending = s.pending := rfl
@[simp] theorem emit_inputs (e : Event) (s : State) : (emit e s).inputs = s.inputs := rfl
@[simp] theorem emit_port (e : Event) (s : State) : (emit e s).port = s.port := rfl
@[simp] theorem emit_driver (e : Event) (s : State) : (emit e s).driver = s.driver := rfl
@[simp] theorem emit_answers (e : Event) (s : State) : (emit e s).answers = s.answers := rfl
@[simp] theorem emit_draws (e : Event) (s : State) : (emit e s).draws = s.draws := rfl
@[simp] theorem emit_fills (e : Event) (s : State) : (emit e s).fills = s.fills := rfl

/-! ### `interleave` -/

@[simp] theorem interleave_cfg (s : State) : (interleave s).cfg = s.cfg := rfl
@[simp] theorem interleave_cyclesPerFrame (s : State) : (interleave s).cyclesPerFrame = s.cyclesPerFrame := rfl
@[simp] theorem interleave_srcP (s : State) : (interleave s).srcP = s.srcP := rfl
@[simp] theorem interleave_srcS (s : State) : (interleave s).srcS = s.srcS := rfl
@[simp] theorem interleave_nextLine (s : State) : (interleave s).nextLine = s.nextLine := rfl
@[simp] theorem interleave_nextCycle (s : State) : (interleave s).nextCycle = s.nextCycle := rfl
@[simp] theorem interleave_irqCount (s : State) : (interleave s).irqCount = s.irqCount := rfl
@[simp] theorem interleave_carry (s : State) : (interleave s).carry = s.carry := rfl
@[simp] theorem interleave_snaps (s : State) : (interleave s).snaps = s.snaps := rfl
@[simp] theorem interleave_executedTotal (s : State) : (interleave s).executedTotal = s.executedTotal := rfl
@[simp] theorem interleave_phase (s : State) : (interleave s).phase = s.phase := rfl
@[simp] theorem interleave_seg (s : State) : (interleave s).seg = s.seg := rfl
@[simp] theorem interleave_setupDone (s : State) : (interleave s).setupDone = s.setupDone := rfl
@[simp] theorem interleave_hooks (s : State) : (interleave s).hooks = s.hooks := rfl
@[simp] theorem interleave_out (s : State) : (interleave s).out = s.out := rfl
@[simp] theorem interleave_raised (s : State) : (interleave s).raised = s.raised := rfl
@[simp] theorem interleave_pending (s : State) : (interleave s).pending = s.pending := rfl
@[simp] theorem interleave_port (s : State) : (interleave s).port = s.port := rfl
@[simp] theorem interleave_driver (s : State) : (interleave s).driver = s.driver := rfl
@[simp] theorem interleave_fills (s : State) : (interleave s).fills = s.fills := rfl

/-! ### `signal` -/

@[simp] theorem signal_cfg (e : Event) (s : State) : (signal e s).cfg = s.cfg := rfl
@[simp] theorem signal_cyclesPerFrame (e : Event) (s : State) : (signal e s).cyclesPerFrame = s.cyclesPerFrame := rfl
@[simp] theorem signal_srcP (e : Event) (s : State) : (signal e s).srcP = s.srcP := rfl
@[simp] theorem signal_srcS (e : Event) (s : State) : (signal e s).srcS = s.srcS := rfl
@[simp] theorem signal_nextLine (e : Event) (s : State) : (signal e s).nextLine = s.nextLine := rfl
@[simp] theorem signal_nextCycle (e : Event) (s : State) : (signal e s).nextCycle = s.nextCycle := rfl
@[simp] theorem signal_irqCount (e : Event) (s : State) : (signal e s).irqCount = s.irqCount := rfl
@[simp] theorem signal_carry (e : Event) (s : State) : (signal e s).carry = s.carry := rfl
@[simp] theorem signal_snaps (e : Event) (s : State) : (signal e s).snaps = s.snaps := rfl
@[simp] theorem signal_executedTotal (e : Event) (s : State) : (signal e s).executedTotal = s.executedTotal := rfl
@[simp] theorem signal_phase (e : Event) (s : State) : (signal e s).phase = s.phase := rfl
@[simp] theorem signal_seg (e : Event) (s : State) : (signal e s).seg = s.seg := rfl
@[simp] theorem signal_setupDone (e : Event) (s : State) : (signal e s).setupDone = s.setupDone := rfl
@[simp] theorem signal_hooks (e : Event) (s : State) : (signal e s).hooks = s.hooks := rfl
@[simp] theorem signal_raised (e : Event) (s : State) : (signal e s).raised = s.raised := rfl
@[simp] theorem signal_pending (e : Event) (s : State) : (signal e s).pending = s.pending := rfl
@[simp] theorem signal_port (e : Event) (s : State) : (signal e s).port = s.port := rfl
@[simp] theorem signal_driver (e : Event) (s : State) : (signal e s).driver = s.driver := rfl
@[simp] theorem signal_fills (e : Event) (s : State) : (signal e s).fills = s.fills := rfl

/-! ### `callHook` -/

@[simp] theorem callHook_cfg (h : Hook) (s : State) : (callHook h s).cfg = s.cfg := by unfold callHook; split <;> rfl
@[simp] theorem callHook_cyclesPerFrame (h : Hook) (s : State) : (callHook h s).cyclesPerFrame = s.cyclesPerFrame := by unfold callHook; split <;> rfl
@[simp] theorem callHook_srcP (h : Hook) (s : State) : (callHook h s).srcP = s.srcP := by unfold callHook; split <;> rfl
@[simp] theorem callHook_srcS (h : Hook) (s : State) : (callHook h s).srcS = s.srcS := by unfold callHook; split <;> rfl
@[simp] theorem callHook_nextLine (h : Hook) (s : State) : (callHook h s).nextLine = s.nextLine := by unfold callHook; split <;> rfl
@[simp] theorem callHook_nextCycle (h : Hook) (s : State) : (callHook h s).nextCycle = s.nextCycle := by unfold callHook; split <;> rfl
@[simp] theorem callHook_irqCount (h : Hook) (s : State) : (callHook h s).irqCount = s.irqCount := by unfold callHook; split <;> rfl
@[simp] theorem callHook_carry (h : Hook) (s : State) : (callHook h s).carry = s.carry := by unfold callHook; split <;> rfl
@[simp] theorem callHook_snaps (h : Hook) (s : State) : (callHook h s).snaps = s.snaps := by unfold callHook; split <;> rfl
@[simp] theorem callHook_executedTotal (h : Hook) (s : State) : (callHook h s).executedTotal = s.executedTotal := by unfold callHook; split <;> rfl
@[simp] theorem callHook_phase (h : Hook) (s : State) : (callHook h s).phase = s.phase := by unfold callHook; split <;> rfl
@[simp] theorem callHook_seg (h : Hook) (s : State) : (callHook h s).seg = s.seg := by unfold callHook; split <;> rfl
@[simp] theorem callHook_setupDone (h : Hook) (s : State) : (callHook h s).setupDone = s.setupDone := by unfold callHook; split <;> rfl
@[simp] theorem callHook_hooks (h : Hook) (s : State) : (callHook h s).hooks = s.hooks := by unfold callHook; split <;> rfl
@[simp] theorem callHook_raised (h : Hook) (s : State) : (callHook h s).raised = s.raised := by unfold callHook; split <;> rfl
@[simp] theorem callHook_pending (h : Hook) (s : State) : (callHook h s).pending = s.pending := by unfold callHook; split <;> rfl
@[simp] theorem callHook_port (h : Hook) (s : State) : (callHook h s).port = s.port := by unfold callHook; split <;> rfl
@[simp] theorem callHook_driver (h : Hook) (s : State) : (callHook h s).driver = s.driver := by unfold callHook; split <;> rfl
@[simp] theorem callHook_fills (h : Hook) (s : State) : (callHook h s).fills = s.fills := by unfold callHook; split <;> rfl

/-! ### `callAudio` -/

@[simp] theorem callAudio_cfg (e : Event) (s : State) : (callAudio e s).cfg = s.cfg := by unfold callAudio; split <;> rfl
@[simp] theorem callAudio_cyclesPerFrame (e : Event) (s : State) : (callAudio e s).cyclesPerFrame = s.cyclesPerFrame := by unfold callAudio; split <;> rfl
@[simp] theorem callAudio_srcP (e : Event) (s : State) : (callAudio e s).srcP = s.srcP := by unfold callAudio; split <;> rfl
@[simp] theorem callAudio_srcS (e : Event) (s : State) : (callAudio e s).srcS = s.srcS := by unfold callAudio; split <;> rfl
@[simp] theorem callAudio_nextLine (e : Event) (s : State) : (callAudio e s).nextLine = s.nextLine := by unfold callAudio; split <;> rfl
@[simp] theorem callAudio_nextCycle (e : Event) (s : State) : (callAudio e s).nextCycle = s.nextCycle := by unfold callAudio; split <;> rfl
@[simp] theorem callAudio_irqCount (e : Event) (s : State) : (callAudio e s).irqCount = s.irqCount := by unfold callAudio; split <;> rfl
@[simp] theorem callAudio_carry (e : Event) (s : State) : (callAudio e s).carry = s.carry := by unfold callAudio; split <;> rfl
@[simp] theorem callAudio_snaps (e : Event) (s : State) : (callAudio e s).snaps = s.snaps := by unfold callAudio; split <;> rfl
@[simp] theorem callAudio_executedTotal (e : Event) (s : State) : (callAudio e s).executedTotal = s.executedTotal := by unfold callAudio; split <;> rfl
@[simp] theorem callAudio_phase (e : Event) (s : State) : (callAudio e s).phase = s.phase := by unfold callAudio; split <;> rfl
@[simp] theorem callAudio_seg (e : Event) (s : State) : (callAudio e s).seg = s.seg := by unfold callAudio; split <;> rfl
@[simp] theorem callAudio_setupDone (e : Event) (s : State) : (callAudio e s).setupDone = s.setupDone := by unfold callAudio; split <;> rfl
@[simp] theorem callAudio_hooks (e : Event) (s : State) : (callAudio e s).hooks = s.hooks := by unfold callAudio; split <;> rfl
@[simp] theorem callAudio_raised (e : Event) (s : State) : (callAudio e s).raised = s.raised := by unfold callAudio; split <;> rfl
@[simp] theorem callAudio_pending (e : Event) (s : State) : (callAudio e s).pending = s.pending := by unfold callAudio; split <;> rfl
@[simp] theorem callAudio_port (e : Event) (s : State) : (callAudio e s).port = s.port := by unfold callAudio; split <;> rfl
@[simp] theorem callAudio_driver (e : Event) (s : State) : (callAudio e s).driver = s.driver := by unfold callAudio; split <;> rfl
@[simp] theorem callAudio_fills (e : Event) (s : State) : (callAudio e s).fills = s.fills := by unfold callAudio; split <;> rfl

/-! ### `callDraw` -/

@[simp] theorem callDraw_cfg (s : State) : (callDraw s).cfg = s.cfg := by unfold callDraw; split <;> rfl
@[simp] theorem callDraw_cyclesPerFrame (s : State) : (callDraw s).cyclesPerFrame = s.cyclesPerFrame := by unfold callDraw; split <;> rfl
@[simp] theorem callDraw_srcP (s : State) : (callDraw s).srcP = s.srcP := by unfold callDraw; split <;> rfl
@[simp] theorem callDraw_srcS (s : State) : (callDraw s).srcS = s.srcS := by unfold callDraw; split <;> rfl
@[simp] theorem callDraw_nextLine (s : State) : (callDraw s).nextLine = s.nextLine := by unfold callDraw; split <;> rfl
@[simp] theorem callDraw_nextCycle (s : State) : (callDraw s).nextCycle = s.nextCycle := by unfold callDraw; split <;> rfl
@[simp] theorem callDraw_irqCount (s : State) : (callDraw s).irqCount = s.irqCount := by unfold callDraw; split <;> rfl
@[simp] theorem callDraw_carry (s : State) : (callDraw s).carry = s.carry := by unfold callDraw; split <;> rfl
@[simp] theorem callDraw_snaps (s : State) : (callDraw s).snaps = s.snaps := by unfold callDraw; split <;> rfl
@[simp] theorem callDraw_executedTotal (s : State) : (callDraw s).executedTotal = s.executedTotal := by unfold callDraw; split <;> rfl
@[simp] theorem callDraw_phase (s : State) : (callDraw s).phase = s.phase := by unfold callDraw; split <;> rfl
@[simp] theorem callDraw_seg (s : State) : (callDraw s).seg = s.seg := by unfold callDraw; split <;> rfl
@[simp] theorem callDraw_setupDone (s : State) : (callDraw s).setupDone = s.setupDone := by unfold callDraw; split <;> rfl
@[simp] theorem callDraw_hooks (s : State) : (callDraw s).hooks = s.hooks := by unfold callDraw; split <;> rfl
@[simp] theorem callDraw_raised (s : State) : (callDraw s).raised = s.raised := by unfold callDraw; split <;> rfl
@[simp] theorem callDraw_pending (s : State) : (callDraw s).pending = s.pending := by unfold callDraw; split <;> rfl
@[simp] theorem callDraw_port (s : State) : (callDraw s).port = s.port := by unfold callDraw; split <;> rfl
@[simp] theorem callDraw_driver (s : State) : (callDraw s).driver = s.driver := by unfold callDraw; split <;> rfl
@[simp] theorem callDraw_fills (s : State) : (callDraw s).fills = s.fills := by unfold callDraw; split <;> rfl

/-! ### `irqAssert` -/

@[simp] theorem irqAssert_cfg (level : Nat) (s : State) : (irqAssert level s).cfg = s.cfg := rfl
@[simp] theorem irqAssert_cyclesPerFrame (level : Nat) (s : State) : (irqAssert level s).cyclesPerFrame = s.cyclesPerFrame := rfl
@[simp] theorem irqAssert_srcP (level : Nat) (s : State) : (irqAssert level s).srcP = s.srcP := rfl
@[simp] theorem irqAssert_srcS (level : Nat) (s : State) : (irqAssert level s).srcS = s.srcS := rfl
@[simp] theorem irqAssert_nextLine (level : Nat) (s : State) : (irqAssert level s).nextLine = s.nextLine := rfl
@[simp] theorem irqAssert_nextCycle (level : Nat) (s : State) : (irqAssert level s).nextCycle = s.nextCycle := rfl
@[simp] theorem irqAssert_irqCount (level : Nat) (s : State) : (irqAssert level s).irqCount = s.irqCount := rfl
@[simp] theorem irqAssert_carry (level : Nat) (s : State) : (irqAssert level s).carry = s.carry := rfl
@[simp] theorem irqAssert_snaps (level : Nat) (s : State) : (irqAssert level s).snaps = s.snaps := rfl
@[simp] theorem irqAssert_executedTotal (level : Nat) (s : State) : (irqAssert level s).executedTotal = s.executedTotal := rfl
@[simp] theorem irqAssert_rf (level : Nat) (s : State) : (irqAssert level s).rf = s.rf := rfl
@[simp] theorem irqAssert_aux (level : Nat) (s : State) : (irqAssert level s).aux = s.aux := rfl
@[simp] theorem irqAssert_phase (level : Nat) (s : State) : (irqAssert level s).phase = s.phase := rfl
@[simp] theorem irqAssert_seg (level : Nat) (s : State) : (irqAssert level s).seg = s.seg := rfl
@[simp] theorem irqAssert_setupDone (level : Nat) (s : State) : (irqAssert level s).setupDone = s.setupDone := rfl
@[simp] theorem irqAssert_hooks (level : Nat) (s : State) : (irqAssert level s).hooks = s.hooks := rfl
@[simp] theorem irqAssert_raised (level : Nat) (s : State) : (irqAssert level s).raised = s.raised := rfl
@[simp] theorem irqAssert_inputs (level : Nat) (s : State) : (irqAssert level s).inputs = s.inputs := rfl
@[simp] theorem irqAssert_port (level : Nat) (s : State) : (irqAssert level s).port = s.port := rfl
@[simp] theorem irqAssert_driver (level : Nat) (s : State) : (irqAssert level s).driver = s.driver := rfl
@[simp] theorem irqAssert_answers (level : Nat) (s : State) : (irqAssert level s).answers = s.answers := rfl
@[simp] theorem irqAssert_draws (level : Nat) (s : State) : (irqAssert level s).draws = s.draws := rfl
@[simp] theorem irqAssert_fills (level : Nat) (s : State) : (irqAssert level s).fills = s.fills := rfl

/-! ### `execute` -/

@[simp] theorem execute_cfg (s : State) : (execute s).cfg = s.cfg := rfl
@[simp] theorem execute_cyclesPerFrame (s : State) : (execute s).cyclesPerFrame = s.cyclesPerFrame := rfl
@[simp] theorem execute_srcP (s : State) : (execute s).srcP = s.srcP := rfl
@[simp] theorem execute_srcS (s : State) : (execute s).srcS = s.srcS := rfl
@[simp] theorem execute_nextLine (s : State) : (execute s).nextLine = s.nextLine := rfl
@[simp] theorem execute_nextCycle (s : State) : (execute s).nextCycle = s.nextCycle := rfl
@[simp] theorem execute_irqCount (s : State) : (execute s).irqCount = s.irqCount := rfl
@[simp] theorem execute_carry (s : State) : (execute s).carry = s.carry := rfl
@[simp] theorem execute_snaps (s : State) : (execute s).snaps = s.snaps := rfl
@[simp] theorem execute_executedTotal (s : State) : (execute s).executedTotal = s.executedTotal := rfl
@[simp] theorem execute_phase (s : State) : (execute s).phase = s.phase := rfl
@[simp] theorem execute_seg (s : State) : (execute s).seg = s.seg := rfl
@[simp] theorem execute_setupDone (s : State) : (execute s).setupDone = s.setupDone := rfl
@[simp] theorem execute_hooks (s : State) : (execute s).hooks = s.hooks := rfl
@[simp] theorem execute_out (s : State) : (execute s).out = s.out := rfl
@[simp] theorem execute_raised (s : State) : (execute s).raised = s.raised := rfl
@[simp] theorem execute_port (s : State) : (execute s).port = s.port := rfl
@[simp] theorem execute_driver (s : State) : (execute s).driver = s.driver := rfl
@[simp] theorem execute_fills (s : State) : (execute s).fills = s.fills := rfl

/-! ### `run` -/

@[simp] theorem run_cfg (n : Int) (s : State) : (run n s).cfg = s.cfg := by unfold run; split <;> rfl
@[simp] theorem run_cyclesPerFrame (n : Int) (s : State) : (run n s).cyclesPerFrame = s.cyclesPerFrame := by unfold run; split <;> rfl
@[simp] theorem run_srcP (n : Int) (s : State) : (run n s).srcP = s.srcP := by unfold run; split <;> rfl
@[simp] theorem run_srcS (n : Int) (s : State) : (run n s).srcS = s.srcS := by unfold run; split <;> rfl
@[simp] theorem run_nextLine (n : Int) (s : State) : (run n s).nextLine = s.nextLine := by unfold run; split <;> rfl
@[simp] theorem run_nextCycle (n : Int) (s : State) : (run n s).nextCycle = s.nextCycle := by unfold run; split <;> rfl
@[simp] theorem run_irqCount (n : Int) (s : State) : (run n s).irqCount = s.irqCount := by unfold run; split <;> rfl
@[simp] theorem run_carry (n : Int) (s : State) : (run n s).carry = s.carry := by unfold run; split <;> rfl
@[simp] theorem run_snaps (n : Int) (s : State) : (run n s).snaps = s.snaps := by unfold run; split <;> rfl
@[simp] theorem run_phase (n : Int) (s : State) : (run n s).phase = s.phase := by unfold run; split <;> rfl
@[simp] theorem run_seg (n : Int) (s : State) : (run n s).seg = s.seg := by unfold run; split <;> rfl
@[simp] theorem run_setupDone (n : Int) (s : State) : (run n s).setupDone = s.setupDone := by unfold run; split <;> rfl
@[simp] theorem run_hooks (n : Int) (s : State) : (run n s).hooks = s.hooks := by unfold run; split <;> rfl
@[simp] theorem run_raised (n : Int) (s : State) : (run n s).raised = s.raised := by unfold run; split <;> rfl
@[simp] theorem run_port (n : Int) (s : State) : (run n s).port = s.port := by unfold run; split <;> rfl
@[simp] theorem run_driver (n : Int) (s : State) : (run n s).driver = s.driver := by unfold run; split <;> rfl
@[simp] theorem run_fills (n : Int) (s : State) : (run n s).fills = s.fills := by unfold run; split <;> rfl

/-! ### `runTo` -/

@[simp] theorem runTo_cfg (t : Int) (s : State) : (runTo t s).cfg = s.cfg := by unfold runTo; split <;> simp
@[simp] theorem runTo_cyclesPerFrame (t : Int) (s : State) : (runTo t s).cyclesPerFrame = s.cyclesPerFrame := by unfold runTo; split <;> simp
@[simp] theorem runTo_srcP (t : Int) (s : State) : (runTo t s).srcP = s.srcP := by unfold runTo; split <;> simp
@[simp] theorem runTo_srcS (t : Int) (s : State) : (runTo t s).srcS = s.srcS := by unfold runTo; split <;> simp
@[simp] theorem runTo_nextLine (t : Int) (s : State) : (runTo t s).nextLine = s.nextLine := by unfold runTo; split <;> simp
@[simp] theorem runTo_nextCycle (t : Int) (s : State) : (runTo t s).nextCycle = s.nextCycle := by unfold runTo; split <;> simp
@[simp] theorem runTo_irqCount (t : Int) (s : State) : (runTo t s).irqCount = s.irqCount := by unfold runTo; split <;> simp
@[simp] theorem runTo_carry (t : Int) (s : State) : (runTo t s).carry = s.carry := by unfold runTo; split <;> simp
@[simp] theorem runTo_snaps (t : Int) (s : State) : (runTo t s).snaps = s.snaps := by unfold runTo; split <;> simp
@[simp] theorem runTo_phase (t : Int) (s : State) : (runTo t s).phase = s.phase := by unfold runTo; split <;> simp
@[simp] theorem runTo_seg (t : Int) (s : State) : (runTo t s).seg = s.seg := by unfold runTo; split <;> simp
@[simp] theorem runTo_setupDone (t : Int) (s : State) : (runTo t s).setupDone = s.setupDone := by unfold runTo; split <;> simp
@[simp] theorem runTo_hooks (t : Int) (s : State) : (runTo t s).hooks = s.hooks := by unfold runTo; split <;> simp
@[simp] theorem runTo_raised (t : Int) (s : State) : (runTo t s).raised = s.raised := by unfold runTo; split <;> simp
@[simp] theorem runTo_port (t : Int) (s : State) : (runTo t s).port = s.port := by unfold runTo; split <;> simp
@[simp] theorem runTo_driver (t : Int) (s : State) : (runTo t s).driver = s.driver := by unfold runTo; split <;> simp
@[simp] theorem runTo_fills (t : Int) (s : State) : (runTo t s).fills = s.fills := by unfold runTo; split <;> simp

/-! ### `idleCycles` -/

@[simp] theorem idleCycles_cfg (n : Int) (s : State) : (idleCycles n s).cfg = s.cfg := rfl
@[simp] theorem idleCycles_cyclesPerFrame (n : Int) (s : State) : (idleCycles n s).cyclesPerFrame = s.cyclesPerFrame := rfl
@[simp] theorem idleCycles_srcP (n : Int) (s : State) : (idleCycles n s).srcP = s.srcP := rfl
@[simp] theorem idleCycles_srcS (n : Int) (s : State) : (idleCycles n s).srcS = s.srcS := rfl
@[simp] theorem idleCycles_nextLine (n : Int) (s : State) : (idleCycles n s).nextLine = s.nextLine := rfl
@[simp] theorem idleCycles_nextCycle (n : Int) (s : State) : (idleCycles n s).nextCycle = s.nextCycle := rfl
@[simp] theorem idleCycles_irqCount (n : Int) (s : State) : (idleCycles n s).irqCount = s.irqCount := rfl
@[simp] theorem idleCycles_carry (n : Int) (s : State) : (idleCycles n s).carry = s.carry := rfl
@[simp] theorem idleCycles_snaps (n : Int) (s : State) : (idleCycles n s).snaps = s.snaps := rfl
@[simp] theorem idleCycles_rf (n : Int) (s : State) : (idleCycles n s).rf = s.rf := rfl
@[simp] theorem idleCycles_aux (n : Int) (s : State) : (idleCycles n s).aux = s.aux := rfl
@[simp] theorem idleCycles_phase (n : Int) (s : State) : (idleCycles n s).phase = s.phase := rfl
@[simp] theorem idleCycles_seg (n : Int) (s : State) : (idleCycles n s).seg = s.seg := rfl
@[simp] theorem idleCycles_setupDone (n : Int) (s : State) : (idleCycles n s).setupDone = s.setupDone := rfl
@[simp] theorem idleCycles_hooks (n : Int) (s : State) : (idleCycles n s).hooks = s.hooks := rfl
@[simp] theorem idleCycles_raised (n : Int) (s : State) : (idleCycles n s).raised = s.raised := rfl
@[simp] theorem idleCycles_pending (n : Int) (s : State) : (idleCycles n s).pending = s.pending := rfl
@[simp] theorem idleCycles_inputs (n : Int) (s : State) : (idleCycles n s).inputs = s.inputs := rfl
@[simp] theorem idleCycles_port (n : Int) (s : State) : (idleCycles n s).port = s.port := rfl
@[simp] theorem idleCycles_driver (n : Int) (s : State) : (idleCycles n s).driver = s.driver := rfl
@[simp] theorem idleCycles_answers (n : Int) (s : State) : (idleCycles n s).answers = s.answers := rfl
@[simp] theorem idleCycles_draws (n : Int) (s : State) : (idleCycles n s).draws = s.draws := rfl
@[simp] theorem idleCycles_fills (n : Int) (s : State) : (idleCycles n s).fills = s.fills := rfl

/-! ### `cpuReset` -/

@[simp] theorem cpuReset_cfg (s : State) : (cpuReset s).cfg = s.cfg := rfl
@[simp] theorem cpuReset_cyclesPerFrame (s : State) : (cpuReset s).cyclesPerFrame = s.cyclesPerFrame := rfl
@[simp] theorem cpuReset_srcP (s : State) : (cpuReset s).srcP = s.srcP := rfl
@[simp] theorem cpuReset_srcS (s : State) : (cpuReset s).srcS = s.srcS := rfl
@[simp] theorem cpuReset_nextLine (s : State) : (cpuReset s).nextLine = s.nextLine := rfl
@[simp] theorem cpuReset_nextCycle (s : State) : (cpuReset s).nextCycle = s.nextCycle := rfl
@[simp] theorem cpuReset_irqCount (s : State) : (cpuReset s).irqCount = s.irqCount := rfl
@[simp] theorem cpuReset_carry (s : State) : (cpuReset s).carry = s.carry := rfl
@[simp] theorem cpuReset_snaps (s : State) : (cpuReset s).snaps = s.snaps := rfl
@[simp] theorem cpuReset_phase (s : State) : (cpuReset s).phase = s.phase := rfl
@[simp] theorem cpuReset_seg (s : State) : (cpuReset s).seg = s.seg := rfl
@[simp] theorem cpuReset_setupDone (s : State) : (cpuReset s).setupDone = s.setupDone := rfl
@[simp] theorem cpuReset_hooks (s : State) : (cpuReset s).hooks = s.hooks := rfl
@[simp] theorem cpuReset_raised (s : State) : (cpuReset s).raised = s.raised := rfl
@[simp] theorem cpuReset_port (s : State) : (cpuReset s).port = s.port := rfl
@[simp] theorem cpuReset_driver (s : State) : (cpuReset s).driver = s.driver := rfl
@[simp] theorem cpuReset_fills (s : State) : (cpuReset s).fills = s.fills := rfl

/-! ### `snapCopy` -/

@[simp] theorem snapCopy_cfg (i : Nat) (s : State) : (snapCopy i s).cfg = s.cfg := rfl
@[simp] theorem snapCopy_cyclesPerFrame (i : Nat) (s : State) : (snapCopy i s).cyclesPerFrame = s.cyclesPerFrame := rfl
@[simp] theorem snapCopy_srcP (i : Nat) (s : State) : (snapCopy i s).srcP = s.srcP := rfl
@[simp] theorem snapCopy_srcS (i : Nat) (s : State) : (snapCopy i s).srcS = s.srcS := rfl
@[simp] theorem snapCopy_nextLine (i : Nat) (s : State) : (snapCopy i s).nextLine = s.nextLine := rfl
@[simp] theorem snapCopy_nextCycle (i : Nat) (s : State) : (snapCopy i s).nextCycle = s.nextCycle := rfl
@[simp] theorem snapCopy_irqCount (i : Nat) (s : State) : (snapCopy i s).irqCount = s.irqCount := rfl
@[simp] theorem snapCopy_carry (i : Nat) (s : State) : (snapCopy i s).carry = s.carry := rfl
@[simp] theorem snapCopy_executedTotal (i : Nat) (s : State) : (snapCopy i s).executedTotal = s.executedTotal := rfl
@[simp] theorem snapCopy_rf (i : Nat) (s : State) : (snapCopy i s).rf = s.rf := rfl
@[simp] theorem snapCopy_aux (i : Nat) (s : State) : (snapCopy i s).aux = s.aux := rfl
@[simp] theorem snapCopy_phase (i : Nat) (s : State) : (snapCopy i s).phase = s.phase := rfl
@[simp] theorem snapCopy_seg (i : Nat) (s : State) : (snapCopy i s).seg = s.seg := rfl
@[simp] theorem snapCopy_setupDone (i : Nat) (s : State) : (snapCopy i s).setupDone = s.setupDone := rfl
@[simp] theorem snapCopy_hooks (i : Nat) (s : State) : (snapCopy i s).hooks = s.hooks := rfl
@[simp] theorem snapCopy_out (i : Nat) (s : State) : (snapCopy i s).out = s.out := rfl
@[simp] theorem snapCopy_raised (i : Nat) (s : State) : (snapCopy i s).raised = s.raised := rfl
@[simp] theorem snapCopy_pending (i : Nat) (s : State) : (snapCopy i s).pending = s.pending := rfl
@[simp] theorem snapCopy_inputs (i : Nat) (s : State) : (snapCopy i s).inputs = s.inputs := rfl
@[simp] theorem snapCopy_port (i : Nat) (s : State) : (snapCopy i s).port = s.port := rfl
@[simp] theorem snapCopy_driver (i : Nat) (s : State) : (snapCopy i s).driver = s.driver := rfl
@[simp] theorem snapCopy_answers (i : Nat) (s : State) : (snapCopy i s).answers = s.answers := rfl
@[simp] theorem snapCopy_draws (i : Nat) (s : State) : (snapCopy i s).draws = s.draws := rfl
@[simp] theorem snapCopy_fills (i : Nat) (s : State) : (snapCopy i s).fills = s.fills := rfl

/-! ### `setRaster` -/

@[simp] theorem setRaster_cfg (i : Nat) (v : Int) (s : State) : (setRaster i v s).cfg = s.cfg := rfl
@[simp] theorem setRaster_cyclesPerFrame (i : Nat) (v : Int) (s : State) : (setRaster i v s).cyclesPerFrame = s.cyclesPerFrame := rfl
@[simp] theorem setRaster_srcP (i : Nat) (v : Int) (s : State) : (setRaster i v s).srcP = s.srcP := rfl
@[simp] theorem setRaster_srcS (i : Nat) (v : Int) (s : State) : (setRaster i v s).srcS = s.srcS := rfl
@[simp] theorem setRaster_nextLine (i : Nat) (v : Int) (s : State) : (setRaster i v s).nextLine = s.nextLine := rfl
@[simp] theorem setRaster_nextCycle (i : Nat) (v : Int) (s : State) : (setRaster i v s).nextCycle = s.nextCycle := rfl
@[simp] theorem setRaster_irqCount (i : Nat) (v : Int) (s : State) : (setRaster i v s).irqCount = s.irqCount := rfl
@[simp] theorem setRaster_carry (i : Nat) (v : Int) (s : State) : (setRaster i v s).carry = s.carry := rfl
@[simp] theorem setRaster_executedTotal (i : Nat) (v : Int) (s : State) : (setRaster i v s).executedTotal = s.executedTotal := rfl
@[simp] theorem setRaster_rf (i : Nat) (v : Int) (s : State) : (setRaster i v s).rf = s.rf := rfl
@[simp] theorem setRaster_aux (i : Nat) (v : Int) (s : State) : (setRaster i v s).aux = s.aux := rfl
@[simp] theorem setRaster_phase (i : Nat) (v : Int) (s : State) : (setRaster i v s).phase = s.phase := rfl
@[simp] theorem setRaster_seg (i : Nat) (v : Int) (s : State) : (setRaster i v s).seg = s.seg := rfl
@[simp] theorem setRaster_setupDone (i : Nat) (v : Int) (s : State) : (setRaster i v s).setupDone = s.setupDone := rfl
@[simp] theorem setRaster_hooks (i : Nat) (v : Int) (s : State) : (setRaster i v s).hooks = s.hooks := rfl
@[simp] theorem setRaster_out (i : Nat) (v : Int) (s : State) : (setRaster i v s).out = s.out := rfl
@[simp] theorem setRaster_raised (i : Nat) (v : Int) (s : State) : (setRaster i v s).raised = s.raised := rfl
@[simp] theorem setRaster_pending (i : Nat) (v : Int) (s : State) : (setRaster i v s).pending = s.pending := rfl
@[simp] theorem setRaster_inputs (i : Nat) (v : Int) (s : State) : (setRaster i v s).inputs = s.inputs := rfl
@[simp] theorem setRaster_port (i : Nat) (v : Int) (s : State) : (setRaster i v s).port = s.port := rfl
@[simp] theorem setRaster_driver (i : Nat) (v : Int) (s : State) : (setRaster i v s).driver = s.driver := rfl
@[simp] theorem setRaster_answers (i : Nat) (v : Int) (s : State) : (setRaster i v s).answers = s.answers := rfl
@[simp] theorem setRaster_draws (i : Nat) (v : Int) (s : State) : (setRaster i v s).draws = s.draws := rfl
@[simp] theorem setRaster_fills (i : Nat) (v : Int) (s : State) : (setRaster i v s).fills = s.fills := rfl

/-! ### `raiseException` -/

@[simp] theorem raiseException_cfg (e : BlockException) (s : State) : (raiseException e s).cfg = s.cfg := rfl
@[simp] theorem raiseException_cyclesPerFrame (e : BlockException) (s : State) : (raiseException e s).cyclesPerFrame = s.cyclesPerFrame := rfl
@[simp] theorem raiseException_srcP (e : BlockException) (s : State) : (raiseException e s).srcP = s.srcP := rfl
@[simp] theorem raiseException_srcS (e : BlockException) (s : State) : (raiseException e s).srcS = s.srcS := rfl
@[simp] theorem raiseException_nextLine (e : BlockException) (s : State) : (raiseException e s).nextLine = s.nextLine := rfl
@[simp] theorem raiseException_nextCycle (e : BlockException) (s : State) : (raiseException e s).nextCycle = s.nextCycle := rfl
@[simp] theorem raiseException_irqCount (e : BlockException) (s : State) : (raiseException e s).irqCount = s.irqCount := rfl
@[simp] theorem raiseException_carry (e : BlockException) (s : State) : (raiseException e s).carry = s.carry := rfl
@[simp] theorem raiseException_snaps (e : BlockException) (s : State) : (raiseException e s).snaps = s.snaps := rfl
@[simp] theorem raiseException_executedTotal (e : BlockException) (s : State) : (raiseException e s).executedTotal = s.executedTotal := rfl
@[simp] theorem raiseException_rf (e : BlockException) (s : State) : (raiseException e s).rf = s.rf := rfl
@[simp] theorem raiseException_aux (e : BlockException) (s : State) : (raiseException e s).aux = s.aux := rfl
@[simp] theorem raiseException_phase (e : BlockException) (s : State) : (raiseException e s).phase = s.phase := rfl
@[simp] theorem raiseException_seg (e : BlockException) (s : State) : (raiseException e s).seg = s.seg := rfl
@[simp] theorem raiseException_out (e : BlockException) (s : State) : (raiseException e s).out = s.out := rfl
@[simp] theorem raiseException_pending (e : BlockException) (s : State) : (raiseException e s).pending = s.pending := rfl
@[simp] theorem raiseException_inputs (e : BlockException) (s : State) : (raiseException e s).inputs = s.inputs := rfl
@[simp] theorem raiseException_port (e : BlockException) (s : State) : (raiseException e s).port = s.port := rfl
@[simp] theorem raiseException_driver (e : BlockException) (s : State) : (raiseException e s).driver = s.driver := rfl
@[simp] theorem raiseException_answers (e : BlockException) (s : State) : (raiseException e s).answers = s.answers := rfl
@[simp] theorem raiseException_draws (e : BlockException) (s : State) : (raiseException e s).draws = s.draws := rfl
@[simp] theorem raiseException_fills (e : BlockException) (s : State) : (raiseException e s).fills = s.fills := rfl

/-! ### `unspecify` -/

@[simp] theorem unspecify_cfg (c : Contents) (s : State) : (unspecify c s).cfg = s.cfg := rfl
@[simp] theorem unspecify_phase (c : Contents) (s : State) : (unspecify c s).phase = s.phase := rfl
@[simp] theorem unspecify_setupDone (c : Contents) (s : State) : (unspecify c s).setupDone = s.setupDone := rfl
@[simp] theorem unspecify_hooks (c : Contents) (s : State) : (unspecify c s).hooks = s.hooks := rfl
@[simp] theorem unspecify_out (c : Contents) (s : State) : (unspecify c s).out = s.out := rfl
@[simp] theorem unspecify_raised (c : Contents) (s : State) : (unspecify c s).raised = s.raised := rfl
@[simp] theorem unspecify_inputs (c : Contents) (s : State) : (unspecify c s).inputs = s.inputs := rfl
@[simp] theorem unspecify_port (c : Contents) (s : State) : (unspecify c s).port = s.port := rfl
@[simp] theorem unspecify_driver (c : Contents) (s : State) : (unspecify c s).driver = s.driver := rfl
@[simp] theorem unspecify_answers (c : Contents) (s : State) : (unspecify c s).answers = s.answers := rfl
@[simp] theorem unspecify_draws (c : Contents) (s : State) : (unspecify c s).draws = s.draws := rfl

/-! ### `disableWords` -/

@[simp] theorem disableWords_cfg (s : State) : (disableWords s).cfg = s.cfg := rfl
@[simp] theorem disableWords_cyclesPerFrame (s : State) : (disableWords s).cyclesPerFrame = s.cyclesPerFrame := rfl
@[simp] theorem disableWords_srcP (s : State) : (disableWords s).srcP = s.srcP := rfl
@[simp] theorem disableWords_srcS (s : State) : (disableWords s).srcS = s.srcS := rfl
@[simp] theorem disableWords_nextLine (s : State) : (disableWords s).nextLine = s.nextLine := rfl
@[simp] theorem disableWords_nextCycle (s : State) : (disableWords s).nextCycle = s.nextCycle := rfl
@[simp] theorem disableWords_irqCount (s : State) : (disableWords s).irqCount = s.irqCount := rfl
@[simp] theorem disableWords_carry (s : State) : (disableWords s).carry = s.carry := rfl
@[simp] theorem disableWords_snaps (s : State) : (disableWords s).snaps = s.snaps := rfl
@[simp] theorem disableWords_executedTotal (s : State) : (disableWords s).executedTotal = s.executedTotal := rfl
@[simp] theorem disableWords_aux (s : State) : (disableWords s).aux = s.aux := rfl
@[simp] theorem disableWords_phase (s : State) : (disableWords s).phase = s.phase := rfl
@[simp] theorem disableWords_seg (s : State) : (disableWords s).seg = s.seg := rfl
@[simp] theorem disableWords_setupDone (s : State) : (disableWords s).setupDone = s.setupDone := rfl
@[simp] theorem disableWords_hooks (s : State) : (disableWords s).hooks = s.hooks := rfl
@[simp] theorem disableWords_out (s : State) : (disableWords s).out = s.out := rfl
@[simp] theorem disableWords_raised (s : State) : (disableWords s).raised = s.raised := rfl
@[simp] theorem disableWords_pending (s : State) : (disableWords s).pending = s.pending := rfl
@[simp] theorem disableWords_inputs (s : State) : (disableWords s).inputs = s.inputs := rfl
@[simp] theorem disableWords_port (s : State) : (disableWords s).port = s.port := rfl
@[simp] theorem disableWords_driver (s : State) : (disableWords s).driver = s.driver := rfl
@[simp] theorem disableWords_answers (s : State) : (disableWords s).answers = s.answers := rfl
@[simp] theorem disableWords_draws (s : State) : (disableWords s).draws = s.draws := rfl
@[simp] theorem disableWords_fills (s : State) : (disableWords s).fills = s.fills := rfl

/-! ### `fullReset` -/

@[simp] theorem fullReset_cfg (s : State) : (fullReset s).cfg = s.cfg := by simp [fullReset]
@[simp] theorem fullReset_cyclesPerFrame (s : State) : (fullReset s).cyclesPerFrame = s.cyclesPerFrame := by simp [fullReset]
@[simp] theorem fullReset_srcP (s : State) : (fullReset s).srcP = s.srcP := by simp [fullReset]
@[simp] theorem fullReset_srcS (s : State) : (fullReset s).srcS = s.srcS := by simp [fullReset]
@[simp] theorem fullReset_nextLine (s : State) : (fullReset s).nextLine = s.nextLine := by simp [fullReset]
@[simp] theorem fullReset_nextCycle (s : State) : (fullReset s).nextCycle = s.nextCycle := by simp [fullReset]
@[simp] theorem fullReset_irqCount (s : State) : (fullReset s).irqCount = s.irqCount := by simp [fullReset]
@[simp] theorem fullReset_snaps (s : State) : (fullReset s).snaps = s.snaps := by simp [fullReset]
@[simp] theorem fullReset_phase (s : State) : (fullReset s).phase = s.phase := by simp [fullReset]
@[simp] theorem fullReset_seg (s : State) : (fullReset s).seg = s.seg := by simp [fullReset]
@[simp] theorem fullReset_setupDone (s : State) : (fullReset s).setupDone = s.setupDone := by simp [fullReset]
@[simp] theorem fullReset_hooks (s : State) : (fullReset s).hooks = s.hooks := by simp [fullReset]
@[simp] theorem fullReset_raised (s : State) : (fullReset s).raised = s.raised := by simp [fullReset]
@[simp] theorem fullReset_port (s : State) : (fullReset s).port = s.port := by simp [fullReset]
@[simp] theorem fullReset_driver (s : State) : (fullReset s).driver = s.driver := by simp [fullReset]
@[simp] theorem fullReset_fills (s : State) : (fullReset s).fills = s.fills := by simp [fullReset]

/-! ### `schedule` -/

@[simp] theorem schedule_cfg (s : State) : (schedule s).cfg = s.cfg := rfl
@[simp] theorem schedule_cyclesPerFrame (s : State) : (schedule s).cyclesPerFrame = s.cyclesPerFrame := rfl
@[simp] theorem schedule_srcP (s : State) : (schedule s).srcP = s.srcP := rfl
@[simp] theorem schedule_srcS (s : State) : (schedule s).srcS = s.srcS := rfl
@[simp] theorem schedule_irqCount (s : State) : (schedule s).irqCount = s.irqCount := rfl
@[simp] theorem schedule_carry (s : State) : (schedule s).carry = s.carry := rfl
@[simp] theorem schedule_snaps (s : State) : (schedule s).snaps = s.snaps := rfl
@[simp] theorem schedule_executedTotal (s : State) : (schedule s).executedTotal = s.executedTotal := rfl
@[simp] theorem schedule_rf (s : State) : (schedule s).rf = s.rf := rfl
@[simp] theorem schedule_aux (s : State) : (schedule s).aux = s.aux := rfl
@[simp] theorem schedule_phase (s : State) : (schedule s).phase = s.phase := rfl
@[simp] theorem schedule_seg (s : State) : (schedule s).seg = s.seg := rfl
@[simp] theorem schedule_setupDone (s : State) : (schedule s).setupDone = s.setupDone := rfl
@[simp] theorem schedule_hooks (s : State) : (schedule s).hooks = s.hooks := rfl
@[simp] theorem schedule_out (s : State) : (schedule s).out = s.out := rfl
@[simp] theorem schedule_raised (s : State) : (schedule s).raised = s.raised := rfl
@[simp] theorem schedule_pending (s : State) : (schedule s).pending = s.pending := rfl
@[simp] theorem schedule_inputs (s : State) : (schedule s).inputs = s.inputs := rfl
@[simp] theorem schedule_port (s : State) : (schedule s).port = s.port := rfl
@[simp] theorem schedule_driver (s : State) : (schedule s).driver = s.driver := rfl
@[simp] theorem schedule_answers (s : State) : (schedule s).answers = s.answers := rfl
@[simp] theorem schedule_draws (s : State) : (schedule s).draws = s.draws := rfl
@[simp] theorem schedule_fills (s : State) : (schedule s).fills = s.fills := rfl

/-! ### `interruptAndRun` -/

@[simp] theorem interruptAndRun_cfg (s : State) : (interruptAndRun s).cfg = s.cfg := by simp [interruptAndRun]
@[simp] theorem interruptAndRun_cyclesPerFrame (s : State) : (interruptAndRun s).cyclesPerFrame = s.cyclesPerFrame := by simp [interruptAndRun]
@[simp] theorem interruptAndRun_srcP (s : State) : (interruptAndRun s).srcP = s.srcP := by simp [interruptAndRun]
@[simp] theorem interruptAndRun_srcS (s : State) : (interruptAndRun s).srcS = s.srcS := by simp [interruptAndRun]
@[simp] theorem interruptAndRun_nextLine (s : State) : (interruptAndRun s).nextLine = s.nextLine := by simp [interruptAndRun]
@[simp] theorem interruptAndRun_nextCycle (s : State) : (interruptAndRun s).nextCycle = s.nextCycle := by simp [interruptAndRun]
@[simp] theorem interruptAndRun_irqCount (s : State) : (interruptAndRun s).irqCount = s.irqCount := by simp [interruptAndRun]
@[simp] theorem interruptAndRun_carry (s : State) : (interruptAndRun s).carry = s.carry := by simp [interruptAndRun]
@[simp] theorem interruptAndRun_snaps (s : State) : (interruptAndRun s).snaps = s.snaps := by simp [interruptAndRun]
@[simp] theorem interruptAndRun_phase (s : State) : (interruptAndRun s).phase = s.phase := by simp [interruptAndRun]
@[simp] theorem interruptAndRun_seg (s : State) : (interruptAndRun s).seg = s.seg := by simp [interruptAndRun]
@[simp] theorem interruptAndRun_setupDone (s : State) : (interruptAndRun s).setupDone = s.setupDone := by simp [interruptAndRun]
@[simp] theorem interruptAndRun_hooks (s : State) : (interruptAndRun s).hooks = s.hooks := by simp [interruptAndRun]
@[simp] theorem interruptAndRun_raised (s : State) : (interruptAndRun s).raised = s.raised := by simp [interruptAndRun]
@[simp] theorem interruptAndRun_port (s : State) : (interruptAndRun s).port = s.port := by simp [interruptAndRun]
@[simp] theorem interruptAndRun_driver (s : State) : (interruptAndRun s).driver = s.driver := by simp [interruptAndRun]
@[simp] theorem interruptAndRun_fills (s : State) : (interruptAndRun s).fills = s.fills := by simp [interruptAndRun]

/-! ### `rearmSources` -/

@[simp] theorem rearmSources_cfg (due : Nat) (s : State) : (rearmSources due s).cfg = s.cfg := rfl
@[simp] theorem rearmSources_cyclesPerFrame (due : Nat) (s : State) : (rearmSources due s).cyclesPerFrame = s.cyclesPerFrame := rfl
@[simp] theorem rearmSources_nextLine (due : Nat) (s : State) : (rearmSources due s).nextLine = s.nextLine := rfl
@[simp] theorem rearmSources_nextCycle (due : Nat) (s : State) : (rearmSources due s).nextCycle = s.nextCycle := rfl
@[simp] theorem rearmSources_irqCount (due : Nat) (s : State) : (rearmSources due s).irqCount = s.irqCount := rfl
@[simp] theorem rearmSources_carry (due : Nat) (s : State) : (rearmSources due s).carry = s.carry := rfl
@[simp] theorem rearmSources_snaps (due : Nat) (s : State) : (rearmSources due s).snaps = s.snaps := rfl
@[simp] theorem rearmSources_executedTotal (due : Nat) (s : State) : (rearmSources due s).executedTotal = s.executedTotal := rfl
@[simp] theorem rearmSources_rf (due : Nat) (s : State) : (rearmSources due s).rf = s.rf := rfl
@[simp] theorem rearmSources_aux (due : Nat) (s : State) : (rearmSources due s).aux = s.aux := rfl
@[simp] theorem rearmSources_phase (due : Nat) (s : State) : (rearmSources due s).phase = s.phase := rfl
@[simp] theorem rearmSources_seg (due : Nat) (s : State) : (rearmSources due s).seg = s.seg := rfl
@[simp] theorem rearmSources_setupDone (due : Nat) (s : State) : (rearmSources due s).setupDone = s.setupDone := rfl
@[simp] theorem rearmSources_hooks (due : Nat) (s : State) : (rearmSources due s).hooks = s.hooks := rfl
@[simp] theorem rearmSources_out (due : Nat) (s : State) : (rearmSources due s).out = s.out := rfl
@[simp] theorem rearmSources_raised (due : Nat) (s : State) : (rearmSources due s).raised = s.raised := rfl
@[simp] theorem rearmSources_pending (due : Nat) (s : State) : (rearmSources due s).pending = s.pending := rfl
@[simp] theorem rearmSources_inputs (due : Nat) (s : State) : (rearmSources due s).inputs = s.inputs := rfl
@[simp] theorem rearmSources_port (due : Nat) (s : State) : (rearmSources due s).port = s.port := rfl
@[simp] theorem rearmSources_driver (due : Nat) (s : State) : (rearmSources due s).driver = s.driver := rfl
@[simp] theorem rearmSources_answers (due : Nat) (s : State) : (rearmSources due s).answers = s.answers := rfl
@[simp] theorem rearmSources_draws (due : Nat) (s : State) : (rearmSources due s).draws = s.draws := rfl
@[simp] theorem rearmSources_fills (due : Nat) (s : State) : (rearmSources due s).fills = s.fills := rfl

/-! ### `forceProgress` -/

@[simp] theorem forceProgress_cfg (s : State) : (forceProgress s).cfg = s.cfg := by unfold forceProgress; split <;> rfl
@[simp] theorem forceProgress_cyclesPerFrame (s : State) : (forceProgress s).cyclesPerFrame = s.cyclesPerFrame := by unfold forceProgress; split <;> rfl
@[simp] theorem forceProgress_srcP (s : State) : (forceProgress s).srcP = s.srcP := by unfold forceProgress; split <;> rfl
@[simp] theorem forceProgress_srcS (s : State) : (forceProgress s).srcS = s.srcS := by unfold forceProgress; split <;> rfl
@[simp] theorem forceProgress_nextLine (s : State) : (forceProgress s).nextLine = s.nextLine := by unfold forceProgress; split <;> rfl
@[simp] theorem forceProgress_irqCount (s : State) : (forceProgress s).irqCount = s.irqCount := by unfold forceProgress; split <;> rfl
@[simp] theorem forceProgress_carry (s : State) : (forceProgress s).carry = s.carry := by unfold forceProgress; split <;> rfl
@[simp] theorem forceProgress_snaps (s : State) : (forceProgress s).snaps = s.snaps := by unfold forceProgress; split <;> rfl
@[simp] theorem forceProgress_executedTotal (s : State) : (forceProgress s).executedTotal = s.executedTotal := by unfold forceProgress; split <;> rfl
@[simp] theorem forceProgress_rf (s : State) : (forceProgress s).rf = s.rf := by unfold forceProgress; split <;> rfl
@[simp] theorem forceProgress_aux (s : State) : (forceProgress s).aux = s.aux := by unfold forceProgress; split <;> rfl
@[simp] theorem forceProgress_phase (s : State) : (forceProgress s).phase = s.phase := by unfold forceProgress; split <;> rfl
@[simp] theorem forceProgress_seg (s : State) : (forceProgress s).seg = s.seg := by unfold forceProgress; split <;> rfl
@[simp] theorem forceProgress_setupDone (s : State) : (forceProgress s).setupDone = s.setupDone := by unfold forceProgress; split <;> rfl
@[simp] theorem forceProgress_hooks (s : State) : (forceProgress s).hooks = s.hooks := by unfold forceProgress; split <;> rfl
@[simp] theorem forceProgress_out (s : State) : (forceProgress s).out = s.out := by unfold forceProgress; split <;> rfl
@[simp] theorem forceProgress_raised (s : State) : (forceProgress s).raised = s.raised := by unfold forceProgress; split <;> rfl
@[simp] theorem forceProgress_pending (s : State) : (forceProgress s).pending = s.pending := by unfold forceProgress; split <;> rfl
@[simp] theorem forceProgress_inputs (s : State) : (forceProgress s).inputs = s.inputs := by unfold forceProgress; split <;> rfl
@[simp] theorem forceProgress_port (s : State) : (forceProgress s).port = s.port := by unfold forceProgress; split <;> rfl
@[simp] theorem forceProgress_driver (s : State) : (forceProgress s).driver = s.driver := by unfold forceProgress; split <;> rfl
@[simp] theorem forceProgress_answers (s : State) : (forceProgress s).answers = s.answers := by unfold forceProgress; split <;> rfl
@[simp] theorem forceProgress_draws (s : State) : (forceProgress s).draws = s.draws := by unfold forceProgress; split <;> rfl
@[simp] theorem forceProgress_fills (s : State) : (forceProgress s).fills = s.fills := by unfold forceProgress; split <;> rfl

/-! ### `driverActs` -/

@[simp] theorem driverActs_cfg (s : State) : (driverActs s).cfg = s.cfg := by unfold driverActs; split <;> rfl
@[simp] theorem driverActs_cyclesPerFrame (s : State) : (driverActs s).cyclesPerFrame = s.cyclesPerFrame := by unfold driverActs; split <;> rfl
@[simp] theorem driverActs_srcP (s : State) : (driverActs s).srcP = s.srcP := by unfold driverActs; split <;> rfl
@[simp] theorem driverActs_srcS (s : State) : (driverActs s).srcS = s.srcS := by unfold driverActs; split <;> rfl
@[simp] theorem driverActs_nextLine (s : State) : (driverActs s).nextLine = s.nextLine := by unfold driverActs; split <;> rfl
@[simp] theorem driverActs_nextCycle (s : State) : (driverActs s).nextCycle = s.nextCycle := by unfold driverActs; split <;> rfl
@[simp] theorem driverActs_irqCount (s : State) : (driverActs s).irqCount = s.irqCount := by unfold driverActs; split <;> rfl
@[simp] theorem driverActs_carry (s : State) : (driverActs s).carry = s.carry := by unfold driverActs; split <;> rfl
@[simp] theorem driverActs_snaps (s : State) : (driverActs s).snaps = s.snaps := by unfold driverActs; split <;> rfl
@[simp] theorem driverActs_executedTotal (s : State) : (driverActs s).executedTotal = s.executedTotal := by unfold driverActs; split <;> rfl
@[simp] theorem driverActs_rf (s : State) : (driverActs s).rf = s.rf := by unfold driverActs; split <;> rfl
@[simp] theorem driverActs_aux (s : State) : (driverActs s).aux = s.aux := by unfold driverActs; split <;> rfl
@[simp] theorem driverActs_seg (s : State) : (driverActs s).seg = s.seg := by unfold driverActs; split <;> rfl
@[simp] theorem driverActs_setupDone (s : State) : (driverActs s).setupDone = s.setupDone := by unfold driverActs; split <;> rfl
@[simp] theorem driverActs_hooks (s : State) : (driverActs s).hooks = s.hooks := by unfold driverActs; split <;> rfl
@[simp] theorem driverActs_out (s : State) : (driverActs s).out = s.out := by unfold driverActs; split <;> rfl
@[simp] theorem driverActs_raised (s : State) : (driverActs s).raised = s.raised := by unfold driverActs; split <;> rfl
@[simp] theorem driverActs_pending (s : State) : (driverActs s).pending = s.pending := by unfold driverActs; split <;> rfl
@[simp] theorem driverActs_inputs (s : State) : (driverActs s).inputs = s.inputs := by unfold driverActs; split <;> rfl
@[simp] theorem driverActs_answers (s : State) : (driverActs s).answers = s.answers := by unfold driverActs; split <;> rfl
@[simp] theorem driverActs_draws (s : State) : (driverActs s).draws = s.draws := by unfold driverActs; split <;> rfl
@[simp] theorem driverActs_fills (s : State) : (driverActs s).fills = s.fills := by unfold driverActs; split <;> rfl

/-! ### `reloadLines` -/

@[simp] theorem reloadLines_cfg (s : State) : (reloadLines s).cfg = s.cfg := rfl
@[simp] theorem reloadLines_cyclesPerFrame (s : State) : (reloadLines s).cyclesPerFrame = s.cyclesPerFrame := rfl
@[simp] theorem reloadLines_irqCount (s : State) : (reloadLines s).irqCount = s.irqCount := rfl
@[simp] theorem reloadLines_carry (s : State) : (reloadLines s).carry = s.carry := rfl
@[simp] theorem reloadLines_snaps (s : State) : (reloadLines s).snaps = s.snaps := rfl
@[simp] theorem reloadLines_executedTotal (s : State) : (reloadLines s).executedTotal = s.executedTotal := rfl
@[simp] theorem reloadLines_rf (s : State) : (reloadLines s).rf = s.rf := rfl
@[simp] theorem reloadLines_aux (s : State) : (reloadLines s).aux = s.aux := rfl
@[simp] theorem reloadLines_phase (s : State) : (reloadLines s).phase = s.phase := rfl
@[simp] theorem reloadLines_seg (s : State) : (reloadLines s).seg = s.seg := rfl
@[simp] theorem reloadLines_setupDone (s : State) : (reloadLines s).setupDone = s.setupDone := rfl
@[simp] theorem reloadLines_hooks (s : State) : (reloadLines s).hooks = s.hooks := rfl
@[simp] theorem reloadLines_out (s : State) : (reloadLines s).out = s.out := rfl
@[simp] theorem reloadLines_raised (s : State) : (reloadLines s).raised = s.raised := rfl
@[simp] theorem reloadLines_pending (s : State) : (reloadLines s).pending = s.pending := rfl
@[simp] theorem reloadLines_inputs (s : State) : (reloadLines s).inputs = s.inputs := rfl
@[simp] theorem reloadLines_port (s : State) : (reloadLines s).port = s.port := rfl
@[simp] theorem reloadLines_driver (s : State) : (reloadLines s).driver = s.driver := rfl
@[simp] theorem reloadLines_answers (s : State) : (reloadLines s).answers = s.answers := rfl
@[simp] theorem reloadLines_draws (s : State) : (reloadLines s).draws = s.draws := rfl
@[simp] theorem reloadLines_fills (s : State) : (reloadLines s).fills = s.fills := rfl

/-! ### `loadFrame` -/

@[simp] theorem loadFrame_cfg (s : State) : (loadFrame s).cfg = s.cfg := rfl
@[simp] theorem loadFrame_carry (s : State) : (loadFrame s).carry = s.carry := rfl
@[simp] theorem loadFrame_executedTotal (s : State) : (loadFrame s).executedTotal = s.executedTotal := rfl
@[simp] theorem loadFrame_rf (s : State) : (loadFrame s).rf = s.rf := rfl
@[simp] theorem loadFrame_aux (s : State) : (loadFrame s).aux = s.aux := rfl
@[simp] theorem loadFrame_phase (s : State) : (loadFrame s).phase = s.phase := rfl
@[simp] theorem loadFrame_seg (s : State) : (loadFrame s).seg = s.seg := rfl
@[simp] theorem loadFrame_setupDone (s : State) : (loadFrame s).setupDone = s.setupDone := rfl
@[simp] theorem loadFrame_hooks (s : State) : (loadFrame s).hooks = s.hooks := rfl
@[simp] theorem loadFrame_out (s : State) : (loadFrame s).out = s.out := rfl
@[simp] theorem loadFrame_raised (s : State) : (loadFrame s).raised = s.raised := rfl
@[simp] theorem loadFrame_pending (s : State) : (loadFrame s).pending = s.pending := rfl
@[simp] theorem loadFrame_inputs (s : State) : (loadFrame s).inputs = s.inputs := rfl
@[simp] theorem loadFrame_port (s : State) : (loadFrame s).port = s.port := rfl
@[simp] theorem loadFrame_driver (s : State) : (loadFrame s).driver = s.driver := rfl
@[simp] theorem loadFrame_answers (s : State) : (loadFrame s).answers = s.answers := rfl
@[simp] theorem loadFrame_draws (s : State) : (loadFrame s).draws = s.draws := rfl

/-! ### `openFrame` -/

@[simp] theorem openFrame_cfg (s : State) : (openFrame s).cfg = s.cfg := by unfold openFrame; dsimp only; split <;> simp
@[simp] theorem openFrame_cyclesPerFrame (s : State) : (openFrame s).cyclesPerFrame = s.cyclesPerFrame := by unfold openFrame; dsimp only; split <;> simp
@[simp] theorem openFrame_srcP (s : State) : (openFrame s).srcP = s.srcP := by unfold openFrame; dsimp only; split <;> simp
@[simp] theorem openFrame_srcS (s : State) : (openFrame s).srcS = s.srcS := by unfold openFrame; dsimp only; split <;> simp
@[simp] theorem openFrame_nextLine (s : State) : (openFrame s).nextLine = s.nextLine := by unfold openFrame; dsimp only; split <;> simp
@[simp] theorem openFrame_nextCycle (s : State) : (openFrame s).nextCycle = s.nextCycle := by unfold openFrame; dsimp only; split <;> simp
@[simp] theorem openFrame_irqCount (s : State) : (openFrame s).irqCount = s.irqCount := by unfold openFrame; dsimp only; split <;> simp
@[simp] theorem openFrame_snaps (s : State) : (openFrame s).snaps = s.snaps := by unfold openFrame; dsimp only; split <;> simp
@[simp] theorem openFrame_seg (s : State) : (openFrame s).seg = s.seg := by unfold openFrame; dsimp only; split <;> simp
@[simp] theorem openFrame_setupDone (s : State) : (openFrame s).setupDone = s.setupDone := by unfold openFrame; dsimp only; split <;> simp
@[simp] theorem openFrame_hooks (s : State) : (openFrame s).hooks = s.hooks := by unfold openFrame; dsimp only; split <;> simp
@[simp] theorem openFrame_raised (s : State) : (openFrame s).raised = s.raised := by unfold openFrame; dsimp only; split <;> simp
@[simp] theorem openFrame_port (s : State) : (openFrame s).port = s.port := by unfold openFrame; dsimp only; split <;> simp
@[simp] theorem openFrame_driver (s : State) : (openFrame s).driver = s.driver := by unfold openFrame; dsimp only; split <;> simp
@[simp] theorem openFrame_fills (s : State) : (openFrame s).fills = s.fills := by unfold openFrame; dsimp only; split <;> simp

/-! ### `storeWord` -/

@[simp] theorem storeWord_cfg (off : Nat) (w : Word) (s : State) : (storeWord off w s).cfg = s.cfg := by unfold storeWord; split <;> rfl
@[simp] theorem storeWord_cyclesPerFrame (off : Nat) (w : Word) (s : State) : (storeWord off w s).cyclesPerFrame = s.cyclesPerFrame := by unfold storeWord; split <;> rfl
@[simp] theorem storeWord_srcP (off : Nat) (w : Word) (s : State) : (storeWord off w s).srcP = s.srcP := by unfold storeWord; split <;> rfl
@[simp] theorem storeWord_srcS (off : Nat) (w : Word) (s : State) : (storeWord off w s).srcS = s.srcS := by unfold storeWord; split <;> rfl
@[simp] theorem storeWord_nextLine (off : Nat) (w : Word) (s : State) : (storeWord off w s).nextLine = s.nextLine := by unfold storeWord; split <;> rfl
@[simp] theorem storeWord_nextCycle (off : Nat) (w : Word) (s : State) : (storeWord off w s).nextCycle = s.nextCycle := by unfold storeWord; split <;> rfl
@[simp] theorem storeWord_irqCount (off : Nat) (w : Word) (s : State) : (storeWord off w s).irqCount = s.irqCount := by unfold storeWord; split <;> rfl
@[simp] theorem storeWord_carry (off : Nat) (w : Word) (s : State) : (storeWord off w s).carry = s.carry := by unfold storeWord; split <;> rfl
@[simp] theorem storeWord_snaps (off : Nat) (w : Word) (s : State) : (storeWord off w s).snaps = s.snaps := by unfold storeWord; split <;> rfl
@[simp] theorem storeWord_executedTotal (off : Nat) (w : Word) (s : State) : (storeWord off w s).executedTotal = s.executedTotal := by unfold storeWord; split <;> rfl
@[simp] theorem storeWord_aux (off : Nat) (w : Word) (s : State) : (storeWord off w s).aux = s.aux := by unfold storeWord; split <;> rfl
@[simp] theorem storeWord_phase (off : Nat) (w : Word) (s : State) : (storeWord off w s).phase = s.phase := by unfold storeWord; split <;> rfl
@[simp] theorem storeWord_seg (off : Nat) (w : Word) (s : State) : (storeWord off w s).seg = s.seg := by unfold storeWord; split <;> rfl
@[simp] theorem storeWord_setupDone (off : Nat) (w : Word) (s : State) : (storeWord off w s).setupDone = s.setupDone := by unfold storeWord; split <;> rfl
@[simp] theorem storeWord_hooks (off : Nat) (w : Word) (s : State) : (storeWord off w s).hooks = s.hooks := by unfold storeWord; split <;> rfl
@[simp] theorem storeWord_out (off : Nat) (w : Word) (s : State) : (storeWord off w s).out = s.out := by unfold storeWord; split <;> rfl
@[simp] theorem storeWord_raised (off : Nat) (w : Word) (s : State) : (storeWord off w s).raised = s.raised := by unfold storeWord; split <;> rfl
@[simp] theorem storeWord_pending (off : Nat) (w : Word) (s : State) : (storeWord off w s).pending = s.pending := by unfold storeWord; split <;> rfl
@[simp] theorem storeWord_inputs (off : Nat) (w : Word) (s : State) : (storeWord off w s).inputs = s.inputs := by unfold storeWord; split <;> rfl
@[simp] theorem storeWord_port (off : Nat) (w : Word) (s : State) : (storeWord off w s).port = s.port := by unfold storeWord; split <;> rfl
@[simp] theorem storeWord_driver (off : Nat) (w : Word) (s : State) : (storeWord off w s).driver = s.driver := by unfold storeWord; split <;> rfl
@[simp] theorem storeWord_answers (off : Nat) (w : Word) (s : State) : (storeWord off w s).answers = s.answers := by unfold storeWord; split <;> rfl
@[simp] theorem storeWord_draws (off : Nat) (w : Word) (s : State) : (storeWord off w s).draws = s.draws := by unfold storeWord; split <;> rfl
@[simp] theorem storeWord_fills (off : Nat) (w : Word) (s : State) : (storeWord off w s).fills = s.fills := by unfold storeWord; split <;> rfl

/-! ### `present` -/

@[simp] theorem present_cfg (bytes : List Byte) (s : State) : (present bytes s).cfg = s.cfg := rfl
@[simp] theorem present_cyclesPerFrame (bytes : List Byte) (s : State) : (present bytes s).cyclesPerFrame = s.cyclesPerFrame := rfl
@[simp] theorem present_srcP (bytes : List Byte) (s : State) : (present bytes s).srcP = s.srcP := rfl
@[simp] theorem present_srcS (bytes : List Byte) (s : State) : (present bytes s).srcS = s.srcS := rfl
@[simp] theorem present_nextLine (bytes : List Byte) (s : State) : (present bytes s).nextLine = s.nextLine := rfl
@[simp] theorem present_nextCycle (bytes : List Byte) (s : State) : (present bytes s).nextCycle = s.nextCycle := rfl
@[simp] theorem present_irqCount (bytes : List Byte) (s : State) : (present bytes s).irqCount = s.irqCount := rfl
@[simp] theorem present_carry (bytes : List Byte) (s : State) : (present bytes s).carry = s.carry := rfl
@[simp] theorem present_snaps (bytes : List Byte) (s : State) : (present bytes s).snaps = s.snaps := rfl
@[simp] theorem present_executedTotal (bytes : List Byte) (s : State) : (present bytes s).executedTotal = s.executedTotal := rfl
@[simp] theorem present_rf (bytes : List Byte) (s : State) : (present bytes s).rf = s.rf := rfl
@[simp] theorem present_aux (bytes : List Byte) (s : State) : (present bytes s).aux = s.aux := rfl
@[simp] theorem present_phase (bytes : List Byte) (s : State) : (present bytes s).phase = s.phase := rfl
@[simp] theorem present_seg (bytes : List Byte) (s : State) : (present bytes s).seg = s.seg := rfl
@[simp] theorem present_setupDone (bytes : List Byte) (s : State) : (present bytes s).setupDone = s.setupDone := rfl
@[simp] theorem present_hooks (bytes : List Byte) (s : State) : (present bytes s).hooks = s.hooks := rfl
@[simp] theorem present_out (bytes : List Byte) (s : State) : (present bytes s).out = s.out := rfl
@[simp] theorem present_raised (bytes : List Byte) (s : State) : (present bytes s).raised = s.raised := rfl
@[simp] theorem present_pending (bytes : List Byte) (s : State) : (present bytes s).pending = s.pending := rfl
@[simp] theorem present_inputs (bytes : List Byte) (s : State) : (present bytes s).inputs = s.inputs := rfl
@[simp] theorem present_driver (bytes : List Byte) (s : State) : (present bytes s).driver = s.driver := rfl
@[simp] theorem present_answers (bytes : List Byte) (s : State) : (present bytes s).answers = s.answers := rfl
@[simp] theorem present_draws (bytes : List Byte) (s : State) : (present bytes s).draws = s.draws := rfl
@[simp] theorem present_fills (bytes : List Byte) (s : State) : (present bytes s).fills = s.fills := rfl

end Sys2Proof.Machine
end

