-- ==== Sys2Proof/Laws/Ops.lean ====
section
/-! SUPPORT. For each shared operation, once, everything it can do. -/

namespace Sys2Proof.Machine

/-! ## Sequence -/

@[simp] theorem andThen_of_next (s : State) (f : State → Result) : andThen (.next s) f = f s := rfl

@[simp] theorem andThen_of_fault (x : Fault) (f : State → Result) : andThen (.fault x) f = .fault x := rfl

@[simp] theorem andThen_of_refused (x : Refusal) (f : State → Result) : andThen (.refused x) f = .refused x := rfl

theorem andThen_next {r : Result} {f : State → Result} {t : State} :
    andThen r f = .next t ↔ ∃ s, r = .next s ∧ f s = .next t := by
  cases r <;> simp

/-! ## The environment -/

@[simp] theorem emit_out (e : Event) (s : State) : (emit e s).out = s.out ++ [e] := rfl

@[simp] theorem answer_emit (e : Event) (s : State) : answer (emit e s) = answer s := rfl

theorem callHook_out (h : Hook) (s : State) :
    (callHook h s).out = s.out ++ if s.hooks.get h then [hookEvent h] else [] := by
  unfold callHook; split <;> simp [signal]

@[simp] theorem signal_out (e : Event) (s : State) : (signal e s).out = s.out ++ [e] := rfl

/-- What the processor reports lies within the contract (R170). -/
theorem reported_bounds (n : Int) (s : State) : n ≤ reported n s ∧ reported n s ≤ n + s.cfg.runOverMax := by
  unfold reported; omega

/-- A budget that is not positive does nothing (R170). -/
theorem run_of_nonpos {n : Int} (h : n ≤ 0) (s : State) : run n s = s := by simp [run, h]

/-- A positive budget: the two events, the reported cycles, the environment's move (R170). -/
theorem run_of_pos {n : Int} (h : 0 < n) (s : State) :
    run n s =
      { interleave s with
        executedTotal := s.executedTotal + reported n s
        out := s.out ++ [.runReq n, .runAck (reported n s)]
        pending := s.pending.filter fun level => !(answer s).taken.contains level } := by
  have h' : ¬n ≤ 0 := by omega
  simp only [run, h', if_false]
  simp [execute, interleave, emit, answer]

theorem run_executedTotal (n : Int) (s : State) :
    (run n s).executedTotal = s.executedTotal + if 0 < n then reported n s else 0 := by
  by_cases h : 0 < n
  · simp [run_of_pos h, h]
  · simp [run_of_nonpos (by omega : n ≤ 0), h]

/-- `Run` moves the account forward, by at least its budget and at most `RUN_OVER_MAX` more (R170). -/
theorem run_executedTotal_bounds (n : Int) (s : State) :
    s.executedTotal ≤ (run n s).executedTotal ∧ s.executedTotal + n ≤ (run n s).executedTotal ∧
      (run n s).executedTotal ≤ s.executedTotal + max 0 n + s.cfg.runOverMax := by
  have := reported_bounds n s
  rw [run_executedTotal]
  split <;> omega

/-! ## The snapshot store -/

@[simp] theorem clearSlots_length (c : Config) (fill i : Nat) (l : List Slot) :
    (clearSlots c fill i l).length = l.length := by
  induction l generalizing i with
  | nil => rfl
  | cons _ _ ih => simp [clearSlots, ih]

@[simp] theorem freshSlots_length (c : Config) (fill i count : Nat) : (freshSlots c fill i count).length = count := by
  induction count generalizing i with
  | zero => rfl
  | succ _ ih => simp [freshSlots, ih]

/-- Every slot is clear after the clear of phase 1 (R174). -/
theorem clearSlots_clear {c : Config} {fill i : Nat} {l : List Slot} {slot : Slot} (h : slot ∈ clearSlots c fill i l) :
    slot.rasterLine = 0 ∧ slot.populated = false ∧ SlotOk c slot := by
  induction l generalizing i with
  | nil => simp [clearSlots] at h
  | cons _ _ ih =>
    simp only [clearSlots, List.mem_cons] at h
    rcases h with rfl | h
    · exact ⟨rfl, rfl, (ImageOk.nil _).patch _, (ImageOk.nil _).patch _⟩
    · exact ih h

/-- A slot that has just come into existence has images in canonical form, and nothing else is known of it (R221). -/
theorem freshSlots_ok {c : Config} {fill i count : Nat} {slot : Slot} (h : slot ∈ freshSlots c fill i count) :
    SlotOk c slot := by
  induction count generalizing i with
  | zero => simp [freshSlots] at h
  | succ _ ih =>
    simp only [freshSlots, List.mem_cons] at h
    rcases h with rfl | h
    · exact ⟨(ImageOk.nil _).patch _, (ImageOk.nil _).patch _⟩
    · exact ih h

@[simp] theorem snapCopy_snaps_length (i : Nat) (s : State) : (snapCopy i s).snaps.length = s.snaps.length := by
  simp [snapCopy]

@[simp] theorem setRaster_snaps_length (i : Nat) (v : Int) (s : State) :
    (setRaster i v s).snaps.length = s.snaps.length := by
  simp [setRaster]

/-- `SnapCopy(i)` slot by slot (R65). -/
theorem snapCopy_getElem? (i j : Nat) (s : State) :
    (snapCopy i s).snaps[j]? =
      if i = j then (s.snaps[j]?).map fun slot => { slot with regCopy := s.rf, auxCopy := s.aux, populated := true }
      else s.snaps[j]? := by
  simp only [snapCopy, List.getElem?_modify]
  split <;> cases s.snaps[j]? <;> rfl

theorem setRaster_getElem? (i j : Nat) (v : Int) (s : State) :
    (setRaster i v s).snaps[j]? =
      if i = j then (s.snaps[j]?).map fun slot => { slot with rasterLine := v } else s.snaps[j]? := by
  simp only [setRaster, List.getElem?_modify]
  split <;> cases s.snaps[j]? <;> rfl

/-! ## `SCHED` and `DISPATCH` -/

theorem earliestLine_eq (s : State) : earliestLine s = min s.srcP.line s.srcS.line := by
  unfold earliestLine; split <;> omega

@[simp] theorem schedule_nextLine (s : State) : (schedule s).nextLine = min s.srcP.line s.srcS.line := earliestLine_eq s

@[simp] theorem schedule_nextCycle (s : State) :
    (schedule s).nextCycle = dueCycle s.cfg s.cyclesPerFrame (min s.srcP.line s.srcS.line) := by
  rw [← earliestLine_eq]; rfl

/-- Step a: it counts, or does nothing (R141). -/
theorem countInterrupt_next {due : Nat} {s t : State} :
    countInterrupt due s = .next t ↔
      (16 ≤ due ∧ s.irqCount < s.cfg.lastSlot ∧
        t = setRaster (s.irqCount + 1) (due - firstLine : Nat) { s with irqCount := s.irqCount + 1 }) ∨
      (due < 16 ∧ t = s) := by
  unfold countInterrupt
  by_cases h : 16 ≤ due
  · by_cases h' : s.irqCount < s.cfg.lastSlot <;> simp [counted, firstLine, h, h', eq_comm]
  · simp [counted, firstLine, h, eq_comm]; omega

/-- Step d: it copies or discards, in a slot of the store (R144). -/
theorem capture_next {s t : State} :
    capture s = .next t ↔ ∃ slot, s.snaps[s.irqCount]? = some slot ∧
      t = if inActive slot.rasterLine then snapCopy s.irqCount s else setRaster s.irqCount 0 s := by
  unfold capture
  cases h : s.snaps[s.irqCount]? with
  | none => simp
  | some slot => simp only [Host.Outcome.next.injEq, Option.some.injEq, exists_eq_left', eq_comm]

/-- `DISPATCH`: its seven steps, in order (R140). -/
theorem dispatch_next {s t : State} :
    dispatch s = .next t ↔ ∃ a d, countInterrupt s.nextLine s = .next a ∧ capture (interruptAndRun a) = .next d ∧
      t = forceProgress (schedule (rearmSources s.nextLine d)) := by
  unfold dispatch
  simp only [andThen_next, Host.Outcome.next.injEq]
  constructor
  · rintro ⟨a, ha, d, hd, rfl⟩; exact ⟨a, d, ha, hd, rfl⟩
  · rintro ⟨a, d, ha, hd, rfl⟩; exact ⟨a, ha, d, hd, rfl⟩

@[simp] theorem forceProgress_nextCycle (s : State) :
    (forceProgress s).nextCycle = max s.nextCycle (s.executedTotal + 1) := by
  unfold forceProgress; split <;> simp <;> omega

/-- Step e on one source (R145). -/
theorem rearm_line (c : Config) (due : Nat) (src : Source) :
    (rearm c due src).line =
      if src.autoRepeat then (if src.line = due then min (src.line + 32) c.scanlines else src.line)
      else if src.line ≤ due then c.scanlines else src.line := by
  unfold rearm clampLine repeatStride; split <;> split <;> rfl

@[simp] theorem rearm_autoRepeat (c : Config) (due : Nat) (src : Source) :
    (rearm c due src).autoRepeat = src.autoRepeat := by
  unfold rearm; split <;> split <;> rfl

@[simp] theorem rearm_enabled (c : Config) (due : Nat) (src : Source) : (rearm c due src).enabled = src.enabled := by
  unfold rearm; split <;> split <;> rfl

/-! ## Phase 6 -/

/-- One turn of a segment's loop (R184). -/
theorem runSegment_succ (b : Int) (fuel : Nat) (s : State) :
    runSegment b (fuel + 1) s =
      if dispatchOpen b s then andThen (dispatch (runTo s.nextCycle s)) (runSegment b fuel) else .next (runTo b s) := rfl

theorem dispatchOpen_iff (b : Int) (s : State) :
    dispatchOpen b s = true ↔ s.nextCycle < b ∧ s.irqCount < s.cfg.dispatchLimit := by
  simp [dispatchOpen]

/-! ## Full reset -/

/-- The events of full reset (R222). -/
theorem fullReset_out (s : State) :
    (fullReset s).out = s.out ++ [.ctxSelect, .cpuReset, .ctxRelease, .subsysReset] ++
      if s.hooks.postReset then [.hookPostReset] else [] := by
  simp only [fullReset, callHook_out, signal_out, emit_out, cpuReset, List.append_assoc, List.cons_append, List.nil_append]
  rfl

/-- Full reset clears the carry (R222). -/
@[simp] theorem fullReset_carry (s : State) : (fullReset s).carry = 0 := by simp [fullReset]

end Sys2Proof.Machine
end

