-- ==== Sys2Proof/Laws/Frames.lean ====
section
/-! SUPPORT. What each shared operation leaves alone: the frame of the environment's move, of `Run`, of full reset, of `DISPATCH` and
of a segment of phase 6; that each keeps the form of the stored data; and that the loop of a segment ends (R185). -/

namespace Sys2Proof.Machine

/-! ## Configuration -/

/-- R7's bounds on `SCANLINES`. -/
theorem Config.scanlines_bounds (c : Config) : 240 ≤ c.scanlines ∧ c.scanlines ≤ 511 := by
  have := c.blankLines.isLt
  unfold Config.scanlines
  omega

/-- The dispatch limit is a slot of the store (R7). -/
theorem Config.dispatchLimit_le_lastSlot (c : Config) : c.dispatchLimit ≤ c.lastSlot := by
  unfold Config.dispatchLimit Config.lastSlot
  omega

/-! ## `Run` and `RunTo` -/

/-- What `Run` leaves: the account, the trace, the pending levels, and what the environment moves, are all that may differ. -/
def RunOnly (s r : State) : Prop :=
  r = { s with
    executedTotal := r.executedTotal, out := r.out, pending := r.pending, rf := r.rf, aux := r.aux, inputs := r.inputs,
    answers := r.answers, draws := r.draws }

theorem run_only (n : Int) (s : State) : RunOnly s (run n s) := by
  unfold RunOnly run
  split <;> rfl

theorem runTo_only (t : Int) (s : State) : RunOnly s (runTo t s) := by
  unfold runTo
  split
  · exact run_only _ _
  · rfl

theorem RunOnly.cfg {s r : State} (h : RunOnly s r) : r.cfg = s.cfg := by rw [h]

theorem RunOnly.cpf {s r : State} (h : RunOnly s r) : r.cyclesPerFrame = s.cyclesPerFrame := by rw [h]

theorem RunOnly.snaps {s r : State} (h : RunOnly s r) : r.snaps = s.snaps := by rw [h]

theorem RunOnly.nextLine {s r : State} (h : RunOnly s r) : r.nextLine = s.nextLine := by rw [h]

theorem RunOnly.nextCycle {s r : State} (h : RunOnly s r) : r.nextCycle = s.nextCycle := by rw [h]

theorem RunOnly.irqCount {s r : State} (h : RunOnly s r) : r.irqCount = s.irqCount := by rw [h]

theorem RunOnly.srcP {s r : State} (h : RunOnly s r) : r.srcP = s.srcP := by rw [h]

theorem RunOnly.srcS {s r : State} (h : RunOnly s r) : r.srcS = s.srcS := by rw [h]

theorem RunOnly.phase {s r : State} (h : RunOnly s r) : r.phase = s.phase := by rw [h]

theorem RunOnly.seg {s r : State} (h : RunOnly s r) : r.seg = s.seg := by rw [h]

/-- `Run` only appends to the trace. -/
theorem run_out (n : Int) (s : State) : s.out <+: (run n s).out := by
  by_cases h : 0 < n
  · rw [run_of_pos h]; exact List.prefix_append _ _
  · rw [run_of_nonpos (by omega)]

theorem runTo_out (t : Int) (s : State) : s.out <+: (runTo t s).out := by
  unfold runTo
  split
  · exact run_out _ _
  · exact List.prefix_refl _

theorem runTo_executedTotal_mono (t : Int) (s : State) : s.executedTotal ≤ (runTo t s).executedTotal := by
  unfold runTo
  split
  · exact (run_executedTotal_bounds _ s).1
  · exact Int.le_refl _

/-- The phase registers pass through `RunTo` (R36). -/
theorem runTo_phase_seg (t : Int) (s : State) (p : Phase) (g : Seg) :
    runTo t { s with phase := p, seg := g } = { runTo t s with phase := p, seg := g } := by
  unfold runTo run
  dsimp only
  split
  · split <;> rfl
  · rfl

/-! ## Events and full reset -/

/-- What a callback's event leaves (R66, R225). -/
theorem callHook_only (h : Hook) (s : State) :
    callHook h s = { s with
      out := (callHook h s).out, rf := (callHook h s).rf, aux := (callHook h s).aux, inputs := (callHook h s).inputs,
      answers := (callHook h s).answers, draws := (callHook h s).draws } := by
  unfold callHook
  split <;> rfl

/-- What the audio subsystem's event leaves (R66, R173, R195). -/
theorem callAudio_only (e : Event) (s : State) :
    callAudio e s = { s with
      out := (callAudio e s).out, rf := (callAudio e s).rf, aux := (callAudio e s).aux, inputs := (callAudio e s).inputs,
      answers := (callAudio e s).answers, draws := (callAudio e s).draws } := by
  unfold callAudio
  split <;> rfl

theorem callAudio_out (e : Event) (s : State) :
    (callAudio e s).out = s.out ++ if s.inputs.audioDisable then [] else [e] := by
  unfold callAudio
  split <;> simp

/-- What full reset leaves (R222). -/
theorem fullReset_only (s : State) :
    fullReset s = { s with
      carry := 0, out := (fullReset s).out, rf := (fullReset s).rf, aux := (fullReset s).aux, inputs := (fullReset s).inputs,
      executedTotal := (fullReset s).executedTotal, pending := (fullReset s).pending, answers := (fullReset s).answers,
      draws := (fullReset s).draws } := by
  unfold fullReset callHook
  split <;> simp only [signal, emit, interleave, cpuReset, disableWords]

/-! ## `DISPATCH` -/

/-- Step g, as one update (R147). -/
theorem forceProgress_eq (s : State) : forceProgress s = { s with nextCycle := max s.nextCycle (s.executedTotal + 1) } := by
  unfold forceProgress
  split
  · rw [max_eq_right (by omega)]
  · rw [max_eq_left (by omega)]

/-- What `DISPATCH` leaves, and what it does to the lines, the schedule and the account (R140). -/
structure DispatchOnly (s t : State) : Prop where
  cfg : t.cfg = s.cfg
  cpf : t.cyclesPerFrame = s.cyclesPerFrame
  carry : t.carry = s.carry
  setupDone : t.setupDone = s.setupDone
  hooks : t.hooks = s.hooks
  raised : t.raised = s.raised
  port : t.port = s.port
  driver : t.driver = s.driver
  fills : t.fills = s.fills
  phase : t.phase = s.phase
  seg : t.seg = s.seg
  autoP : t.srcP.autoRepeat = s.srcP.autoRepeat
  enP : t.srcP.enabled = s.srcP.enabled
  autoS : t.srcS.autoRepeat = s.srcS.autoRepeat
  enS : t.srcS.enabled = s.srcS.enabled
  len : t.snaps.length = s.snaps.length
  slots : ∀ i, i < s.irqCount ∨ t.irqCount < i → t.snaps[i]? = s.snaps[i]?
  out : s.out <+: t.out
  irq : t.irqCount = if 16 ≤ s.nextLine then s.irqCount + 1 else s.irqCount
  nextLine : t.nextLine = min t.srcP.line t.srcS.line
  lineP : t.srcP.line = (rearm s.cfg s.nextLine s.srcP).line
  lineS : t.srcS.line = (rearm s.cfg s.nextLine s.srcS).line
  nextCycle : t.nextCycle = max (dueCycle s.cfg s.cyclesPerFrame t.nextLine : Int) (t.executedTotal + 1)
  exe : s.executedTotal ≤ t.executedTotal
  exe2 : t.executedTotal ≤ s.executedTotal + cyclesPerLine s.cfg s.cyclesPerFrame + s.cfg.runOverMax

/-- A dispatch that answers a next state leaves just this. -/
theorem dispatch_only {s t : State} (h : dispatch s = .next t) : DispatchOnly s t := by
  obtain ⟨a, d, ha, hd, rfl⟩ := dispatch_next.1 h
  rw [forceProgress_eq]
  have hi : RunOnly (irqAssert a.cfg.beamIrqLevel a) (interruptAndRun a) := run_only _ _
  have hb := run_executedTotal_bounds (cyclesPerLine a.cfg a.cyclesPerFrame) (irqAssert a.cfg.beamIrqLevel a)
  have ho : a.out <+: (interruptAndRun a).out := by
    have h5 := run_out (cyclesPerLine a.cfg a.cyclesPerFrame) (irqAssert a.cfg.beamIrqLevel a)
    exact (List.prefix_append a.out [.irqAssert a.cfg.beamIrqLevel]).trans h5
  have hae : a = { s with irqCount := a.irqCount, snaps := a.snaps } ∧
      a.irqCount = (if 16 ≤ s.nextLine then s.irqCount + 1 else s.irqCount) ∧ a.snaps.length = s.snaps.length ∧
      (∀ i, i ≠ a.irqCount → a.snaps[i]? = s.snaps[i]?) := by
    rcases countInterrupt_next.1 ha with ⟨h1, h2, rfl⟩ | ⟨h1, rfl⟩
    · refine ⟨rfl, by simp [h1, setRaster], by simp, fun i hi => ?_⟩
      rw [setRaster_getElem?, if_neg (by simpa [setRaster] using Ne.symm hi)]
    · refine ⟨rfl, by rw [if_neg (by omega)], rfl, fun _ _ => rfl⟩
  obtain ⟨slot, hslot, hdd⟩ := capture_next.1 hd
  have hda : d = { interruptAndRun a with snaps := d.snaps } ∧ d.snaps.length = a.snaps.length ∧
      (∀ i, i ≠ a.irqCount → d.snaps[i]? = a.snaps[i]?) := by
    have e1 : (interruptAndRun a).snaps = a.snaps := hi.snaps
    have e2 : (interruptAndRun a).irqCount = a.irqCount := hi.irqCount
    rw [hdd]; split
    · refine ⟨rfl, by simp, fun i hi => ?_⟩
      rw [snapCopy_getElem?, if_neg (by rw [e2]; exact Ne.symm hi), e1]
    · refine ⟨rfl, by simp, fun i hi => ?_⟩
      rw [setRaster_getElem?, if_neg (by rw [e2]; exact Ne.symm hi), e1]
  obtain ⟨ha1, ha2, ha3, ha4⟩ := hae
  obtain ⟨hd1, hd2, hd3⟩ := hda
  clear hdd ha hd h
  have acfg : a.cfg = s.cfg := by rw [ha1]
  have acpf : a.cyclesPerFrame = s.cyclesPerFrame := by rw [ha1]
  have dcfg : d.cfg = s.cfg := by rw [hd1]; exact hi.cfg.trans acfg
  have dcpf : d.cyclesPerFrame = s.cyclesPerFrame := by rw [hd1]; exact hi.cpf.trans acpf
  have dP : d.srcP = s.srcP := by rw [hd1]; refine hi.srcP.trans ?_; show a.srcP = _; rw [ha1]
  have dS : d.srcS = s.srcS := by rw [hd1]; refine hi.srcS.trans ?_; show a.srcS = _; rw [ha1]
  have dirq : d.irqCount = a.irqCount := by rw [hd1]; exact hi.irqCount
  have dex : d.executedTotal = (interruptAndRun a).executedTotal := by rw [hd1]
  have aex : (irqAssert a.cfg.beamIrqLevel a).executedTotal = s.executedTotal := by show a.executedTotal = _; rw [ha1]
  have dfr : ∀ {α : Type} (f : State → α), (∀ (x : State) l, f { x with snaps := l } = f x) →
      (∀ (x : State) k l, f { x with irqCount := k, snaps := l } = f x) →
      (∀ x l, f (irqAssert l x) = f x) → (∀ x r, RunOnly x r → f r = f x) → f d = f s := by
    intro α f h1 h2 h3 h4
    rw [hd1, h1, h4 _ _ hi, h3, ha1, h2]
  refine
   { cfg := dcfg, cpf := dcpf
     carry := dfr (·.carry) (fun _ _ => rfl) (fun _ _ _ => rfl) (fun _ _ => rfl) (fun x r h => by rw [h])
     setupDone := dfr (·.setupDone) (fun _ _ => rfl) (fun _ _ _ => rfl) (fun _ _ => rfl) (fun x r h => by rw [h])
     hooks := dfr (·.hooks) (fun _ _ => rfl) (fun _ _ _ => rfl) (fun _ _ => rfl) (fun x r h => by rw [h])
     raised := dfr (·.raised) (fun _ _ => rfl) (fun _ _ _ => rfl) (fun _ _ => rfl) (fun x r h => by rw [h])
     port := dfr (·.port) (fun _ _ => rfl) (fun _ _ _ => rfl) (fun _ _ => rfl) (fun x r h => by rw [h])
     driver := dfr (·.driver) (fun _ _ => rfl) (fun _ _ _ => rfl) (fun _ _ => rfl) (fun x r h => by rw [h])
     fills := dfr (·.fills) (fun _ _ => rfl) (fun _ _ _ => rfl) (fun _ _ => rfl) (fun x r h => by rw [h])
     phase := dfr (·.phase) (fun _ _ => rfl) (fun _ _ _ => rfl) (fun _ _ => rfl) (fun x r h => by rw [h])
     seg := dfr (·.seg) (fun _ _ => rfl) (fun _ _ _ => rfl) (fun _ _ => rfl) (fun x r h => by rw [h])
     autoP := ?_, enP := ?_, autoS := ?_, enS := ?_, len := ?_, slots := ?_, out := ?_, irq := ?_, nextLine := ?_
     lineP := ?_, lineS := ?_, nextCycle := ?_, exe := ?_, exe2 := ?_ }
  · show (rearm d.cfg s.nextLine d.srcP).autoRepeat = _; rw [rearm_autoRepeat, dP]
  · show (rearm d.cfg s.nextLine d.srcP).enabled = _; rw [rearm_enabled, dP]
  · show (rearm d.cfg s.nextLine d.srcS).autoRepeat = _; rw [rearm_autoRepeat, dS]
  · show (rearm d.cfg s.nextLine d.srcS).enabled = _; rw [rearm_enabled, dS]
  · exact hd2.trans ha3
  · intro i hii
    have : i ≠ a.irqCount := by
      change i < s.irqCount ∨ d.irqCount < i at hii
      rw [dirq] at hii
      rw [ha2] at hii ⊢
      split at hii <;> split <;> omega
    exact (hd3 i this).trans (ha4 i this)
  · show s.out <+: d.out
    have : d.out = (interruptAndRun a).out := by rw [hd1]
    rw [this]
    have : a.out = s.out := by rw [ha1]
    rw [← this]; exact ho
  · exact dirq.trans ha2
  · exact earliestLine_eq _
  · show (rearm d.cfg s.nextLine d.srcP).line = _; rw [dP, dcfg]
  · show (rearm d.cfg s.nextLine d.srcS).line = _; rw [dS, dcfg]
  · show max (dueCycle d.cfg d.cyclesPerFrame _ : Int) (d.executedTotal + 1) = _
    rw [dcfg, dcpf]; rfl
  · show _ ≤ d.executedTotal
    rw [dex, ← aex]; exact hb.1
  · show d.executedTotal ≤ _
    rw [dex, ← aex]
    have h3 := hb.2.2
    have : (irqAssert a.cfg.beamIrqLevel a).cfg = s.cfg := acfg
    rw [this, acfg, acpf] at h3
    have h4 : interruptAndRun a = run (cyclesPerLine s.cfg s.cyclesPerFrame : Nat) (irqAssert s.cfg.beamIrqLevel a) := by
      unfold interruptAndRun; rw [acfg, acpf]
    rw [h4, acfg]
    omega

/-! ## A segment of phase 6 -/

/-- What a segment of phase 6 leaves (R184). -/
structure SegmentOnly (s t : State) : Prop where
  cfg : t.cfg = s.cfg
  cpf : t.cyclesPerFrame = s.cyclesPerFrame
  carry : t.carry = s.carry
  setupDone : t.setupDone = s.setupDone
  hooks : t.hooks = s.hooks
  raised : t.raised = s.raised
  port : t.port = s.port
  driver : t.driver = s.driver
  fills : t.fills = s.fills
  phase : t.phase = s.phase
  seg : t.seg = s.seg
  autoP : t.srcP.autoRepeat = s.srcP.autoRepeat
  enP : t.srcP.enabled = s.srcP.enabled
  autoS : t.srcS.autoRepeat = s.srcS.autoRepeat
  enS : t.srcS.enabled = s.srcS.enabled
  len : t.snaps.length = s.snaps.length
  slots : ∀ i, i < s.irqCount ∨ t.irqCount < i → t.snaps[i]? = s.snaps[i]?
  out : s.out <+: t.out
  irq : s.irqCount ≤ t.irqCount
  exe : s.executedTotal ≤ t.executedTotal

theorem SegmentOnly.of_runTo {s t : State} (n : Int) (h : SegmentOnly (runTo n s) t) : SegmentOnly s t := by
  have r := runTo_only n s
  have ee := runTo_executedTotal_mono n s
  refine ⟨h.cfg.trans r.cfg, h.cpf.trans r.cpf, h.carry.trans ?_, h.setupDone.trans ?_, h.hooks.trans ?_, h.raised.trans ?_,
    h.port.trans ?_, h.driver.trans ?_, h.fills.trans ?_, h.phase.trans r.phase, h.seg.trans r.seg, h.autoP.trans ?_,
    h.enP.trans ?_, h.autoS.trans ?_, h.enS.trans ?_, h.len.trans ?_, ?_, (runTo_out n s).trans h.out, ?_, ?_⟩
  any_goals (rw [r])
  · intro i hi; rw [h.slots i (by rw [r.irqCount]; exact hi), r.snaps]
  · have := h.irq; rw [r.irqCount] at this; exact this
  · have := h.exe; omega

theorem SegmentOnly.refl (s : State) : SegmentOnly s s := by
  constructor <;> first | rfl | exact fun _ _ => rfl

theorem SegmentOnly.of_dispatch {s u t : State} (d : DispatchOnly s u) (h : SegmentOnly u t) : SegmentOnly s t := by
  have hi : s.irqCount ≤ u.irqCount := by rw [d.irq]; split <;> omega
  refine ⟨h.cfg.trans d.cfg, h.cpf.trans d.cpf, h.carry.trans d.carry, h.setupDone.trans d.setupDone,
    h.hooks.trans d.hooks, h.raised.trans d.raised, h.port.trans d.port, h.driver.trans d.driver, h.fills.trans d.fills,
    h.phase.trans d.phase, h.seg.trans d.seg, h.autoP.trans d.autoP, h.enP.trans d.enP,
    h.autoS.trans d.autoS, h.enS.trans d.enS, h.len.trans d.len, ?_, d.out.trans h.out, hi.trans h.irq, d.exe.trans h.exe⟩
  intro i hii
  rw [h.slots i (by omega), d.slots i (by have := h.irq; omega)]

/-- A segment that answers a next state leaves just this. -/
theorem runSegment_only {b : Int} {f : Nat} : ∀ {s t : State}, runSegment b f s = .next t → SegmentOnly s t := by
  induction f with
  | zero => intro s t h; cases h
  | succ f ih =>
    intro s t h
    rw [runSegment_succ] at h
    split at h
    · obtain ⟨u, hu, h⟩ := andThen_next.1 h
      exact ((ih h).of_dispatch (dispatch_only hu)).of_runTo
    · cases h; exact (SegmentOnly.refl _).of_runTo

/-- A dispatch completes where the counter stands below the last slot of the store (R141). -/
theorem dispatch_total {s : State} (hc : s.snaps.length = s.cfg.capacity) (hi : s.irqCount < s.cfg.lastSlot) :
    ∃ t, dispatch s = .next t := by
  have hcap : s.cfg.capacity = s.cfg.lastSlot + 1 := rfl
  obtain ⟨a, ha, hl, hk⟩ : ∃ a, countInterrupt s.nextLine s = .next a ∧ a.snaps.length = s.snaps.length ∧
      a.irqCount ≤ s.irqCount + 1 := by
    by_cases h : 16 ≤ s.nextLine
    · exact ⟨_, countInterrupt_next.2 (.inl ⟨h, hi, rfl⟩), by simp, by simp [setRaster]⟩
    · exact ⟨s, countInterrupt_next.2 (.inr ⟨by omega, rfl⟩), rfl, by omega⟩
  have r : RunOnly (irqAssert a.cfg.beamIrqLevel a) (interruptAndRun a) := run_only _ _
  have e1 : (interruptAndRun a).snaps = a.snaps := r.snaps
  have e2 : (interruptAndRun a).irqCount = a.irqCount := r.irqCount
  have hlt : (interruptAndRun a).irqCount < (interruptAndRun a).snaps.length := by rw [e1, e2]; omega
  exact ⟨_, dispatch_next.2 ⟨a, _, ha, capture_next.2 ⟨_, List.getElem?_eq_getElem hlt, rfl⟩, rfl⟩⟩

/-- What each iteration of a segment makes smaller (R185): the room left, and, where the schedule is that of the sources, the
lines before `FIRST_LINE` that are left. -/
def segmentMeasure (s : State) : Nat :=
  (s.cfg.dispatchLimit - s.irqCount) + (if s.nextLine = min s.srcP.line s.srcS.line then 16 - s.nextLine else 17)

theorem segmentMeasure_lt_fuel (s : State) : segmentMeasure s < segmentFuel s.cfg := by
  unfold segmentMeasure segmentFuel firstLine
  split <;> omega

/-- Where there is room in the store, an iteration of a segment completes and makes the measure smaller (R184, R185). -/
theorem segment_iteration {s : State} (hi : s.irqCount < s.cfg.dispatchLimit) (hc : s.snaps.length = s.cfg.capacity) :
    ∃ u, dispatch (runTo s.nextCycle s) = .next u ∧ u.snaps.length = u.cfg.capacity ∧ segmentMeasure u < segmentMeasure s := by
  have r := runTo_only s.nextCycle s
  have hll := Config.dispatchLimit_le_lastSlot s.cfg
  obtain ⟨u, hu⟩ := dispatch_total (s := runTo s.nextCycle s) (by rw [r.snaps, r.cfg]; exact hc)
    (by rw [r.irqCount, r.cfg]; omega)
  have d := dispatch_only hu
  have ucfg : u.cfg = s.cfg := d.cfg.trans r.cfg
  have ui := d.irq
  have hP := d.lineP
  have hS := d.lineS
  have hn := d.nextLine
  have hsc := Config.scanlines_bounds s.cfg
  rw [r.irqCount, r.nextLine] at ui
  rw [rearm_line, r.srcP, r.cfg, r.nextLine] at hP
  rw [rearm_line, r.srcS, r.cfg, r.nextLine] at hS
  refine ⟨u, hu, by rw [d.len, r.snaps, hc, ucfg], ?_⟩
  unfold segmentMeasure
  rw [ucfg, if_pos hn, ui]
  by_cases hsched : s.nextLine = min s.srcP.line s.srcS.line
  · rw [if_pos hsched]
    -- A line of the schedule is followed by a later one.
    have hlater : s.nextLine < u.nextLine ∨ 240 ≤ u.nextLine := by
      rw [hn, hP, hS]
      split <;> split <;> split <;> (try split) <;> omega
    split <;> omega
  · rw [if_neg hsched]
    split <;> omega

/-- The loop of a segment does not depend on its fuel, once there is enough of it. -/
theorem runSegment_fuel {b : Int} : ∀ (f g : Nat) {s : State}, s.snaps.length = s.cfg.capacity →
    segmentMeasure s < f → segmentMeasure s < g → runSegment b f s = runSegment b g s := by
  intro f
  induction f with
  | zero => intro g s _ h; omega
  | succ f ih =>
    intro g s hc hf hg
    obtain ⟨g, rfl⟩ : ∃ g', g = g' + 1 := ⟨g - 1, by omega⟩
    rw [runSegment_succ, runSegment_succ]
    by_cases ho : dispatchOpen b s = true
    · rw [if_pos ho, if_pos ho]
      obtain ⟨u, hu, hl, hm⟩ := segment_iteration ((dispatchOpen_iff b s).1 ho).2 hc
      rw [hu, andThen_of_next, andThen_of_next]
      exact ih g hl (by omega) (by omega)
    · rw [if_neg ho, if_neg ho]

/-! ## The form of the stored data -/

theorem stored_interleave {s : State} (h : Stored s) : Stored (interleave s) :=
  ⟨h.capacity, h.rf.patch _, h.aux.patch _, h.slots⟩

theorem stored_emit {s : State} (e) (h : Stored s) : Stored (emit e s) := ⟨h.capacity, h.rf, h.aux, h.slots⟩

theorem stored_signal {s : State} (e) (h : Stored s) : Stored (signal e s) := stored_interleave (stored_emit e h)

theorem stored_callHook {s : State} (k) (h : Stored s) : Stored (callHook k s) := by
  unfold callHook
  split
  · exact stored_signal _ h
  · exact h

theorem stored_run {s : State} (n) (h : Stored s) : Stored (run n s) := by
  by_cases hn : 0 < n
  · rw [run_of_pos hn]; exact ⟨h.capacity, h.rf.patch _, h.aux.patch _, h.slots⟩
  · rw [run_of_nonpos (by omega)]; exact h

theorem stored_runTo {s : State} (n) (h : Stored s) : Stored (runTo n s) := by
  unfold runTo
  split
  · exact stored_run _ h
  · exact h

theorem mem_modify_slot {l : List Slot} {i : Nat} {f : Slot → Slot} {x : Slot} (h : x ∈ l.modify i f) :
    x ∈ l ∨ ∃ y ∈ l, x = f y := by
  rw [List.mem_iff_getElem?] at h
  obtain ⟨j, hj⟩ := h
  rw [List.getElem?_modify] at hj
  cases hl : l[j]? with
  | none => rw [hl] at hj; split at hj <;> simp at hj
  | some y =>
    rw [hl] at hj
    have := List.mem_of_getElem? hl
    split at hj
    · simp at hj; exact .inr ⟨y, this, hj.symm⟩
    · simp at hj; exact .inl (hj ▸ this)

theorem stored_snapCopy {s : State} (i) (h : Stored s) : Stored (snapCopy i s) := by
  refine ⟨by rw [snapCopy_snaps_length]; exact h.capacity, h.rf, h.aux, fun x hx => ?_⟩
  rcases mem_modify_slot hx with hx | ⟨y, hy, rfl⟩
  · exact h.slots x hx
  · exact ⟨h.rf, h.aux⟩

theorem stored_setRaster {s : State} (i v) (h : Stored s) : Stored (setRaster i v s) := by
  refine ⟨by rw [setRaster_snaps_length]; exact h.capacity, h.rf, h.aux, fun x hx => ?_⟩
  rcases mem_modify_slot hx with hx | ⟨y, hy, rfl⟩
  · exact h.slots x hx
  · exact ⟨(h.slots y hy).1, (h.slots y hy).2⟩

theorem stored_schedule {s : State} (h : Stored s) : Stored (schedule s) := ⟨h.capacity, h.rf, h.aux, h.slots⟩

theorem stored_dispatch {s t : State} (h : Stored s) (hd : dispatch s = .next t) : Stored t := by
  obtain ⟨a, d, ha, hd', rfl⟩ := dispatch_next.1 hd
  have h1 : Stored a := by
    rcases countInterrupt_next.1 ha with ⟨h1, h2, rfl⟩ | ⟨h1, rfl⟩
    · exact stored_setRaster _ _ ⟨h.capacity, h.rf, h.aux, h.slots⟩
    · exact h
  have h2 : Stored (interruptAndRun a) := stored_run _ ⟨h1.capacity, h1.rf, h1.aux, h1.slots⟩
  obtain ⟨slot, _, rfl⟩ := capture_next.1 hd'
  rw [forceProgress_eq]
  have h3 : Stored (if inActive slot.rasterLine = true then snapCopy (interruptAndRun a).irqCount (interruptAndRun a)
        else setRaster (interruptAndRun a).irqCount 0 (interruptAndRun a)) := by
    split; exact stored_snapCopy _ h2; exact stored_setRaster _ _ h2
  exact ⟨h3.capacity, h3.rf, h3.aux, h3.slots⟩

theorem stored_fullReset {s : State} (h : Stored s) : Stored (fullReset s) := by
  have e : s.cfg.regfileBytes ≥ 0x54 := by unfold Config.regfileBytes; omega
  apply stored_callHook; apply stored_signal; apply stored_emit
  have : Stored (signal .cpuReset (emit .ctxSelect { disableWords s with carry := 0 })) := by
    apply stored_signal; apply stored_emit
    refine ⟨h.capacity, ?_, h.aux, h.slots⟩
    refine ImageOk.write16 _ ?_ (ImageOk.write16 _ ?_ (ImageOk.write16 _ ?_ h.rf)) <;>
      (show _ < s.cfg.regfileBytes; simp only [offCtrl, offTrigP, offTrigS]; omega)
  exact ⟨this.capacity, this.rf, this.aux, this.slots⟩

theorem stored_unspecify (s : State) (c) : Stored (unspecify c s) :=
  ⟨by simp [unspecify], (ImageOk.nil _).patch _, (ImageOk.nil _).patch _, fun _ h => freshSlots_ok h⟩

theorem stored_callAudio {s : State} (e) (h : Stored s) : Stored (callAudio e s) := by
  unfold callAudio
  split
  · exact h
  · exact stored_signal _ h

theorem stored_openFrame {s : State} (h : Stored s) : Stored (openFrame s) := by
  unfold openFrame
  apply stored_callHook; apply stored_callAudio
  have : ∀ x : State, Stored x → Stored { emit .cpuBeginFrame (emit .ctxSelect x) with executedTotal := 0 } :=
    fun x h => ⟨h.capacity, h.rf, h.aux, h.slots⟩
  apply this
  have h0 : Stored { s with phase := .setupFrame } := ⟨h.capacity, h.rf, h.aux, h.slots⟩
  dsimp only
  split
  · exact stored_fullReset h0
  · exact h0

end Sys2Proof.Machine
end

