-- ==== Sys2Proof/Laws/PerInstr.lean ====
section
/-! SUPPORT. Statements about every instruction as syntax, one lemma for each constructor. -/

namespace Sys2Proof.Laws

/-- Exactly the codes from 0x18 on are for agents outside the block: the lifecycle commands of R100's table, and the offsets of
the register words. -/
def CommandCode.Statement (i : Instr) : Prop :=
  ∃ (b : Byte) (rest : List Byte), encode i = b :: rest ∧ (i.isCommand = true ↔ 0x18 ≤ b.toNat)

theorem CommandCode.idle : CommandCode.Statement .idle := ⟨_, _, rfl, by decide⟩

theorem CommandCode.setupFrame : CommandCode.Statement .setupFrame := ⟨_, _, rfl, by decide⟩

theorem CommandCode.catchup : CommandCode.Statement .catchup := ⟨_, _, rfl, by decide⟩

theorem CommandCode.leadin : CommandCode.Statement .leadin := ⟨_, _, rfl, by decide⟩

theorem CommandCode.basesnap : CommandCode.Statement .basesnap := ⟨_, _, rfl, by decide⟩

theorem CommandCode.lateguard : CommandCode.Statement .lateguard := ⟨_, _, rfl, by decide⟩

theorem CommandCode.active : CommandCode.Statement .active := ⟨_, _, rfl, by decide⟩

theorem CommandCode.objcap : CommandCode.Statement .objcap := ⟨_, _, rfl, by decide⟩

theorem CommandCode.vblank : CommandCode.Statement .vblank := ⟨_, _, rfl, by decide⟩

theorem CommandCode.drain : CommandCode.Statement .drain := ⟨_, _, rfl, by decide⟩

theorem CommandCode.drift : CommandCode.Statement .drift := ⟨_, _, rfl, by decide⟩

theorem CommandCode.frameend : CommandCode.Statement .frameend := ⟨_, _, rfl, by decide⟩

theorem CommandCode.sched : CommandCode.Statement .sched := ⟨_, _, rfl, by decide⟩

theorem CommandCode.dispatch : CommandCode.Statement .dispatch := ⟨_, _, rfl, by decide⟩

theorem CommandCode.run (n : Int) : CommandCode.Statement (.run n) := ⟨_, _, rfl, by simp [Instr.isCommand]⟩

theorem CommandCode.idlecyc (n : Int) : CommandCode.Statement (.idlecyc n) := ⟨_, _, rfl, by simp [Instr.isCommand]⟩

theorem CommandCode.snapcopy (i : Nat) : CommandCode.Statement (.snapcopy i) := ⟨_, _, rfl, by simp [Instr.isCommand]⟩

theorem CommandCode.setup : CommandCode.Statement .setup := ⟨_, _, rfl, by decide⟩

theorem CommandCode.fullreset : CommandCode.Statement .fullreset := ⟨_, _, rfl, by decide⟩

theorem CommandCode.teardown : CommandCode.Statement .teardown := ⟨_, _, rfl, by decide⟩

theorem CommandCode.hookreg (h : Hook) (present : Bool) : CommandCode.Statement (.hookreg h present) := ⟨_, _, rfl, by simp [Instr.isCommand]⟩

theorem CommandCode.ctrl (w : Word) : CommandCode.Statement (.ctrl w) := ⟨_, _, rfl, by simp [Instr.isCommand]⟩

theorem CommandCode.trigP (w : Word) : CommandCode.Statement (.trigP w) := ⟨_, _, rfl, by simp [Instr.isCommand]⟩

theorem CommandCode.trigS (w : Word) : CommandCode.Statement (.trigS w) := ⟨_, _, rfl, by simp [Instr.isCommand]⟩

end Sys2Proof.Laws
end

