-- ==== Sys2Proof/Tests/Slice0.lean ====
section
/-! SUPPORT. The model's own tests. Every expected value is a vector of 95_test_vectors.md (V…, Program …), an example of a rule
(R…), or worked out by hand from the rule named. A `witness_…` theorem shows that the hypotheses of the obligation of that name
can be met, clause by clause. -/

namespace Sys2Proof.Tests

open Sys2Proof.Machine

/-! ## Helpers -/

/-- The configuration of the vectors: `SCANLINES` 259, `MAX_RASTER` 10 (an example value), the levels 4 and 2 and 0x100 bytes of
register file (example values), an exact processor. -/
def vectors : Config :=
  { blankLines := 19, maxRaster := 10, regfileExtra := 0xAC, beamIrqLevel := 4, vblankIrqLevel := 2, runOverMax := 0
    limitCut := 0 }

/-- The register file with the three words of a vector. -/
def words (ctrl p s : Word) : Memory := ((Memory.write16 [] 0x4E ctrl).write16 0x50 p).write16 0x52 s

/-- A state of the vectors: `cyclesPerFrame` 259000, an environment that answers every budget exactly and stores nothing. -/
def base : State :=
  { State.reset with
    cfg := vectors
    cyclesPerFrame := 259000
    snaps := List.replicate 12 {}
    inputs := { clock := 259000 }
    setupDone := true
    answers := List.replicate 40 {} }

/-- A single-shot source on a line. -/
def single (line : Nat) : Source := { autoRepeat := false, line := line, enabled := true }

/-- An auto-repeat source on a line. -/
def repeating (line : Nat) : Source := { autoRepeat := true, line := line, enabled := true }

/-- The outcome is a next state that meets a check. -/
def yields (r : Result) (p : State → Bool) : Bool :=
  match r with
  | .next t => p t
  | .fault _ => false
  | .refused _ => false

theorem exists_of_yields {r : Result} {p : State → Bool} (h : yields r p = true) : ∃ t, r = .next t ∧ p t = true := by
  cases r with
  | next t => exact ⟨t, rfl, h⟩
  | fault _ => exact absurd h (by simp [yields])
  | refused _ => exact absurd h (by simp [yields])

/-- `rasterLine` and `populated` of a slot. -/
def slotAt (s : State) (i : Nat) : Option (Int × Bool) := (s.snaps[i]?).map fun slot => (slot.rasterLine, slot.populated)

/-! ## The checks of WellFormed refuse -/

/-- R7's constraint column at its bounds, all accepted. -/
theorem test_params_accepts_the_bounds :
    (Params.toConfig { scanlines := 240, maxRaster := 0, regfileBytes := 0x54, beamIrqLevel := 4, vblankIrqLevel := 2,
                       runOverMax := 0 }).isSome = true ∧
    (Params.toConfig { scanlines := 511, maxRaster := 10, regfileBytes := 0x54, beamIrqLevel := 4, vblankIrqLevel := 2,
                       runOverMax := 0, dispatchLimit := 0 }).isSome = true := by decide

theorem test_params_refuses_239_scanlines :
    Params.toConfig { scanlines := 239, maxRaster := 10, regfileBytes := 0x100, beamIrqLevel := 4, vblankIrqLevel := 2,
                      runOverMax := 0 } = none := by decide

theorem test_params_refuses_512_scanlines :
    Params.toConfig { scanlines := 512, maxRaster := 10, regfileBytes := 0x100, beamIrqLevel := 4, vblankIrqLevel := 2,
                      runOverMax := 0 } = none := by decide

theorem test_params_refuses_a_register_file_of_0x53 :
    Params.toConfig { maxRaster := 10, regfileBytes := 0x53, beamIrqLevel := 4, vblankIrqLevel := 2, runOverMax := 0 } =
      none := by decide

theorem test_params_refuses_a_limit_past_the_store :
    Params.toConfig { maxRaster := 10, regfileBytes := 0x100, beamIrqLevel := 4, vblankIrqLevel := 2, runOverMax := 0
                      dispatchLimit := 12 } = none := by decide

theorem test_wellFormed_refuses_a_slot_past_the_store :
    (Instr.snapcopy 11).wellFormed vectors = true ∧ (Instr.snapcopy 12).wellFormed vectors = false := by decide

/-! ## Decoding: words written out from R100's codes and R91's and R92's fields -/

/-- The codes of the phases, R100's table. -/
theorem test_decode_phases :
    decode [0x00] = .ok (.idle, []) ∧ decode [0x01] = .ok (.setupFrame, []) ∧ decode [0x02] = .ok (.catchup, []) ∧
    decode [0x03] = .ok (.leadin, []) ∧ decode [0x04] = .ok (.basesnap, []) ∧ decode [0x05] = .ok (.lateguard, []) ∧
    decode [0x06] = .ok (.active, []) ∧ decode [0x07] = .ok (.objcap, []) ∧ decode [0x08] = .ok (.vblank, []) ∧
    decode [0x09] = .ok (.drain, []) ∧ decode [0x0A] = .ok (.drift, []) ∧ decode [0x0B] = .ok (.frameend, []) := by
  refine ⟨rfl, rfl, rfl, rfl, rfl, rfl, rfl, rfl, rfl, rfl, rfl, rfl⟩

/-- The codes of the sub-operations and primitives, R100's table; the operands in the layout of log entry 3: the count 0x40 is 64
zigzag, that is 32, the count -1 is 1 zigzag, and 0x96 0x02 is 0x16 + 2 * 128 = 278 zigzag, that is 139. -/
theorem test_decode_primitives :
    decode [0x10] = .ok (.sched, []) ∧ decode [0x11] = .ok (.dispatch, []) ∧ decode [0x12, 0x40] = .ok (.run 32, []) ∧
    decode [0x13, 0x01] = .ok (.idlecyc (-1), []) ∧ decode [0x14, 0x0B] = .ok (.snapcopy 11, []) ∧
    (decode [0x12, 0x96, 0x02, 0x18]).toOption = some (.run 139, [0x18]) := by
  refine ⟨rfl, rfl, rfl, rfl, rfl, by decide⟩

/-- The codes of the lifecycle commands, R100's table; the hook byte in the layout of log entry 3. -/
theorem test_decode_commands :
    decode [0x18] = .ok (.setup, []) ∧ decode [0x19] = .ok (.fullreset, []) ∧ decode [0x1A] = .ok (.teardown, []) ∧
    decode [0x1B, 0x0C] = .ok (.hookreg .frameMid true, []) ∧ decode [0x1B, 0x00] = .ok (.hookreg .postInit false, []) := by
  refine ⟨rfl, rfl, rfl, rfl, rfl⟩

/-- The three register words at their offsets, the high byte first (R62, R91, R92). -/
theorem test_decode_register_words :
    decode [0x4E, 0x3D, 0xFF] = .ok (.ctrl 0x3DFF, []) ∧ decode [0x50, 0x80, 0x10] = .ok (.trigP 0x8010, []) ∧
    decode [0x52, 0xFE, 0x05] = .ok (.trigS 0xFE05, []) := by
  refine ⟨rfl, rfl, rfl⟩

/-- Codes outside R100's table, an operand that is cut off or overlong, and a hook that is none of the six are refused. -/
theorem test_decode_refuses :
    decode [] = .error .empty ∧ decode [0x0C] = .error (.unassigned 0x0C) ∧ decode [0x15] = .error (.unassigned 0x15) ∧
    decode [0x12] = .error .truncated ∧ decode [0x14, 0x80, 0x00] = .error .overlong ∧
    decode [0x1B, 0x06] = .error (.badHook 0x06) := by
  refine ⟨rfl, rfl, rfl, rfl, rfl, rfl⟩

/-- R104: the control words 0x0200, 0x3DFF and 0xFFFF. -/
theorem test_decodeCtrl_R104 :
    decodeCtrl 0x0200 = true ∧ decodeCtrl 0x3DFF = false ∧ decodeCtrl 0xFFFF = true := by decide

/-- R104: the trigger words 0x8010, 0x0064, 0x0103, 0x7FFF, 0xFE05 and 0x8105. -/
theorem test_decodeTrig_R104 :
    decodeTrig 0x8010 = (true, 16) ∧ decodeTrig 0x0064 = (false, 100) ∧ decodeTrig 0x0103 = (false, 259) ∧
    decodeTrig 0x7FFF = (false, 511) ∧ trigLine vectors 0x7FFF = 259 ∧ decodeTrig 0xFE05 = (true, 5) ∧
    trigLine vectors 0x8105 = 259 := by decide

/-- R62: the byte at the lower offset is the high one. -/
theorem test_words_are_big_endian :
    (words 0x3DFF 0x8010 0x0064).read 0x4E = 0x3D ∧ (words 0x3DFF 0x8010 0x0064).read 0x51 = 0x10 ∧
    (words 0x3DFF 0x8010 0x0064).read16 0x52 = 0x0064 := by decide

/-- The constants of the vectors' table for `cyclesPerFrame` 200000 and 197888, and R121's examples. -/
theorem test_cycle_constants :
    cyclesPerLine vectors 200000 = 772 ∧ firstCycle vectors 200000 = 12355 ∧ endCycle vectors 200000 = 185328 ∧
    segBoundary vectors 200000 .one = 70012 ∧ segBoundary vectors 200000 .two = 127670 ∧
    segBoundary vectors 197888 .three = 183371 ∧ lineToCycle vectors 200000 150 = 115831 := by decide

/-! ## One step -/

/-- R125's example, which is the source's own. -/
theorem test_sched_example :
    yields (exec .sched { base with cyclesPerFrame := 200000, srcP := single 100, srcS := single 150 })
      (fun t => t.nextLine == 100 && t.nextCycle == 77221) = true := by decide

/-- R125, corner case 2: nothing armed gives the sentinel. -/
theorem test_sched_sentinel :
    yields (exec .sched { base with cyclesPerFrame := 200000, srcP := single 259, srcS := single 259 })
      (fun t => t.nextLine == 259 && t.nextCycle == 200001) = true := by decide

/-- V26: two sources one line apart, the second forced (step g). -/
theorem test_dispatch_V26 :
    yields (exec .dispatch { base with srcP := single 100, srcS := single 101, nextLine := 100, executedTotal := 100001 })
      (fun t => t.executedTotal == 101001 && t.nextLine == 101 && t.nextCycle == 101002 && t.irqCount == 1 &&
        slotAt t 1 == some (84, true) && t.out == [.irqAssert 4, .runReq 1000, .runAck 1000]) = true := by decide

/-- V28: the discard branch, set up by hand. -/
theorem test_dispatch_V28 :
    yields (exec .dispatch { base with
        srcP := repeating 240, srcS := single 259, nextLine := 240, executedTotal := 240001, irqCount := 1 })
      (fun t => t.irqCount == 2 && slotAt t 2 == some (0, false) && t.srcP.line == 259 && t.nextCycle == 259001) = true := by
  decide

/-- R170 with `RUN_OVER_MAX` 4: a budget of 9335 answered with 3 more. -/
theorem test_run_overshoots :
    yields (exec (.run 9335) { base with
        cfg := { vectors with runOverMax := 4 }, executedTotal := 90666, answers := [{ overrun := 3, aux := [(0, 7)] }] })
      (fun t => t.executedTotal == 100004 && t.out == [.runReq 9335, .runAck 9338] && t.aux == [(0, 7)]) = true := by decide

/-- R170, corner case: a budget of 0. -/
theorem test_run_zero : yields (exec (.run 0) base) (fun t => t == base) = true := by decide

/-- R172: `Idle(-2)` from 0. -/
theorem test_idlecyc_negative :
    yields (exec (.idlecyc (-2)) base) (fun t => t.executedTotal == -2 && t.out == [.idleReq (-2)]) = true := by decide

/-- R65: both images, and the raster line stays. -/
theorem test_snapcopy_keeps_raster :
    yields (exec (.snapcopy 11) { base with
        rf := [(5, 9)], aux := [(15, 1)], snaps := List.replicate 11 {} ++ [{ rasterLine := 100 }] })
      (fun t => t.snaps[11]? == some { rasterLine := 100, populated := true, regCopy := [(5, 9)], auxCopy := [(15, 1)] } &&
        slotAt t 10 == some (0, false)) = true := by decide

/-- R175: `frameStart` is accepted after a setup. -/
theorem test_idle_accepts_frameStart :
    yields (exec .idle { base with driver := [.frameStart] }) (fun t => t.phase == .setupFrame && t.out == []) = true := by
  decide

/-- V43: `frameStart` without a setup is not accepted. -/
theorem test_idle_drops_frameStart :
    yields (exec .idle { base with driver := [.frameStart], setupDone := false }) (fun t => t.phase == .idle) = true := by
  decide

/-- R174's second example. -/
theorem test_setupFrame_example :
    yields (exec .setupFrame { base with rf := words 0x0200 0x8010 0x0064 })
      (fun t => t.srcP == repeating 16 && t.srcS == { line := 259 } && t.nextCycle == 16001 && t.phase == .catchup &&
        t.out == [.ctxSelect, .cpuBeginFrame, .audioBegin]) = true := by decide

/-- Program C: a reset request, with the hooks registered. -/
theorem test_setupFrame_program_C :
    yields (exec .setupFrame { base with
        rf := words 0x0000 0x8010 0x0064, carry := 3, inputs := { clock := 259000, resetRequest := true }
        hooks := { postReset := true, frameStart := true } })
      (fun t => t.carry == 0 && t.rf == words 0x0200 0x0103 0x0103 && t.nextCycle == 259001 &&
        t.out == [.ctxSelect, .cpuReset, .ctxRelease, .subsysReset, .hookPostReset, .ctxSelect, .cpuBeginFrame, .audioBegin,
          .hookFrameStart]) = true := by decide

/-- R176's example: a carry of 3, which stays. -/
theorem test_catchup_carry :
    yields (exec .catchup { base with carry := 3 })
      (fun t => t.executedTotal == 3 && t.carry == 3 && t.out == [.idleReq 3] && t.phase == .leadin) = true := by decide

/-- R178's example: a single-shot primary on line 5. -/
theorem test_leadin_example :
    yields (exec .leadin { base with srcP := single 5, srcS := single 259, nextLine := 5, nextCycle := 5001 })
      (fun t => t.executedTotal == 16000 && t.irqCount == 0 && t.nextLine == 259 && slotAt t 0 == some (0, true) &&
        t.out == [.runReq 5001, .runAck 5001, .irqAssert 4, .runReq 1000, .runAck 1000, .runReq 9999, .runAck 9999]) = true := by
  decide

/-- R178, corner case 3: line 16 is not for the lead-in. -/
theorem test_leadin_line_16 :
    yields (exec .leadin { base with srcP := single 16, srcS := single 259, nextLine := 16, nextCycle := 16001 })
      (fun t => t.executedTotal == 16000 && assertions t.out == [] && t.phase == .basesnap) = true := by decide

/-- R182: slot 0. -/
theorem test_basesnap :
    yields (exec .basesnap { base with rf := words 0 0x64 0x96 })
      (fun t => slotAt t 0 == some (0, true) && (t.snaps[0]?).map (·.regCopy) == some (words 0 0x64 0x96) &&
        t.phase == .lateguard) = true := by decide

/-- V39: the words that the processor stored in the lead-in are loaded, `autoRepeat` is not. -/
theorem test_lateguard_V39 :
    yields (exec .lateguard { base with
        srcP := single 259, srcS := single 259, nextLine := 259, nextCycle := 259001, rf := words 0x0000 0x8078 0x0103 })
      (fun t => t.srcP == single 120 && t.srcS == single 259 && t.nextLine == 120 && t.nextCycle == 120001) = true := by decide

/-- R183, corner case 4: with a source armed the words are not looked at. -/
theorem test_lateguard_armed :
    yields (exec .lateguard { base with srcP := single 100, srcS := single 259, nextLine := 100, rf := words 0 0x78 0x78 })
      (fun t => t.srcP == single 100 && t.phase == .active) = true := by decide

/-- V30: phase 6 with an auto-repeat source on line 16: seven dispatches. -/
theorem test_active_V30 :
    yields (exec .active { base with
        srcP := repeating 16, srcS := single 259, nextLine := 16, nextCycle := 16001, executedTotal := 16000 })
      (fun t => t.irqCount == 7 && t.srcP == repeating 240 && t.nextCycle == 240001 && t.executedTotal == 240000 &&
        (t.snaps.take 8).map (·.rasterLine) == [0, 0, 32, 64, 96, 128, 160, 192] &&
        assertions t.out == List.replicate 7 4) = true := by decide +kernel

/-- V36: phase 6 with a store of five slots. -/
theorem test_active_V36 :
    yields (exec .active { base with
        cfg := { vectors with maxRaster := 3 }, snaps := List.replicate 5 {}, srcP := repeating 16, srcS := repeating 20
        nextLine := 16, nextCycle := 16001, executedTotal := 16000 })
      (fun t => t.irqCount == 4 && t.srcP == repeating 80 && t.srcS == repeating 84 && t.nextCycle == 80001 &&
        t.executedTotal == 240000) = true := by decide +kernel

/-- R225's example: the frame-midpoint hook comes before the object capture. -/
theorem test_objcap_hook :
    yields (exec .objcap { base with hooks := { frameMid := true } })
      (fun t => t.out == [.hookFrameMid, .objCapture] && t.phase == .vblank) = true := by decide

/-- R191's example with frame output skipped, and V47. -/
theorem test_vblank_skip :
    yields (exec .vblank { base with inputs := { frameSkip := true } })
      (fun t => t.out == [.irqAssert 2] && t.pending == [2]) = true := by decide

/-- R191's example. -/
theorem test_vblank_draw :
    yields (exec .vblank base) (fun t => t.out == [.irqAssert 2, .draw] && t.phase == .drain) = true := by decide

/-- R192's example. -/
theorem test_drain_example :
    yields (exec .drain { base with executedTotal := 240000 })
      (fun t => t.executedTotal == 259000 && t.out == [.runReq 19000, .runAck 19000]) = true := by decide

/-- R193's second example, and the events of R194. -/
theorem test_drift_example :
    yields (exec .drift { base with executedTotal := 259003, hooks := { frameEnd := true } })
      (fun t => t.carry == 3 && t.out == [.ctxRelease, .hookFrameEnd] && t.phase == .frameend) = true := by decide

/-- R195's example. -/
theorem test_frameend_example :
    yields (exec .frameend base) (fun t => t.out == [.audioEnd] && t.phase == .idle) = true := by decide

/-- V47c: a post-init hook registered at power-on. -/
theorem test_setup_V47c :
    yields (exec .setup { base with setupDone := false, hooks := { postInit := true } })
      (fun t => t.setupDone && t.out == [.subsysInit, .hookPostInit] && t.snaps.length == 12) = true := by decide

/-- V43: the subsystems answer 7. -/
theorem test_setup_V43 :
    yields (exec .setup { base with setupDone := false, hooks := { postInit := true }, answers := [{ code := 7 }] })
      (fun t => !t.setupDone && t.raised == [.setupFailure 7] && t.out == [.subsysInit]) = true := by decide

/-- V44: the bytes 0x4E to 0x53, the carry, the events. -/
theorem test_fullreset_V44 :
    yields (exec .fullreset { base with carry := 3, rf := (words 0x0000 0x8010 0x0064).write 7 9 })
      (fun t => t.carry == 0 && (List.range 6).map (fun k => t.rf.read (0x4E + k)) == [2, 0, 1, 3, 1, 3] && t.rf.read 7 == 9 &&
        t.out == [.ctxSelect, .cpuReset, .ctxRelease, .subsysReset]) = true := by decide

/-- V47b: within a frame a command is not accepted. -/
theorem test_fullreset_V47b :
    yields (exec .fullreset { base with phase := .active, carry := 3 })
      (fun t => t == { base with phase := .active, carry := 3 }) = true := by decide

/-- V46: the pre-exit hook first, and every hook gone. -/
theorem test_teardown_V46 :
    yields (exec .teardown { base with hooks := { preExit := true, frameMid := true } })
      (fun t => t.out == [.hookPreExit, .subsysExit] && t.hooks == {} && !t.setupDone) = true := by decide

/-- R225: one bit, and no other. -/
theorem test_hookreg :
    yields (exec (.hookreg .frameMid true) { base with hooks := { preExit := true } })
      (fun t => t.hooks == { preExit := true, frameMid := true }) = true := by decide

/-- R34, R62: the control word 0x3DFF at 0x4E. -/
theorem test_ctrl_stores :
    yields (exec (.ctrl 0x3DFF) base) (fun t => t.rf == [(0x4E, 0x3D), (0x4F, 0xFF)]) = true := by decide

/-- R35, R62: the trigger word 0x8010 at 0x50. -/
theorem test_trigP_stores :
    yields (exec (.trigP 0x8010) base) (fun t => t.rf == [(0x50, 0x80), (0x51, 0x10)]) = true := by decide

/-- R35, R62: the trigger word 0x0064 at 0x52 over an older one. -/
theorem test_trigS_stores :
    yields (exec (.trigS 0x0064) { base with rf := [(0x52, 0x81)] }) (fun t => t.rf == [(0x53, 0x64)]) = true := by decide

/-! ## Hypotheses that are met

Each theorem gives a state and operands for the obligation it is named after, a clause after a clause, at the bounds where a
clause has a range. -/

/-- A frame in phase 6, an interrupt due on line 100. -/
def inFrame : State :=
  { base with phase := .active, srcP := single 100, srcS := single 259, nextLine := 100, nextCycle := 100001 }

/-- A configuration whose processor may overshoot by 3, as in Program D. -/
def overshooting : Config := { vectors with runOverMax := 3 }

/-- A frame about to begin, with nothing armed (V34). -/
def nothingArmed : State := { base with phase := .setupFrame, rf := words 0x0200 0x0103 0x0103 }

/-- A frame about to begin, disabled in mixed form: the global bit set, the primary single shot on a line of the frame, the
secondary repeating on a line that is none. -/
def nothingMixed : State := { base with phase := .setupFrame, rf := words 0x0200 0x0064 0x8103 }

/-- A frame about to begin whose words hold no line of the frame and whose global bit is clear. -/
def nothingLeft : State := { base with phase := .setupFrame, rf := words 0x0000 0x8103 0x01FF }

theorem witness_EncodeOfDecode : ∃ rest i, decode [0x1B, 0x0D, 0x12] = .ok (i, rest) := ⟨_, _, rfl⟩

theorem witness_ControlWordDecodesBitNine : (0x3DFF : Word).getLsbD 9 = (0x0000 : Word).getLsbD 9 := by decide

theorem witness_TriggerWordDecodesAutoAndLine :
    (0x7FFF : Word).getLsbD 15 = (0x01FF : Word).getLsbD 15 ∧ ∀ k < 9, (0x7FFF : Word).getLsbD k = (0x01FF : Word).getLsbD k := by
  decide

theorem witness_RegisterWordsAreBigEndian :
    Memory.wf [(0x4E, 2), (0x53, 1)] = true ∧ (0x4D : Nat) ≠ 0x4E ∧ (0x4D : Nat) ≠ 0x4E + 1 ∧ (0x50 : Nat) ≠ 0x4E ∧
      (0x50 : Nat) ≠ 0x4E + 1 := by decide

theorem witness_StepRunsDecodedOperation :
    base.port = [] ∧ decode [0x4E, 0x02, 0x00, 0x19] = .ok (.ctrl 0x0200, [0x19]) ∧ ([0x0C] : List Byte) ≠ [] ∧
      decode [0x0C] = .error (.unassigned 0x0C) := ⟨rfl, rfl, by decide, rfl⟩

theorem witness_PresentedWordRunsNext :
    decodeTableWord 8 0x1A = some .teardown ∧ decodeTableWord 16 0x8010 = some (.ctrl 0x8010) := ⟨rfl, rfl⟩

theorem witness_ParametersAcceptedExactly :
    ∃ c, Params.toConfig { scanlines := 511, maxRaster := 3, regfileBytes := 0x54, beamIrqLevel := 1, vblankIrqLevel := 1,
                           runOverMax := 0, dispatchLimit := 4 } = some c := ⟨_, rfl⟩

theorem witness_ParametersNeverChange : ∃ t, step base = .next t := ⟨_, rfl⟩

theorem witness_MemoryReadsWhatWasWritten : Memory.wf [(3, 1), (0x4E, 2)] = true := rfl

theorem witness_CanonicalMemoriesAreEqual :
    Memory.wf [(3, 1)] = true ∧ Memory.wf (Memory.write (Memory.write [] 3 1) 4 0) = true ∧
      ∀ a, Memory.read [(3, 1)] a = Memory.read (Memory.write (Memory.write [] 3 1) 4 0) a := ⟨rfl, rfl, fun _ => rfl⟩

theorem base_stored : Stored base :=
  ⟨rfl, ⟨rfl, rfl⟩, ⟨rfl, rfl⟩, fun slot h => by
    have : slot = {} := by simpa using List.eq_of_mem_replicate h
    subst this; exact ⟨⟨rfl, rfl⟩, ⟨rfl, rfl⟩⟩⟩

theorem witness_StoredFormKept : Stored base ∧ ∃ t, step base = .next t := ⟨base_stored, _, rfl⟩

theorem witness_CycleArithmetic :
    vectors.scanlines = 259 ∧ ({ vectors with blankLines := 22 } : Config).scanlines = 262 := by decide

theorem witness_CycleArithmeticIsMonotone :
    (15 : Nat) ≤ 16 ∧ 258 < vectors.scanlines ∧ 1 ≤ cyclesPerLine vectors 259 ∧ 2 ≤ cyclesPerLine vectors 518 := by decide

theorem witness_SchedResult : ∃ t, exec .sched base = .next t := ⟨_, rfl⟩

/-- Line 15 with the store full, and line 16 with one slot left. -/
theorem witness_DispatchResult :
    base.snaps.length = base.cfg.capacity ∧
      (let s : State := { base with nextLine := 15, irqCount := 11 }
       (s.nextLine < 16 → s.irqCount ≤ s.cfg.lastSlot) ∧ (16 ≤ s.nextLine → s.irqCount < s.cfg.lastSlot)) ∧
      (let s : State := { base with nextLine := 16, irqCount := 10 }
       (s.nextLine < 16 → s.irqCount ≤ s.cfg.lastSlot) ∧ (16 ≤ s.nextLine → s.irqCount < s.cfg.lastSlot)) := by decide

theorem witness_DispatchSchedulesForward : ∃ t, exec .dispatch inFrame = .next t := by
  obtain ⟨t, h, _⟩ := exists_of_yields (r := exec .dispatch inFrame) (p := fun _ => true) (by decide)
  exact ⟨t, h⟩

/-- The primary due and the secondary later, on the last line before the sentinel. -/
theorem witness_DispatchAdvancesLines :
    let s : State := { inFrame with srcS := repeating 258 }
    s.nextLine = min s.srcP.line s.srcS.line ∧ s.nextLine < s.cfg.scanlines ∧ s.srcP.line = s.nextLine ∧
      s.nextLine < s.srcS.line ∧ ∃ t, exec .dispatch s = .next t := by
  refine ⟨by decide, by decide, by decide, by decide, ?_⟩
  obtain ⟨t, h, _⟩ := exists_of_yields (r := exec .dispatch { inFrame with srcS := repeating 258 }) (p := fun _ => true) (by decide)
  exact ⟨t, h⟩

/-- The same with the two sources exchanged, the secondary on the due line. -/
theorem witness_DispatchAdvancesLines_secondary :
    let s : State := { inFrame with srcP := single 101, srcS := repeating 100 }
    s.nextLine = min s.srcP.line s.srcS.line ∧ s.nextLine < s.cfg.scanlines ∧ s.nextLine < s.srcP.line ∧
      s.srcS.line = s.nextLine ∧ ∃ t, exec .dispatch s = .next t := by
  refine ⟨by decide, by decide, by decide, by decide, ?_⟩
  obtain ⟨t, h, _⟩ := exists_of_yields (r := exec .dispatch { inFrame with srcP := single 101, srcS := repeating 100 })
    (p := fun _ => true) (by decide)
  exact ⟨t, h⟩

theorem witness_DispatchesRiseInTime :
    ∃ t u, exec .dispatch { inFrame with srcS := single 101 } = .next t ∧ exec .dispatch (runTo t.nextCycle t) = .next u := by
  obtain ⟨t, h, h'⟩ := exists_of_yields (r := exec .dispatch { inFrame with srcS := single 101 })
    (p := fun t => yields (exec .dispatch (runTo t.nextCycle t)) fun _ => true) (by decide)
  obtain ⟨u, hu, _⟩ := exists_of_yields h'
  exact ⟨t, u, h, hu⟩

/-- The invariants of a state whose slots are all clear. -/
theorem frameState_of_clear {s : State} (hs : s.snaps = base.snaps)
    (h : s.srcP.line ≤ s.cfg.scanlines ∧ s.srcS.line ≤ s.cfg.scanlines ∧ s.nextLine = min s.srcP.line s.srcS.line ∧
      (dueCycle s.cfg s.cyclesPerFrame s.nextLine : Int) ≤ s.nextCycle ∧ s.irqCount ≤ s.cfg.lastSlot) : FrameState s := by
  have clear : ∀ (i : Nat) (slot : Slot), s.snaps[i]? = some slot → slot = {} := by
    intro i slot hi
    rw [hs] at hi
    exact List.eq_of_mem_replicate (List.mem_of_getElem? hi)
  obtain ⟨a, b, c, d, e⟩ := h
  refine ⟨a, b, c, d, e, ?_, ?_, ?_⟩
  · intro i slot hi _; rw [clear i slot hi]; exact ⟨rfl, rfl⟩
  · intro i slot hi; rw [clear i slot hi]; decide
  · intro slot hi; rw [clear 0 slot hi]

theorem inFrame_state : FrameState inFrame := frameState_of_clear rfl (by decide)

/-- A frame in phase 3, a single-shot source on line 15, due a cycle before `FirstCycle`. -/
def inLeadin : State :=
  { base with phase := .leadin, srcP := single 15, srcS := single 259, nextLine := 15, nextCycle := 15999 }

theorem inLeadin_state : FrameState inLeadin := frameState_of_clear rfl (by decide)

/-- The interrupt of line 100 after `SegBoundary(1)` and before `SegBoundary(2)`, and one on line 15 due a cycle before
`FirstCycle`: each guard holds in a state with the invariants, and the dispatch goes through. -/
theorem witness_DispatchedLinesAreBelow240 :
    (FrameState inFrame ∧ inFrame.nextCycle < endCycle inFrame.cfg inFrame.cyclesPerFrame ∧
      dispatchOpen (segBoundary inFrame.cfg inFrame.cyclesPerFrame .two) inFrame = true ∧
      inFrame.snaps.length = inFrame.cfg.capacity ∧ ∃ d, exec .dispatch (runTo inFrame.nextCycle inFrame) = .next d) ∧
    (FrameState inLeadin ∧ leadinDue inLeadin = true ∧ inLeadin.snaps.length = inLeadin.cfg.capacity ∧
      ∃ d, exec .dispatch (runTo inLeadin.nextCycle inLeadin) = .next d) := by
  obtain ⟨d, h, _⟩ := exists_of_yields (r := exec .dispatch (runTo inFrame.nextCycle inFrame)) (p := fun _ => true) (by decide)
  obtain ⟨e, h', _⟩ := exists_of_yields (r := exec .dispatch (runTo inLeadin.nextCycle inLeadin)) (p := fun _ => true) (by decide)
  exact ⟨⟨inFrame_state, by decide, by decide, by decide, d, h⟩, inLeadin_state, by decide, by decide, e, h'⟩

theorem witness_RunResult : (0 : Int) ≤ 0 ∧ (0 : Int) < 1 := by decide

/-- The greatest overshoot, and images with bytes at both ends of their spaces. -/
theorem witness_RunAdmitsEveryAnswer :
    let s : State := { base with cfg := overshooting }
    (0 : Int) < 1 ∧ (1 : Int) ≤ 4 ∧ (4 : Int) ≤ 1 + s.cfg.runOverMax ∧ Stored s ∧
      ImageOk s.cfg.regfileBytes [(0, 1), (0xFF, 2)] ∧ ImageOk auxBytes [(0, 1), (15, 2)] :=
  ⟨by decide, by decide, by decide, ⟨base_stored.capacity, base_stored.rf, base_stored.aux, base_stored.slots⟩, ⟨rfl, rfl⟩,
    ⟨rfl, rfl⟩⟩

theorem witness_RunToReaches : (0 : Int) ≤ base.executedTotal ∧ base.executedTotal < 1 := by decide

theorem witness_SnapcopyResult : (Instr.snapcopy 11).wellFormed base.cfg = true ∧ base.snaps.length = base.cfg.capacity ∧
    base.snaps[11]? = some ({} : Slot) := by decide

theorem witness_SlotsOutsideTheStoreFault :
    16 ≤ ({ base with nextLine := 16, irqCount := 11 } : State).nextLine ∧ base.cfg.lastSlot ≤ 11 ∧ base.cfg.lastSlot < 12 := by
  decide

theorem witness_IdleResult :
    inFrame.phase ≠ .idle ∧ base.phase = .idle ∧ base.driver = [] ∧
      ({ base with driver := [.frameStart] } : State).driver = .frameStart :: [] ∧
      ({ base with driver := [.issue .setup] } : State).driver = .issue .setup :: [] := by decide

theorem witness_SetupFrameOpens :
    let s : State := { base with inputs := { audioDisable := true } }
    s.inputs.resetRequest = false ∧ ({ s with phase := .setupFrame } : State).inputs.audioDisable = true ∧
      s.hooks.frameStart = false := by decide

/-- A first interrupt at `FirstCycle`, and one a cycle before it. -/
theorem witness_LeadinResult :
    (16 * base.cyclesPerFrame / base.cfg.scanlines : Nat) = 16000 ∧
      ((16000 : Nat) : Int) ≤ ({ base with nextCycle := 16000 } : State).nextCycle ∧
      ({ base with nextCycle := 15999 } : State).nextCycle < (16000 : Nat) ∧ base.snaps.length = base.cfg.capacity ∧
      base.irqCount < base.cfg.lastSlot := by decide

theorem witness_LeadinCountsAtMostOne :
    FrameState inFrame ∧ inFrame.irqCount = 0 ∧ 2 ≤ cyclesPerLine inFrame.cfg inFrame.cyclesPerFrame ∧
      ∃ t, exec .leadin inFrame = .next t := by
  refine ⟨inFrame_state, rfl, by decide, ?_⟩
  obtain ⟨t, h, _⟩ := exists_of_yields (r := exec .leadin inFrame) (p := fun _ => true) (by decide)
  exact ⟨t, h⟩

theorem witness_BasesnapResult : base.snaps.length = base.cfg.capacity ∧ base.snaps[0]? = some ({} : Slot) := by decide

/-- A store of slots, and each branch of a segment at its bounds: an interrupt due at the boundary, one due a cycle before it, the
store full, and one place left. -/
theorem witness_ActiveCompletes :
    (inFrame.snaps.length = inFrame.cfg.capacity) ∧
      (segBoundary inFrame.cfg inFrame.cyclesPerFrame .two : Int) ≤ ({ inFrame with nextCycle := 165333 } : State).nextCycle ∧
      ({ inFrame with nextCycle := 165332 } : State).nextCycle < (segBoundary inFrame.cfg inFrame.cyclesPerFrame .two : Int) ∧
      inFrame.cfg.dispatchLimit ≤ ({ inFrame with irqCount := 11 } : State).irqCount ∧
      ({ inFrame with irqCount := 10 } : State).irqCount < inFrame.cfg.dispatchLimit := by decide

theorem witness_ActiveFrame : ∃ t, exec .active inFrame = .next t ∧ t.irqCount = 1 := by
  obtain ⟨t, h, h'⟩ := exists_of_yields (r := exec .active inFrame) (p := fun t => t.irqCount == 1) (by decide +kernel)
  exact ⟨t, h, by simpa using h'⟩

/-- The store full, and an interrupt due at `EndCycle`. -/
theorem witness_ActiveWithoutDispatch :
    inFrame.cfg.dispatchLimit ≤ ({ inFrame with irqCount := 11 } : State).irqCount ∧
      (endCycle inFrame.cfg inFrame.cyclesPerFrame : Int) ≤ ({ inFrame with nextCycle := 240000 } : State).nextCycle := by decide

theorem witness_DrainResult :
    ((259000 : Nat) : Int) ≤ ({ base with executedTotal := 259000 } : State).executedTotal ∧
      ({ base with executedTotal := 258999 } : State).executedTotal < base.cyclesPerFrame := by decide

theorem witness_SetupSucceeds :
    let s : State := { base with setupDone := false }
    s.phase = .idle ∧ s.setupDone = false ∧ (answer s).code = 0 := by decide

theorem witness_SetupFailureRaised :
    let s : State := { base with setupDone := false, answers := [{ code := -1 }] }
    s.phase = .idle ∧ s.setupDone = false ∧ (answer s).code ≠ 0 ∧
      ∃ t u, exec .setup s = .next t ∧ exec .idle { t with driver := [.frameStart] } = .next u :=
  ⟨rfl, rfl, by decide, _, _, rfl, rfl⟩

/-- Two answers without the post-reset hook and three with it, which store nothing in `AUX` and nothing in `RF`. -/
theorem witness_FullresetResult :
    let two : State := { base with answers := [{ rf := [(3, 1)] }, {}], rf := [(0x4D, 1), (0x54, 2)] }
    let three : State := { two with hooks := { postReset := true }, answers := [{}, { aux := [(3, 1)] }, {}] }
    (two.phase = .idle ∧ two.setupDone = true ∧ two.hooks.postReset = false ∧
      ∀ n < 2, ∃ a, two.answers[n]? = some a ∧ a.aux = []) ∧
    (three.phase = .idle ∧ three.setupDone = true ∧ three.hooks.postReset = true ∧ three.rf.wf = true ∧
      ∀ n < 3, ∃ a, three.answers[n]? = some a ∧ a.rf = []) := by
  refine ⟨⟨rfl, rfl, rfl, fun n hn => ?_⟩, rfl, rfl, rfl, by decide, fun n hn => ?_⟩
  · match n, hn with
    | 0, _ => exact ⟨_, rfl, rfl⟩
    | 1, _ => exact ⟨_, rfl, rfl⟩
  · match n, hn with
    | 0, _ => exact ⟨_, rfl, rfl⟩
    | 1, _ => exact ⟨_, rfl, rfl⟩
    | 2, _ => exact ⟨_, rfl, rfl⟩

theorem witness_TeardownResult : base.phase = .idle ∧ base.setupDone = true := by decide

theorem witness_HookregResult : ({ base with setupDone := false } : State).phase = .idle ∧ Hook.preExit ≠ .postInit := by decide

theorem witness_RegisterWordStores :
    inFrame.phase ≠ .idle ∧ base.phase = .idle ∧ base.rf.wf = true ∧
      (Instr.trigS 0xFE05, 0x52) ∈ [(Instr.ctrl 0xFE05, 0x4E), (Instr.trigP 0xFE05, 0x50), (Instr.trigS 0xFE05, 0x52)] := by
  decide

theorem witness_CommandsNotAcceptedDoNothing :
    inFrame.phase ≠ .idle ∧ (Instr.hookreg .preExit true).isCommand = true ∧ base.setupDone = true ∧
      ({ base with setupDone := false } : State).setupDone = false := by decide

theorem witness_FrameIsElevenSteps : nothingArmed.phase = .setupFrame ∧ nothingArmed.port = [] := by decide

theorem witness_FrameAlwaysCompletes :
    nothingArmed.phase = .setupFrame ∧ nothingArmed.port = [] ∧ nothingArmed.snaps.length = nothingArmed.cfg.capacity := by
  decide

/-- Program D's first frame, with the greatest carry before it. -/
theorem witness_FrameDriftBounded :
    let s : State :=
      { base with
        phase := .setupFrame, cfg := overshooting, carry := 3, inputs := { clock := 200000 }, rf := words 0 0x64 0x103
        answers := List.replicate 40 { overrun := 3 } }
    s.phase = .setupFrame ∧ s.port = [] ∧ 0 ≤ s.carry ∧ s.carry ≤ s.cfg.runOverMax ∧
      ∃ u : State, Host.Core.run core 8 s = .next u ∧ WellConfigured u.cfg u.cyclesPerFrame := by
  refine ⟨by decide, by decide, by decide, by decide, ?_⟩
  obtain ⟨u, h, h'⟩ := exists_of_yields
    (r := Host.Core.run core 8
      { base with
        phase := .setupFrame, cfg := overshooting, carry := 3, inputs := { clock := 200000 }, rf := words 0 0x64 0x103
        answers := List.replicate 40 { overrun := 3 } })
    (p := fun u => u.cfg == overshooting && u.cyclesPerFrame == 200000) (by decide +kernel)
  simp only [Bool.and_eq_true, beq_iff_eq] at h'
  exact ⟨u, h, by rw [h'.1, h'.2]; unfold WellConfigured; decide⟩

/-- The mixed form of having nothing armed at phase 1. -/
theorem witness_NothingArmedFrame_mixed :
    nothingMixed.phase = .setupFrame ∧ nothingMixed.port = [] ∧ nothingMixed.snaps.length = nothingMixed.cfg.capacity ∧
      ((openFrame nothingMixed).rf.read16 0x4E).getLsbD 9 = true ∧
      ((openFrame nothingMixed).rf.read16 0x50).getLsbD 15 = false ∧
      ((openFrame nothingMixed).rf.read16 0x52).getLsbD 15 = true ∧
      nothingMixed.cfg.scanlines ≤ ((openFrame nothingMixed).rf.read16 0x52).toNat % 512 ∧
      ∃ u : State, Host.Core.run core 4 nothingMixed = .next u ∧ (u.rf.read16 0x4E).getLsbD 9 = true := by
  refine ⟨by decide, by decide, by decide, by decide, by decide, by decide, by decide, ?_⟩
  obtain ⟨u, h, h'⟩ := exists_of_yields (r := Host.Core.run core 4 nothingMixed)
    (p := fun u => (u.rf.read16 0x4E).getLsbD 9) (by decide +kernel)
  exact ⟨u, h, h'⟩

/-- Both ways of having nothing armed at phase 1 and at phase 5: V34, and lines that are none of the frame's. -/
theorem witness_NothingArmedFrame :
    (nothingArmed.phase = .setupFrame ∧ nothingArmed.port = [] ∧ nothingArmed.snaps.length = nothingArmed.cfg.capacity ∧
      ((openFrame nothingArmed).rf.read16 0x4E).getLsbD 9 = true ∧
      ((openFrame nothingArmed).rf.read16 0x50).getLsbD 15 = false ∧
      ((openFrame nothingArmed).rf.read16 0x52).getLsbD 15 = false ∧
      ∃ u : State, Host.Core.run core 4 nothingArmed = .next u ∧ (u.rf.read16 0x4E).getLsbD 9 = true) ∧
    (nothingLeft.phase = .setupFrame ∧ nothingLeft.port = [] ∧ nothingLeft.snaps.length = nothingLeft.cfg.capacity ∧
      nothingLeft.cfg.scanlines ≤ ((openFrame nothingLeft).rf.read16 0x50).toNat % 512 ∧
      nothingLeft.cfg.scanlines ≤ ((openFrame nothingLeft).rf.read16 0x52).toNat % 512 ∧
      ∃ u : State, Host.Core.run core 4 nothingLeft = .next u ∧
        nothingLeft.cfg.scanlines ≤ (u.rf.read16 0x50).toNat % 512 ∧
        nothingLeft.cfg.scanlines ≤ (u.rf.read16 0x52).toNat % 512) := by
  refine ⟨⟨by decide, by decide, by decide, by decide, by decide, by decide, ?_⟩,
    ⟨by decide, by decide, by decide, by decide, by decide, ?_⟩⟩
  · obtain ⟨u, h, h'⟩ := exists_of_yields (r := Host.Core.run core 4 nothingArmed)
      (p := fun u => (u.rf.read16 0x4E).getLsbD 9) (by decide +kernel)
    exact ⟨u, h, h'⟩
  · obtain ⟨u, h, h'⟩ := exists_of_yields (r := Host.Core.run core 4 nothingLeft)
      (p := fun u => decide (nothingLeft.cfg.scanlines ≤ (u.rf.read16 0x50).toNat % 512 ∧
        nothingLeft.cfg.scanlines ≤ (u.rf.read16 0x52).toNat % 512)) (by decide +kernel)
    exact ⟨u, h, of_decide_eq_true h'⟩

/-- In a frame, with commands on the port and at the driver. -/
theorem witness_FrameInvariantKept :
    FrameInv { inFrame with
      port := encode .setup ++ encode (.ctrl 0x0200), driver := [.frameStart, .issue .teardown] } := by
  refine ⟨rfl, ⟨⟨[.setup, .ctrl 0x0200], by decide, rfl⟩, ?_⟩, fun _ => ?_, fun h => by rcases h with h | h <;> cases h⟩
  · intro i h
    simp only [List.mem_cons, List.not_mem_nil, or_false, reduceCtorEq, DriverAct.issue.injEq, false_or] at h
    rw [h]; rfl
  · obtain ⟨a, b, c, d, e, f, g, h⟩ := inFrame_state
    exact ⟨a, b, c, d, e, f, g, h⟩

theorem witness_RegisterFileUnseenElsewhere :
    Instr.dispatch ≠ .setupFrame ∧ Instr.dispatch ≠ .lateguard ∧
      withoutRf { inFrame with rf := words 0x0200 0x8010 0 } = withoutRf inFrame := by decide

theorem witness_AuxiliaryBlockNeverInterpreted : withoutAux { inFrame with aux := [(0, 1)] } = withoutAux inFrame := by decide

end Sys2Proof.Tests
end

/-! PROOFS. Parameter records and configurations (00_scope.md, the table of R7). -/

namespace Sys2Proof

theorem Params.ok_iff (p : Params) :
    p.ok = true ↔
      240 ≤ p.scanlines ∧ p.scanlines ≤ 511 ∧ 0x54 ≤ p.regfileBytes ∧ p.dispatchLimit ≤ p.maxRaster + 1 := by
  simp [Params.ok, and_assoc]

theorem Params.toConfig_of_not_ok {p : Params} (hp : ¬ p.ok = true) : p.toConfig = none := by
  rw [Params.ok_iff] at hp
  unfold Params.toConfig
  split
  next hlines => exact if_neg fun hrest => hp ⟨hlines.1, hlines.2, hrest⟩
  next => rfl

/-- Inside R7's bounds every subtraction that makes a field of the configuration is undone by the accessor that reads it. -/
theorem Params.toConfig_of_ok {p : Params} (hp : p.ok = true) : ∃ c, p.toConfig = some c ∧ c.params = p := by
  obtain ⟨hmin, hmax, hrf, hlimit⟩ := (Params.ok_iff p).mp hp
  have hscan : 240 + (p.scanlines - 240) = p.scanlines := Nat.add_sub_cancel' hmin
  have hbytes : p.regfileBytes - 0x54 + 0x54 = p.regfileBytes := Nat.sub_add_cancel hrf
  have hcut : p.maxRaster + 1 - (p.maxRaster + 1 - p.dispatchLimit) = p.dispatchLimit := Nat.sub_sub_self hlimit
  unfold Params.toConfig
  rw [dif_pos ⟨hmin, hmax⟩, if_pos ⟨hrf, hlimit⟩]
  exact ⟨_, rfl, by
    simp only [Config.params, Config.scanlines, Config.regfileBytes, Config.dispatchLimit, hscan, hbytes, hcut]⟩

theorem Params.toConfig_eq_none_iff (p : Params) : p.toConfig = none ↔ ¬ p.ok = true := by
  refine ⟨fun hnone hp => ?_, Params.toConfig_of_not_ok⟩
  obtain ⟨c, hc, -⟩ := Params.toConfig_of_ok hp
  exact Option.some_ne_none c (hc.symm.trans hnone)

theorem Config.params_of_toConfig {p : Params} {c : Config} (hc : p.toConfig = some c) : c.params = p := by
  by_cases hp : p.ok = true
  · obtain ⟨c', hc', hparams⟩ := Params.toConfig_of_ok hp
    rwa [Option.some.inj (hc.symm.trans hc')]
  · exact absurd (hc.symm.trans (Params.toConfig_of_not_ok hp)) (Option.some_ne_none c)

/-- Each field of a configuration counts from its bound, so no configuration stands for a record outside R7's table. -/
theorem Config.params_ok (c : Config) : c.params.ok = true := by
  rw [Params.ok_iff]
  have hmax : 240 + c.blankLines.val ≤ 511 := by omega
  exact ⟨Nat.le_add_right 240 c.blankLines.val, hmax, Nat.le_add_left 0x54 c.regfileExtra, Nat.sub_le (c.maxRaster + 1) c.limitCut⟩

/-- Settles O9, from the two cases of `Params.toConfig` and the bounds every configuration meets. -/
theorem parametersAcceptedExactly : Obligations.ParametersAcceptedExactly := by
  unfold Obligations.ParametersAcceptedExactly
  intro p
  rw [← Params.ok_iff]
  exact ⟨Params.toConfig_eq_none_iff p, fun _ => Config.params_of_toConfig, Config.params_ok⟩

end Sys2Proof

/-! PROOFS. The parameters are kept by every step (10_state.md R39, 70_reset_and_hazards.md R290). -/

namespace Sys2Proof.Machine

/-! ## The parts of an operation that branch -/

@[simp] theorem finishSetup_cfg (c : Int) (s : State) : (finishSetup c s).cfg = s.cfg := by
  unfold finishSetup
  split
  next => exact raiseException_cfg _ s
  next => exact callHook_cfg .postInit s

@[simp] theorem release_cfg (s : State) : (release s).cfg = s.cfg := rfl

/-- The shape of every guarded operation: a turned-away command (R220) or a closed guard leaves the state as it is. -/
theorem ite_cfg {p : Prop} [Decidable p] {s u : State} (hu : u.cfg = s.cfg) : (if p then u else s).cfg = s.cfg := by
  split
  next => exact hu
  next => rfl

theorem leadinDispatch_cfg {s t : State} (h : leadinDispatch s = .next t) : t.cfg = s.cfg := by
  unfold leadinDispatch at h
  split at h
  next => exact (dispatch_only h).cfg.trans (runTo_cfg s.nextCycle s)
  next => cases h; rfl

theorem activeSegment_cfg {k : Seg} {s t : State} (h : activeSegment k s = .next t) : t.cfg = s.cfg :=
  (runSegment_only h).cfg

/-! ## Operations, fetch and step -/

/-- Where an operation answers next by its definition, only the state it answers matters. -/
theorem cfg_of_next {s t u : State} (h : (.next u : Result) = .next t) (hu : u.cfg = s.cfg) : t.cfg = s.cfg := by
  cases h; exact hu

theorem execLeadin_cfg {s t : State} (h : execLeadin s = .next t) : t.cfg = s.cfg := by
  obtain ⟨u, hu, ht⟩ := andThen_next.1 h
  have hentry := leadinDispatch_cfg hu
  exact cfg_of_next ht ((runTo_cfg _ u).trans hentry)

theorem execActive_cfg {s t : State} (h : execActive s = .next t) : t.cfg = s.cfg := by
  obtain ⟨u₁, h₁, h⟩ := andThen_next.1 h
  obtain ⟨u₂, h₂, h⟩ := andThen_next.1 h
  obtain ⟨u₃, h₃, ht⟩ := andThen_next.1 h
  have hentry := activeSegment_cfg h₁
  refine cfg_of_next ht ?_
  calc u₃.cfg = u₂.cfg := activeSegment_cfg h₃
    _ = u₁.cfg := activeSegment_cfg h₂
    _ = s.cfg := hentry

theorem execSnapcopy_cfg {i : Nat} {s t : State} (h : execSnapcopy i s = .next t) : t.cfg = s.cfg := by
  unfold execSnapcopy at h
  split at h
  next => exact cfg_of_next h (snapCopy_cfg i s)
  next => cases h

theorem exec_cfg {i : Instr} {s t : State} (h : exec i s = .next t) : t.cfg = s.cfg := by
  cases i with
  | idle => exact cfg_of_next h (ite_cfg (driverActs_cfg (interleave s)))
  | setupFrame => exact cfg_of_next h (openFrame_cfg s)
  | catchup => exact cfg_of_next h rfl
  | leadin => exact execLeadin_cfg h
  | basesnap => exact cfg_of_next h rfl
  | lateguard => exact cfg_of_next h (ite_cfg (reloadLines_cfg s))
  | active => exact execActive_cfg h
  | objcap => exact cfg_of_next h (callHook_cfg .frameMid _)
  | vblank => exact cfg_of_next h (callDraw_cfg _)
  | drain => exact cfg_of_next h (runTo_cfg s.cyclesPerFrame _)
  | drift => exact cfg_of_next h (callHook_cfg .frameEnd _)
  | frameend => exact cfg_of_next h (callAudio_cfg .audioEnd _)
  | sched => exact cfg_of_next h (schedule_cfg s)
  | dispatch => exact (dispatch_only h).cfg
  | run n => exact cfg_of_next h (run_cfg n s)
  | idlecyc n => exact cfg_of_next h (idleCycles_cfg n s)
  | snapcopy i => exact execSnapcopy_cfg h
  | setup => exact cfg_of_next h (ite_cfg (finishSetup_cfg _ _))
  | fullreset => exact cfg_of_next h (ite_cfg (fullReset_cfg s))
  | teardown => exact cfg_of_next h (ite_cfg (callHook_cfg .preExit s))
  | hookreg k present => exact cfg_of_next h (ite_cfg rfl)
  | ctrl w => exact cfg_of_next h (storeWord_cfg offCtrl w s)
  | trigP w => exact cfg_of_next h (storeWord_cfg offTrigP w s)
  | trigS w => exact cfg_of_next h (storeWord_cfg offTrigS w s)

/-- Taking an operation off the port touches only the port. -/
theorem fetch_cfg {i : Instr} {s u : State} (h : fetch s = .ok (i, u)) : u.cfg = s.cfg := by
  unfold fetch at h
  split at h
  next => cases h; rfl
  next =>
    split at h
    next => cases h
    next => cases h; rfl

/-- A step that answers next has fetched an operation and performed it. -/
theorem step_next {s t : State} : step s = .next t ↔ ∃ i u, fetch s = .ok (i, u) ∧ exec i u = .next t := by
  unfold step
  cases hf : fetch s with
  | error e => simp
  | ok iu => exact ⟨fun h => ⟨iu.1, iu.2, rfl, h⟩, fun ⟨i, u, hiu, h⟩ => by cases hiu; exact h⟩

/-- Settles O10: the fetch keeps the parameters, and so does each operation. -/
theorem parametersNeverChange : Obligations.ParametersNeverChange := by
  unfold Obligations.ParametersNeverChange
  intro s t h
  obtain ⟨i, u, hfetch, hexec⟩ := step_next.1 h
  exact (exec_cfg hexec).trans (fetch_cfg hfetch)

end Sys2Proof.Machine

/-! PROOFS. Bytes and words of an address space (20_memory.md R60, R62). -/

namespace Sys2Proof.Machine

/-! ## Reads of a canonical memory -/

theorem Memory.wfAbove_cons {low a : Nat} {x : Byte} {m : Memory} :
    Memory.wfAbove low ((a, x) :: m) = true ↔ low ≤ a ∧ x ≠ Memory.unlisted ∧ Memory.wfAbove (a + 1) m = true := by
  simp [Memory.wfAbove, and_assoc]

@[simp] theorem Memory.read_nil (a : Nat) : Memory.read [] a = Memory.unlisted := rfl

@[simp] theorem Memory.read_cons_self (a : Nat) (x : Byte) (m : Memory) : Memory.read ((a, x) :: m) a = x := if_pos rfl

theorem Memory.read_cons_of_ne {a b : Nat} (h : b ≠ a) (x : Byte) (m : Memory) :
    Memory.read ((a, x) :: m) b = m.read b := if_neg h

/-- No offset below those listed has a byte. -/
theorem Memory.read_of_lt {low a : Nat} {m : Memory} (hm : Memory.wfAbove low m = true) (ha : a < low) :
    m.read a = Memory.unlisted := by
  induction m generalizing low with
  | nil => rfl
  | cons c rest ih =>
    obtain ⟨b, x⟩ := c
    obtain ⟨hb, -, hrest⟩ := Memory.wfAbove_cons.1 hm
    rw [Memory.read_cons_of_ne (by omega)]
    exact ih hrest (by omega)

theorem Memory.low_le_of_read_ne {low a : Nat} {m : Memory} (hm : Memory.wfAbove low m = true)
    (ha : m.read a ≠ Memory.unlisted) : low ≤ a :=
  Nat.le_of_not_lt fun hlt => ha (Memory.read_of_lt hm hlt)

/-- The three places a store can fall in: before the first entry, on it, after it. Storing what an unlisted byte reads as leaves
no entry at the offset, and the order of the list says that no later entry has it either. -/
theorem Memory.read_write_of_wfAbove {low : Nat} {m : Memory} (hm : Memory.wfAbove low m = true) (a b : Nat) (v : Byte) :
    (m.write a v).read b = if b = a then v else m.read b := by
  induction m generalizing low with
  | nil => by_cases hv : v = Memory.unlisted <;> simp [Memory.write, Memory.read, hv]
  | cons c rest ih =>
    obtain ⟨d, x⟩ := c
    obtain ⟨-, hx, hrest⟩ := Memory.wfAbove_cons.1 hm
    rcases lt_trichotomy a d with hlt | rfl | hgt
    · have habsent : Memory.read ((d, x) :: rest) a = Memory.unlisted :=
        Memory.read_of_lt (Memory.wfAbove_cons.2 ⟨le_rfl, hx, hrest⟩) hlt
      rw [Memory.write, if_pos hlt]
      split_ifs <;> simp_all [Memory.read_cons_of_ne]
    · have habsent : Memory.read rest a = Memory.unlisted := Memory.read_of_lt hrest (Nat.lt_succ_self a)
      rw [Memory.write, if_neg (lt_irrefl a), if_pos rfl]
      split_ifs <;> simp_all [Memory.read_cons_of_ne]
    · rw [Memory.write, if_neg hgt.not_gt, if_neg hgt.ne']
      by_cases hb : b = d
      · rw [hb, Memory.read_cons_self, Memory.read_cons_self, if_neg hgt.ne]
      · rw [Memory.read_cons_of_ne hb, Memory.read_cons_of_ne hb, ih hrest]

theorem Memory.read_write {m : Memory} (hm : m.wf = true) (a b : Nat) (v : Byte) :
    (m.write a v).read b = if b = a then v else m.read b :=
  Memory.read_write_of_wfAbove hm a b v

theorem Memory.read_write_self {m : Memory} (hm : m.wf = true) (a : Nat) (v : Byte) : (m.write a v).read a = v := by
  rw [Memory.read_write hm, if_pos rfl]

theorem Memory.read_write_of_ne {m : Memory} (hm : m.wf = true) {a b : Nat} (h : b ≠ a) (v : Byte) :
    (m.write a v).read b = m.read b := by
  rw [Memory.read_write hm, if_neg h]

/-- Settles O11, from the three places a store can fall in. -/
theorem memoryReadsWhatWasWritten : Obligations.MemoryReadsWhatWasWritten := by
  unfold Obligations.MemoryReadsWhatWasWritten
  intro m a b v hm
  exact Memory.read_write hm a b v

/-! ## The canonical form is determined by the reads -/

/-- The first entry of a canonical list stands at the least offset that reads as something else than an unlisted byte does, so
two lists that read the same have the same first entry, and their tails read the same again. -/
theorem Memory.eq_of_read_eq {low : Nat} {m m' : Memory} (hm : Memory.wfAbove low m = true)
    (hm' : Memory.wfAbove low m' = true) (h : ∀ a, m.read a = m'.read a) : m = m' := by
  induction m generalizing low m' with
  | nil =>
    cases m' with
    | nil => rfl
    | cons c' rest' =>
      obtain ⟨-, hx', -⟩ := Memory.wfAbove_cons.1 hm'
      exact absurd ((h c'.1).trans (Memory.read_cons_self ..)).symm hx'
  | cons c rest ih =>
    obtain ⟨a, x⟩ := c
    obtain ⟨-, hx, hrest⟩ := Memory.wfAbove_cons.1 hm
    have hread : m'.read a = x := (h a).symm.trans (Memory.read_cons_self ..)
    cases m' with
    | nil => exact absurd hread.symm hx
    | cons c' rest' =>
      obtain ⟨a', x'⟩ := c'
      obtain ⟨-, hx', hrest'⟩ := Memory.wfAbove_cons.1 hm'
      have hread' : Memory.read ((a, x) :: rest) a' = x' := (h a').trans (Memory.read_cons_self ..)
      have hle' : a' ≤ a :=
        Memory.low_le_of_read_ne (Memory.wfAbove_cons.2 ⟨le_rfl, hx', hrest'⟩) (by rwa [hread])
      have hle : a ≤ a' :=
        Memory.low_le_of_read_ne (Memory.wfAbove_cons.2 ⟨le_rfl, hx, hrest⟩) (by rwa [hread'])
      obtain rfl : a = a' := le_antisymm hle hle'
      obtain rfl : x' = x := (Memory.read_cons_self ..).symm.trans hread
      have htails : ∀ b, Memory.read rest b = Memory.read rest' b := fun b => by
        by_cases hb : b = a
        · rw [hb, Memory.read_of_lt hrest (Nat.lt_succ_self a), Memory.read_of_lt hrest' (Nat.lt_succ_self a)]
        · simpa only [Memory.read_cons_of_ne hb] using h b
      rw [ih hrest hrest' htails]

/-- Settles O12: the lists agree entry by entry. -/
theorem canonicalMemoriesAreEqual : Obligations.CanonicalMemoriesAreEqual := by
  unfold Obligations.CanonicalMemoriesAreEqual
  intro m m' hm hm' h
  exact Memory.eq_of_read_eq hm hm' h

/-! ## Big-endian words -/

theorem joinBytes_toNat (hi lo : Byte) : (joinBytes hi lo).toNat = hi.toNat * 256 + lo.toNat := by
  rw [joinBytes, BitVec.toNat_append, ← Nat.shiftLeft_add_eq_or_of_lt lo.isLt, Nat.shiftLeft_eq]

theorem joinBytes_getLsbD_high (hi lo : Byte) (i : Nat) : (joinBytes hi lo).getLsbD (8 + i) = hi.getLsbD i := by
  rw [joinBytes, BitVec.getLsbD_append]
  simp

theorem highByte_toNat (w : Word) : (highByte w).toNat = w.toNat / 256 := by
  have hw := w.isLt
  rw [highByte, BitVec.extractLsb'_toNat, Nat.shiftRight_eq_div_pow]
  omega

theorem lowByte_toNat (w : Word) : (lowByte w).toNat = w.toNat % 256 := by
  rw [lowByte, BitVec.extractLsb'_toNat, Nat.shiftRight_zero]

theorem joinBytes_highByte_lowByte (w : Word) : joinBytes (highByte w) (lowByte w) = w := by
  apply BitVec.eq_of_toNat_eq
  rw [joinBytes_toNat, highByte_toNat, lowByte_toNat, Nat.div_add_mod']

/-- `BSD`, bit 9 of the control word, is bit 1 of its first byte (R62). -/
theorem decodeCtrl_joinBytes (hi lo : Byte) : decodeCtrl (joinBytes hi lo) = hi.getLsbD 1 :=
  joinBytes_getLsbD_high hi lo 1

/-- `AUTO` is bit 7 of the first byte; `LINE` is bit 0 of the first byte, then the second byte (R62). -/
theorem decodeTrig_joinBytes (hi lo : Byte) :
    decodeTrig (joinBytes hi lo) = (hi.getLsbD 7, (hi.getLsbD 0).toNat * 256 + lo.toNat) := by
  have hlo := lo.isLt
  have hline : (hi.toNat * 256 + lo.toNat) % 2 ^ 9 = hi.toNat % 2 * 256 + lo.toNat := by omega
  have hbit : (hi.getLsbD 0).toNat = hi.toNat % 2 := by
    rw [BitVec.getLsbD, Nat.toNat_testBit, pow_zero, Nat.div_one]
  rw [decodeTrig, BitVec.extractLsb'_toNat, Nat.shiftRight_zero, joinBytes_toNat, hline, hbit]
  exact Prod.ext (joinBytes_getLsbD_high hi lo 7) rfl

section Write16
variable {m : Memory} (hm : m.wf = true) (off : Nat) (v : Word)
include hm

theorem Memory.read_write16_high : (m.write16 off v).read off = highByte v := by
  rw [Memory.write16, Memory.read_write_of_ne (Memory.write_wf off _ hm) (Nat.ne_of_lt (Nat.lt_succ_self off)),
    Memory.read_write_self hm]

theorem Memory.read_write16_low : (m.write16 off v).read (off + 1) = lowByte v :=
  Memory.read_write_self (Memory.write_wf off _ hm) (off + 1) _

theorem Memory.read_write16_of_ne {a : Nat} (hhigh : a ≠ off) (hlow : a ≠ off + 1) :
    (m.write16 off v).read a = m.read a := by
  rw [Memory.write16, Memory.read_write_of_ne (Memory.write_wf off _ hm) hlow, Memory.read_write_of_ne hm hhigh]

theorem Memory.read16_write16 : (m.write16 off v).read16 off = v := by
  rw [Memory.read16, Memory.read_write16_high hm, Memory.read_write16_low hm, joinBytes_highByte_lowByte]

end Write16

/-- Settles O6: `joinBytes` puts the fields in their places, and a word store is two byte stores. -/
theorem registerWordsAreBigEndian : Obligations.RegisterWordsAreBigEndian := by
  unfold Obligations.RegisterWordsAreBigEndian
  intro m off v
  refine ⟨joinBytes_toNat _ _, decodeCtrl_joinBytes _ _, decodeTrig_joinBytes _ _, fun hm => ?_⟩
  refine ⟨Memory.write16_wf off v hm, ?_, ?_, ?_⟩
  · rw [Memory.read_write16_high hm, highByte_toNat]
  · rw [Memory.read_write16_low hm, lowByte_toNat]
  · exact fun a => Memory.read_write16_of_ne hm off v

/-! ## Stores to the register words -/

/-- Between frames a register word is stored (R34, R35, R66 (c)). -/
theorem storeWord_of_idle {s : State} (h : s.phase = .idle) (off : Nat) (w : Word) :
    storeWord off w s = { s with rf := s.rf.write16 off w } :=
  if_pos (by rw [betweenFrames, h]; rfl)

/-- Within a frame it is not (log entry 11). -/
theorem storeWord_of_ne_idle {s : State} (h : s.phase ≠ .idle) (off : Nat) (w : Word) : storeWord off w s = s :=
  if_neg (by simpa [betweenFrames] using h)

/-- Settles O51: each of the three operations is `storeWord` at its own offset. -/
theorem registerWordStores : Obligations.RegisterWordStores := by
  unfold Obligations.RegisterWordStores
  intro w s i off hi
  have hexec : exec i s = .next (storeWord off w s) := by
    simp only [List.mem_cons, List.not_mem_nil, or_false, Prod.mk.injEq] at hi
    rcases hi with ⟨rfl, rfl⟩ | ⟨rfl, rfl⟩ | ⟨rfl, rfl⟩ <;> rfl
  refine ⟨fun h => by rw [hexec, storeWord_of_ne_idle h], fun h hwf => ?_⟩
  rw [storeWord_of_idle h] at hexec
  exact ⟨_, hexec, rfl, Memory.read16_write16 hwf off w, fun a ha =>
    Memory.read_write16_of_ne hwf off w (by omega) (by omega)⟩

/-! ## Any image can be left behind -/

theorem Memory.patch_append (size : Nat) (m : Memory) (cells cells' : List Host.Cell) :
    m.patch size (cells ++ cells') = (m.patch size cells).patch size cells' := by
  induction cells generalizing m with
  | nil => rfl
  | cons c rest ih => exact ih _

/-- A byte stored before every listed offset becomes the first entry. -/
theorem Memory.write_of_wfAbove {a : Nat} {x : Byte} {m : Memory} (hx : x ≠ Memory.unlisted)
    (hm : Memory.wfAbove (a + 1) m = true) : m.write a x = (a, x) :: m := by
  cases m with
  | nil => exact if_neg hx
  | cons c rest =>
    obtain ⟨b, y⟩ := c
    obtain ⟨hb, -, -⟩ := Memory.wfAbove_cons.1 hm
    rw [Memory.write, if_pos (Nat.lt_of_succ_le hb), if_neg hx]

theorem Memory.write_head_unlisted (a : Nat) (x : Byte) (m : Memory) : Memory.write ((a, x) :: m) a Memory.unlisted = m := by
  rw [Memory.write, if_neg (lt_irrefl a), if_pos rfl, if_pos rfl]

theorem Memory.within_cons {size a : Nat} {x : Byte} {m : Memory} :
    Memory.within size ((a, x) :: m) = true ↔ a < size ∧ m.within size = true := by
  simp [Memory.within]

/-- The stores that turn the image `m` into `m'`: every listed byte of `m` is stored away, then the entries of `m'` are stored,
the last one first. -/
def Memory.replacement (m m' : Memory) : List Host.Cell := m.map (fun cell => (cell.1, Memory.unlisted)) ++ m'.reverse

theorem Memory.patch_erase {size : Nat} {m : Memory} (hm : m.within size = true) :
    m.patch size (m.map fun cell => (cell.1, Memory.unlisted)) = [] := by
  induction m with
  | nil => rfl
  | cons c rest ih =>
    obtain ⟨a, x⟩ := c
    obtain ⟨ha, hrest⟩ := Memory.within_cons.1 hm
    rw [List.map_cons, Memory.patch, if_pos ha, Memory.write_head_unlisted]
    exact ih hrest

theorem Memory.patch_reverse {size low : Nat} {m : Memory} (hwf : Memory.wfAbove low m = true) (hm : m.within size = true) :
    Memory.patch size [] m.reverse = m := by
  induction m generalizing low with
  | nil => rfl
  | cons c rest ih =>
    obtain ⟨a, x⟩ := c
    obtain ⟨ha, hrest⟩ := Memory.within_cons.1 hm
    obtain ⟨-, hx, hwfRest⟩ := Memory.wfAbove_cons.1 hwf
    rw [List.reverse_cons, Memory.patch_append, ih hwfRest hrest, Memory.patch, if_pos ha, Memory.write_of_wfAbove hx hwfRest]
    rfl

theorem Memory.patch_replacement {size : Nat} {m m' : Memory} (hm : ImageOk size m) (hm' : ImageOk size m') :
    m.patch size (m.replacement m') = m' := by
  obtain ⟨-, hwithin⟩ := hm
  obtain ⟨hwf', hwithin'⟩ := hm'
  rw [Memory.replacement, Memory.patch_append, Memory.patch_erase hwithin, Memory.patch_reverse hwf' hwithin']

/-- The answer to a `Run(n)` that reports `e` cycles and leaves the images `rf` and `aux` (R66, R170). -/
def runAnswer (n e : Int) (s : State) (rf aux : Memory) : Answer where
  overrun := (e - n).toNat
  rf := s.rf.replacement rf
  aux := s.aux.replacement aux

theorem reported_runAnswer {n e : Int} {s : State} (rf aux : Memory) (hlow : n ≤ e) (hhigh : e ≤ n + s.cfg.runOverMax) :
    reported n { s with answers := [runAnswer n e s rf aux] } = e := by
  have hcut : min (e - n).toNat s.cfg.runOverMax = (e - n).toNat := by omega
  change n + ((min (e - n).toNat s.cfg.runOverMax : Nat) : Int) = e
  omega

/-- Settles O24 with the answer `runAnswer`, which overruns by what is left and stores both images anew. -/
theorem runAdmitsEveryAnswer : Obligations.RunAdmitsEveryAnswer := by
  unfold Obligations.RunAdmitsEveryAnswer
  intro n e s rf aux hn hlow hhigh hs hrf haux
  refine ⟨runAnswer n e s rf aux, _, rfl, ?_⟩
  rw [run_of_pos hn, reported_runAnswer rf aux hlow hhigh]
  exact ⟨rfl, Memory.patch_replacement hs.rf hrf, Memory.patch_replacement hs.aux haux⟩

/-! ## `SnapCopy` and the environment's move -/

/-- Settles O27, slot by slot. -/
theorem snapcopyResult : Obligations.SnapcopyResult := by
  unfold Obligations.SnapcopyResult
  intro i s hi _
  have hexec : exec (.snapcopy i) s = .next (snapCopy i s) := if_pos (of_decide_eq_true hi)
  refine ⟨_, hexec, rfl, snapCopy_snaps_length i s, fun j slot hslot => ?_⟩
  rw [snapCopy_getElem?, hslot]
  by_cases hij : i = j
  · rw [if_pos hij, if_pos hij.symm]; rfl
  · rw [if_neg hij, if_neg (Ne.symm hij)]

/-- Settles O29: the move is a record update of these fields alone. -/
theorem environmentOnlyMovesItsOwn : Obligations.EnvironmentOnlyMovesItsOwn := by
  unfold Obligations.EnvironmentOnlyMovesItsOwn
  intro s
  rfl

end Sys2Proof.Machine

/-! PROOFS. Every step keeps the form of the stored data (20_memory.md R60, 10_state.md R30). -/

namespace Sys2Proof.Machine

/-! ## The parts of an operation -/

/-- The form looks at the parameters, the store and the two images, and at nothing else of the state. -/
theorem Stored.of_eq {s t : State} (h : Stored s) (hcfg : t.cfg = s.cfg) (hsnaps : t.snaps = s.snaps) (hrf : t.rf = s.rf)
    (haux : t.aux = s.aux) : Stored t :=
  ⟨by rw [hsnaps, hcfg]; exact h.capacity, by rw [hrf, hcfg]; exact h.rf, by rw [haux]; exact h.aux,
    by rw [hsnaps, hcfg]; exact h.slots⟩

theorem stored_withPhase {s : State} (p : Phase) (h : Stored s) : Stored { s with phase := p } := h.of_eq rfl rfl rfl rfl

theorem stored_idleCycles {s : State} (n : Int) (h : Stored s) : Stored (idleCycles n s) := h.of_eq rfl rfl rfl rfl

theorem stored_irqAssert {s : State} (level : Nat) (h : Stored s) : Stored (irqAssert level s) := h.of_eq rfl rfl rfl rfl

theorem stored_raiseException {s : State} (e : BlockException) (h : Stored s) : Stored (raiseException e s) :=
  h.of_eq rfl rfl rfl rfl

theorem stored_reloadLines {s : State} (h : Stored s) : Stored (reloadLines s) := h.of_eq rfl rfl rfl rfl

theorem stored_driverActs {s : State} (h : Stored s) : Stored (driverActs s) :=
  h.of_eq (driverActs_cfg s) (driverActs_snaps s) (driverActs_rf s) (driverActs_aux s)

theorem stored_callDraw {s : State} (h : Stored s) : Stored (callDraw s) := by
  unfold callDraw
  split
  next => exact h
  next => exact stored_signal .draw h

/-- The clear of phase 1 keeps the number of the slots and fills them with images in the form (R174). -/
theorem stored_loadFrame {s : State} (h : Stored s) : Stored (loadFrame s) :=
  ⟨(clearSlots_length ..).trans h.capacity, h.rf, h.aux, fun _ hslot => (clearSlots_clear hslot).2.2⟩

theorem stored_finishSetup {s : State} (c : Int) (h : Stored s) : Stored (finishSetup c s) := by
  unfold finishSetup
  split
  next => exact stored_raiseException _ h
  next => exact (stored_callHook .postInit h).of_eq rfl rfl rfl rfl

/-- The three register words lie inside the register file, which has at least 0x54 bytes (R7, R68). -/
theorem stored_storeWord {s : State} {off : Nat} (w : Word) (hoff : off + 1 < 0x54) (h : Stored s) :
    Stored (storeWord off w s) := by
  have hspace : off + 1 < s.cfg.regfileBytes := Nat.lt_of_lt_of_le hoff (Nat.le_add_left 0x54 s.cfg.regfileExtra)
  unfold storeWord
  split
  next => exact ⟨h.capacity, h.rf.write16 w hspace, h.aux, h.slots⟩
  next => exact h

theorem stored_leadinDispatch {s t : State} (h : Stored s) (ht : leadinDispatch s = .next t) : Stored t := by
  unfold leadinDispatch at ht
  split at ht
  next => exact stored_dispatch (stored_runTo s.nextCycle h) ht
  next => cases ht; exact h

theorem stored_runSegment {b : Int} {fuel : Nat} {s t : State} (h : Stored s) (ht : runSegment b fuel s = .next t) :
    Stored t := by
  induction fuel generalizing s with
  | zero => cases ht
  | succ fuel ih =>
    rw [runSegment_succ] at ht
    split at ht
    next =>
      obtain ⟨u, hu, ht⟩ := andThen_next.1 ht
      exact ih (stored_dispatch (stored_runTo s.nextCycle h) hu) ht
    next => cases ht; exact stored_runTo b h

theorem stored_activeSegment {k : Seg} {s t : State} (h : Stored s) (ht : activeSegment k s = .next t) : Stored t := by
  have hseg : Stored { s with seg := k } := h.of_eq rfl rfl rfl rfl
  exact stored_runSegment hseg ht

/-! ## Operations, fetch and step -/

theorem stored_ite {p : Prop} [Decidable p] {s u : State} (hs : Stored s) (hu : Stored u) : Stored (if p then u else s) := by
  split
  next => exact hu
  next => exact hs

/-- Where an operation answers next by its definition, only the state it answers matters. -/
theorem stored_of_next {t u : State} (h : (.next u : Result) = .next t) (hu : Stored u) : Stored t := by
  cases h; exact hu

theorem stored_execLeadin {s t : State} (h : Stored s) (ht : execLeadin s = .next t) : Stored t := by
  obtain ⟨u, hu, ht⟩ := andThen_next.1 ht
  have hentry := stored_leadinDispatch (stored_withPhase .leadin h) hu
  exact stored_of_next ht (stored_withPhase .basesnap (stored_runTo _ hentry))

theorem stored_execActive {s t : State} (h : Stored s) (ht : execActive s = .next t) : Stored t := by
  obtain ⟨u₁, h₁, ht⟩ := andThen_next.1 ht
  obtain ⟨u₂, h₂, ht⟩ := andThen_next.1 ht
  obtain ⟨u₃, h₃, ht⟩ := andThen_next.1 ht
  have hone := stored_activeSegment (stored_withPhase .active h) h₁
  have htwo := stored_activeSegment hone h₂
  have hthree := stored_activeSegment htwo h₃
  exact stored_of_next ht (stored_withPhase .objcap hthree)

theorem stored_execSnapcopy {i : Nat} {s t : State} (h : Stored s) (ht : execSnapcopy i s = .next t) : Stored t := by
  unfold execSnapcopy at ht
  split at ht
  next => exact stored_of_next ht (stored_snapCopy i h)
  next => cases ht

theorem stored_exec {i : Instr} {s t : State} (h : Stored s) (ht : exec i s = .next t) : Stored t := by
  cases i with
  | idle => exact stored_of_next ht (stored_ite h (stored_driverActs (stored_interleave h)))
  | setupFrame => exact stored_of_next ht (stored_withPhase .catchup (stored_loadFrame (stored_openFrame h)))
  | catchup => exact stored_of_next ht (stored_withPhase .leadin (stored_idleCycles s.carry (stored_withPhase .catchup h)))
  | leadin => exact stored_execLeadin h ht
  | basesnap => exact stored_of_next ht (stored_withPhase .lateguard (stored_snapCopy 0 (stored_withPhase .basesnap h)))
  | lateguard => exact stored_of_next ht (stored_withPhase .active (stored_ite h (stored_reloadLines h)))
  | active => exact stored_execActive h ht
  | objcap =>
    have hhook := stored_callHook .frameMid (stored_withPhase .objcap h)
    exact stored_of_next ht (stored_withPhase .vblank (stored_signal .objCapture hhook))
  | vblank =>
    have hirq := stored_irqAssert s.cfg.vblankIrqLevel (stored_withPhase .vblank h)
    exact stored_of_next ht (stored_withPhase .drain (stored_callDraw hirq))
  | drain => exact stored_of_next ht (stored_withPhase .drift (stored_runTo s.cyclesPerFrame (stored_withPhase .drain h)))
  | drift =>
    have hcarry : Stored { s with phase := .drift, carry := s.executedTotal - s.cyclesPerFrame } := h.of_eq rfl rfl rfl rfl
    exact stored_of_next ht (stored_withPhase .frameend (stored_callHook .frameEnd (stored_emit .ctxRelease hcarry)))
  | frameend => exact stored_of_next ht (stored_withPhase .idle (stored_callAudio .audioEnd (stored_withPhase .frameend h)))
  | sched => exact stored_of_next ht (stored_schedule h)
  | dispatch => exact stored_dispatch h ht
  | run n => exact stored_of_next ht (stored_run n h)
  | idlecyc n => exact stored_of_next ht (stored_idleCycles n h)
  | snapcopy i => exact stored_execSnapcopy h ht
  | setup =>
    have hfresh := stored_signal .subsysInit (stored_unspecify s (answer s).fresh)
    exact stored_of_next ht (stored_ite h (stored_finishSetup (answer s).code hfresh))
  | fullreset => exact stored_of_next ht (stored_ite h (stored_fullReset h))
  | teardown => exact stored_of_next ht (stored_ite h (stored_unspecify _ _))
  | hookreg k present => exact stored_of_next ht (stored_ite h (h.of_eq rfl rfl rfl rfl))
  | ctrl w => exact stored_of_next ht (stored_storeWord w (by decide) h)
  | trigP w => exact stored_of_next ht (stored_storeWord w (by decide) h)
  | trigS w => exact stored_of_next ht (stored_storeWord w (by decide) h)

/-- Taking an operation off the port touches only the port. -/
theorem stored_fetch {i : Instr} {s u : State} (h : Stored s) (hf : fetch s = .ok (i, u)) : Stored u := by
  unfold fetch at hf
  split at hf
  next => cases hf; exact h
  next =>
    split at hf
    next => cases hf
    next => cases hf; exact h.of_eq rfl rfl rfl rfl

/-- Settles O13: the fetch keeps the form, and so does each operation. -/
theorem storedFormKept : Obligations.StoredFormKept := by
  unfold Obligations.StoredFormKept
  intro s t h hstep
  obtain ⟨i, u, hfetch, hexec⟩ := step_next.1 hstep
  exact stored_exec (stored_fetch h hfetch) hexec

end Sys2Proof.Machine

/-! PROOFS. No operation looks at a byte of the auxiliary block (20_memory.md R61). -/

namespace Sys2Proof.Machine

/-! ## Updates and operations that are blind to the auxiliary block -/

/-- The slot without its copy of the auxiliary block. -/
def slotWithoutAux (slot : Slot) : Slot := { slot with auxCopy := [] }

/-- The outcome, but for the auxiliary block and its copies. -/
def outcomeWithoutAux (r : Result) : Result := andThen r fun u => .next (withoutAux u)

/-- But for the auxiliary block, what `F` makes of a state does not depend on the auxiliary block. -/
def AuxBlind (F : State → State) : Prop := ∀ s, withoutAux (F (withoutAux s)) = withoutAux (F s)

/-- The same of an operation that may stop: it ends the same way, too. -/
def AuxBlindOp (f : State → Result) : Prop := ∀ s, outcomeWithoutAux (f (withoutAux s)) = outcomeWithoutAux (f s)

@[simp] theorem withoutAux_idem (s : State) : withoutAux (withoutAux s) = withoutAux s := by
  simp [withoutAux]

/-- The shape of an update that carries the auxiliary block and its copies along. -/
theorem AuxBlind.of_carried {F : State → State} (h : ∀ s, withoutAux (F (withoutAux s)) = withoutAux (withoutAux (F s))) :
    AuxBlind F :=
  fun s => (h s).trans (withoutAux_idem (F s))

theorem AuxBlind.id : AuxBlind fun s => s := withoutAux_idem

theorem AuxBlind.comp {F G : State → State} (hF : AuxBlind F) (hG : AuxBlind G) : AuxBlind fun s => F (G s) := fun s =>
  calc withoutAux (F (G (withoutAux s)))
    _ = withoutAux (F (withoutAux (G (withoutAux s)))) := (hF _).symm
    _ = withoutAux (F (withoutAux (G s))) := by rw [hG s]
    _ = withoutAux (F (G s)) := hF _

/-- A guard may look at anything else. -/
theorem AuxBlind.ite {c : State → Prop} [DecidablePred c] {F G : State → State} (hc : ∀ s, c (withoutAux s) ↔ c s)
    (hF : AuxBlind F) (hG : AuxBlind G) : AuxBlind fun s => if c s then F s else G s := by
  intro s
  by_cases h : c s
  · simpa only [if_pos h, if_pos ((hc s).2 h)] using hF s
  · simpa only [if_neg h, if_neg (mt (hc s).1 h)] using hG s

theorem AuxBlindOp.next {F : State → State} (hF : AuxBlind F) : AuxBlindOp fun s => .next (F s) := fun s =>
  congrArg Host.Outcome.next (hF s)

theorem AuxBlindOp.fault (x : Fault) : AuxBlindOp fun _ => .fault x := fun _ => rfl

theorem AuxBlindOp.comp {f : State → Result} {G : State → State} (hf : AuxBlindOp f) (hG : AuxBlind G) :
    AuxBlindOp fun s => f (G s) := fun s =>
  calc outcomeWithoutAux (f (G (withoutAux s)))
    _ = outcomeWithoutAux (f (withoutAux (G (withoutAux s)))) := (hf _).symm
    _ = outcomeWithoutAux (f (withoutAux (G s))) := by rw [hG s]
    _ = outcomeWithoutAux (f (G s)) := hf _

/-- After a blind operation, a blind one sees the outcome only through what is left of it without the auxiliary block. -/
theorem AuxBlindOp.outcome_andThen {g : State → Result} (hg : AuxBlindOp g) (r : Result) :
    outcomeWithoutAux (andThen (outcomeWithoutAux r) g) = outcomeWithoutAux (andThen r g) := by
  cases r with
  | next u => exact hg u
  | fault x => rfl
  | refused x => rfl

theorem AuxBlindOp.andThen {f g : State → Result} (hf : AuxBlindOp f) (hg : AuxBlindOp g) :
    AuxBlindOp fun s => andThen (f s) g := by
  intro s
  rw [← hg.outcome_andThen (f (withoutAux s)), hf s, hg.outcome_andThen]

theorem AuxBlindOp.ite {c : State → Prop} [DecidablePred c] {f g : State → Result} (hc : ∀ s, c (withoutAux s) ↔ c s)
    (hf : AuxBlindOp f) (hg : AuxBlindOp g) : AuxBlindOp fun s => if c s then f s else g s := by
  intro s
  by_cases h : c s
  · simpa only [if_pos h, if_pos ((hc s).2 h)] using hf s
  · simpa only [if_neg h, if_neg (mt (hc s).1 h)] using hg s

/-! ## Events and the processor -/

theorem auxBlind_emit (e : Event) : AuxBlind (emit e) := .of_carried fun _ => rfl

/-- The environment stores into the auxiliary block, and what else it does depends on its answer only. -/
theorem auxBlind_interleave : AuxBlind interleave := .of_carried fun _ => rfl

theorem auxBlind_signal (e : Event) : AuxBlind (signal e) := auxBlind_interleave.comp (auxBlind_emit e)

theorem auxBlind_callHook (k : Hook) : AuxBlind (callHook k) := .ite (fun _ => Iff.rfl) (auxBlind_signal _) .id

theorem auxBlind_callAudio (e : Event) : AuxBlind (callAudio e) := .ite (fun _ => Iff.rfl) .id (auxBlind_signal e)

theorem auxBlind_callDraw : AuxBlind callDraw := .ite (fun _ => Iff.rfl) .id (auxBlind_signal .draw)

theorem auxBlind_irqAssert (level : Nat) : AuxBlind (irqAssert level) := .of_carried fun _ => rfl

theorem auxBlind_execute : AuxBlind execute := .of_carried fun _ => rfl

theorem auxBlind_run (n : Int) : AuxBlind (run n) := by
  have hreport (e total : Int) : AuxBlind fun s => { emit (.runAck e) s with executedTotal := total } :=
    .of_carried fun _ => rfl
  have hexecute := auxBlind_execute.comp (auxBlind_emit (.runReq n))
  exact .ite (fun _ => Iff.rfl) .id fun s => (hreport (reported n s) (s.executedTotal + reported n s)).comp hexecute s

theorem auxBlind_runTo (t : Int) : AuxBlind (runTo t) :=
  .ite (fun _ => Iff.rfl) (fun s => auxBlind_run (t - s.executedTotal) s) .id

/-- A `RunTo` whose goal stands in the state. -/
theorem auxBlind_runTo_nextCycle : AuxBlind fun s => runTo s.nextCycle s := fun s => auxBlind_runTo s.nextCycle s

theorem auxBlind_idleCycles (n : Int) : AuxBlind (idleCycles n) := .of_carried fun _ => rfl

theorem auxBlind_cpuReset : AuxBlind cpuReset := .of_carried fun _ => rfl

/-! ## The snapshot store -/

/-- An update of one slot commutes with forgetting the copies, where it does so on each slot. -/
theorem map_modify_slotWithoutAux {g g' : Slot → Slot}
    (hg : ∀ slot, slotWithoutAux (g' (slotWithoutAux slot)) = slotWithoutAux (g slot)) (l : List Slot) (i : Nat) :
    ((l.map slotWithoutAux).modify i g').map slotWithoutAux = (l.modify i g).map slotWithoutAux := by
  apply List.ext_getElem?
  intro j
  simp only [List.getElem?_map, List.getElem?_modify]
  cases l[j]? with
  | none => rfl
  | some slot =>
    by_cases hij : i = j
    · simp only [if_pos hij]
      exact congrArg some (hg slot)
    · simp only [if_neg hij]
      rfl

theorem auxBlind_snapCopy (i : Nat) : AuxBlind (snapCopy i) := by
  intro s
  have hslots := map_modify_slotWithoutAux (g := fun slot => { slot with regCopy := s.rf, auxCopy := s.aux, populated := true })
    (g' := fun slot => { slot with regCopy := s.rf, auxCopy := [], populated := true }) (fun _ => rfl) s.snaps i
  exact congrArg (fun l => { withoutAux s with snaps := l }) hslots

theorem auxBlind_setRaster (i : Nat) (v : Int) : AuxBlind (setRaster i v) := by
  intro s
  have hslots := map_modify_slotWithoutAux (g := fun slot => { slot with rasterLine := v })
    (g' := fun slot => { slot with rasterLine := v }) (fun _ => rfl) s.snaps i
  exact congrArg (fun l => { withoutAux s with snaps := l }) hslots

/-- The clear of phase 1 looks only at how many slots there are. -/
theorem clearSlots_map (c : Config) (fill i : Nat) (f : Slot → Slot) (l : List Slot) :
    clearSlots c fill i (l.map f) = clearSlots c fill i l := by
  induction l generalizing i with
  | nil => rfl
  | cons slot rest ih => exact congrArg (List.cons _) (ih (i + 1))

/-! ## Exceptions, allocation and full reset -/

theorem auxBlind_raiseException (e : BlockException) : AuxBlind (raiseException e) := .of_carried fun _ => rfl

theorem auxBlind_unspecify (c : Contents) : AuxBlind (unspecify c) := fun _ => rfl

theorem auxBlind_fullReset : AuxBlind fullReset := by
  have hwords : AuxBlind fun s => { disableWords s with carry := 0 } := .of_carried fun _ => rfl
  exact (auxBlind_callHook .postReset).comp <| (auxBlind_signal .subsysReset).comp <| (auxBlind_emit .ctxRelease).comp <|
    auxBlind_cpuReset.comp <| (auxBlind_emit .ctxSelect).comp hwords

theorem auxBlind_finishSetup (c : Int) : AuxBlind (finishSetup c) := by
  have hdone : AuxBlind fun s => { s with setupDone := true } := .of_carried fun _ => rfl
  exact .ite (fun _ => Iff.rfl) (auxBlind_raiseException _) (hdone.comp (auxBlind_callHook .postInit))

theorem auxBlind_release : AuxBlind release := by
  have hcleared : AuxBlind fun s => { signal .subsysExit s with hooks := {}, setupDone := false } := .of_carried fun _ => rfl
  exact fun s => (auxBlind_unspecify (answer s).fresh).comp hcleared s

/-! ## `SCHED` and `DISPATCH` -/

theorem auxBlind_schedule : AuxBlind schedule := .of_carried fun _ => rfl

theorem auxBlind_rearmSources (due : Nat) : AuxBlind (rearmSources due) := .of_carried fun _ => rfl

theorem auxBlind_forceProgress : AuxBlind forceProgress := .ite (fun _ => Iff.rfl) (.of_carried fun _ => rfl) .id

theorem auxBlind_interruptAndRun : AuxBlind interruptAndRun := by
  intro s
  have hline := (auxBlind_run (cyclesPerLine s.cfg s.cyclesPerFrame)).comp (auxBlind_irqAssert s.cfg.beamIrqLevel)
  exact hline s

theorem auxBlindOp_countInterrupt (due : Nat) : AuxBlindOp (countInterrupt due) := by
  have hcount : AuxBlind fun s => { s with irqCount := s.irqCount + 1 } := .of_carried fun _ => rfl
  have hrecord : AuxBlind fun s => setRaster (s.irqCount + 1) (due - firstLine : Nat) { s with irqCount := s.irqCount + 1 } :=
    fun s => (auxBlind_setRaster (s.irqCount + 1) _).comp hcount s
  exact .ite (fun _ => Iff.rfl) (.ite (fun _ => Iff.rfl) (.next hrecord) (.fault _)) (.next .id)

/-- Step d looks at the recorded raster line of its slot, which is no part of the copies (R144). -/
theorem auxBlindOp_capture : AuxBlindOp capture := by
  intro s
  have hslot : (withoutAux s).snaps[(withoutAux s).irqCount]? = (s.snaps[s.irqCount]?).map slotWithoutAux := List.getElem?_map
  have hcopy : AuxBlind fun s => snapCopy s.irqCount s := fun s => auxBlind_snapCopy s.irqCount s
  have hdiscard : AuxBlind fun s => setRaster s.irqCount 0 s := fun s => auxBlind_setRaster s.irqCount 0 s
  unfold capture
  rw [hslot]
  cases s.snaps[s.irqCount]? with
  | none => rfl
  | some slot => exact AuxBlindOp.next (.ite (c := fun _ => inActive slot.rasterLine) (fun _ => Iff.rfl) hcopy hdiscard) s

theorem auxBlindOp_dispatch : AuxBlindOp dispatch := by
  have hend (due : Nat) : AuxBlind fun s => forceProgress (schedule (rearmSources due s)) :=
    auxBlind_forceProgress.comp (auxBlind_schedule.comp (auxBlind_rearmSources due))
  have hafter (due : Nat) :
      AuxBlindOp fun s => andThen (capture (interruptAndRun s)) fun u => .next (forceProgress (schedule (rearmSources due u))) :=
    (auxBlindOp_capture.comp auxBlind_interruptAndRun).andThen (.next (hend due))
  exact fun s => (auxBlindOp_countInterrupt s.nextLine).andThen (hafter s.nextLine) s

/-! ## The phases -/

theorem auxBlind_withPhase (p : Phase) : AuxBlind fun s => { s with phase := p } := .of_carried fun _ => rfl

theorem auxBlind_driverActs : AuxBlind driverActs := by
  refine .of_carried fun s => ?_
  have hdriver : (withoutAux s).driver = s.driver := rfl
  unfold driverActs
  rw [hdriver]
  cases s.driver with
  | nil => rfl
  | cons act rest =>
    cases act with
    | frameStart => rfl
    | issue i => rfl

theorem auxBlind_openFrame : AuxBlind openFrame := by
  have hopened : AuxBlind fun s => { emit .cpuBeginFrame (emit .ctxSelect s) with executedTotal := 0 } :=
    .of_carried fun _ => rfl
  have hreset : AuxBlind fun s : State => if s.inputs.resetRequest then fullReset s else s :=
    .ite (fun _ => Iff.rfl) auxBlind_fullReset .id
  exact (auxBlind_callHook .frameStart).comp <| (auxBlind_callAudio .audioBegin).comp <| hopened.comp <|
    hreset.comp (auxBlind_withPhase .setupFrame)

theorem auxBlind_loadFrame : AuxBlind loadFrame := by
  intro s
  have hslots : clearSlots s.cfg s.fills 0 (withoutAux s).snaps = clearSlots s.cfg s.fills 0 s.snaps := clearSlots_map ..
  exact congrArg (fun l => { withoutAux (loadFrame s) with snaps := l.map slotWithoutAux }) hslots

theorem auxBlind_reloadLines : AuxBlind reloadLines := .of_carried fun _ => rfl

theorem auxBlindOp_leadinDispatch : AuxBlindOp leadinDispatch :=
  .ite (fun _ => Iff.rfl) (auxBlindOp_dispatch.comp auxBlind_runTo_nextCycle) (.next .id)

theorem auxBlindOp_execLeadin : AuxBlindOp execLeadin := by
  have hrun : AuxBlind fun s => runTo (firstCycle s.cfg s.cyclesPerFrame) s :=
    fun s => auxBlind_runTo (firstCycle s.cfg s.cyclesPerFrame) s
  exact (auxBlindOp_leadinDispatch.comp (auxBlind_withPhase .leadin)).andThen (.next ((auxBlind_withPhase .basesnap).comp hrun))

theorem auxBlindOp_runSegment (b : Int) (fuel : Nat) : AuxBlindOp (runSegment b fuel) := by
  induction fuel with
  | zero => exact .fault .segmentUnbounded
  | succ fuel ih =>
    exact .ite (fun _ => Iff.rfl) ((auxBlindOp_dispatch.comp auxBlind_runTo_nextCycle).andThen ih) (.next (auxBlind_runTo b))

theorem auxBlindOp_activeSegment (k : Seg) : AuxBlindOp (activeSegment k) := by
  have hseg : AuxBlind fun s => { s with seg := k } := .of_carried fun _ => rfl
  exact fun s => (auxBlindOp_runSegment (segBoundary s.cfg s.cyclesPerFrame k) (segmentFuel s.cfg)).comp hseg s

theorem auxBlindOp_execActive : AuxBlindOp execActive :=
  ((auxBlindOp_activeSegment .one).comp (auxBlind_withPhase .active)).andThen <|
    (auxBlindOp_activeSegment .two).andThen <| (auxBlindOp_activeSegment .three).andThen <|
      .next (auxBlind_withPhase .objcap)

theorem auxBlind_storeWord (off : Nat) (w : Word) : AuxBlind (storeWord off w) :=
  .ite (fun _ => Iff.rfl) (.of_carried fun _ => rfl) .id

/-! ## Every operation -/

theorem auxBlindOp_exec (i : Instr) : AuxBlindOp (exec i) := by
  cases i with
  | idle => exact .next (.ite (fun _ => Iff.rfl) (auxBlind_driverActs.comp auxBlind_interleave) .id)
  | setupFrame => exact .next ((auxBlind_withPhase .catchup).comp (auxBlind_loadFrame.comp auxBlind_openFrame))
  | catchup => exact .next (.of_carried fun _ => rfl)
  | leadin => exact auxBlindOp_execLeadin
  | basesnap => exact .next ((auxBlind_withPhase .lateguard).comp ((auxBlind_snapCopy 0).comp (auxBlind_withPhase .basesnap)))
  | lateguard =>
    have hreload : AuxBlind fun s => if nothingScheduled s && !bsd s then reloadLines s else s :=
      .ite (fun _ => Iff.rfl) auxBlind_reloadLines .id
    exact .next ((auxBlind_withPhase .active).comp hreload)
  | active => exact auxBlindOp_execActive
  | objcap =>
    have hhook := (auxBlind_callHook .frameMid).comp (auxBlind_withPhase .objcap)
    exact .next ((auxBlind_withPhase .vblank).comp ((auxBlind_signal .objCapture).comp hhook))
  | vblank =>
    have hirq : AuxBlind fun s => irqAssert s.cfg.vblankIrqLevel { s with phase := .vblank } := .of_carried fun _ => rfl
    exact .next ((auxBlind_withPhase .drain).comp (auxBlind_callDraw.comp hirq))
  | drain =>
    have hrun : AuxBlind fun s => runTo s.cyclesPerFrame { s with phase := .drain } :=
      fun s => (auxBlind_runTo s.cyclesPerFrame).comp (auxBlind_withPhase .drain) s
    exact .next ((auxBlind_withPhase .drift).comp hrun)
  | drift =>
    have hcarry : AuxBlind fun s => emit .ctxRelease { s with phase := .drift, carry := s.executedTotal - s.cyclesPerFrame } :=
      .of_carried fun _ => rfl
    exact .next ((auxBlind_withPhase .frameend).comp ((auxBlind_callHook .frameEnd).comp hcarry))
  | frameend =>
    exact .next ((auxBlind_withPhase .idle).comp ((auxBlind_callAudio .audioEnd).comp (auxBlind_withPhase .frameend)))
  | sched => exact .next auxBlind_schedule
  | dispatch => exact auxBlindOp_dispatch
  | run n => exact .next (auxBlind_run n)
  | idlecyc n => exact .next (auxBlind_idleCycles n)
  | snapcopy i => exact .ite (fun _ => Iff.rfl) (.next (auxBlind_snapCopy i)) (.fault .slotOutOfRange)
  | setup =>
    have hsetup : AuxBlind fun s => finishSetup (answer s).code (signal .subsysInit (unspecify (answer s).fresh s)) :=
      fun s =>
        (auxBlind_finishSetup (answer s).code).comp
          ((auxBlind_signal .subsysInit).comp (auxBlind_unspecify (answer s).fresh)) s
    exact .next (.ite (fun _ => Iff.rfl) hsetup .id)
  | fullreset => exact .next (.ite (fun _ => Iff.rfl) auxBlind_fullReset .id)
  | teardown => exact .next (.ite (fun _ => Iff.rfl) (auxBlind_release.comp (auxBlind_callHook .preExit)) .id)
  | hookreg k present => exact .next (.ite (fun _ => Iff.rfl) (.of_carried fun _ => rfl) .id)
  | ctrl w => exact .next (auxBlind_storeWord offCtrl w)
  | trigP w => exact .next (auxBlind_storeWord offTrigP w)
  | trigS w => exact .next (auxBlind_storeWord offTrigS w)

/-- Settles O60: both states go through the one state without the auxiliary block. -/
theorem auxiliaryBlockNeverInterpreted : Obligations.AuxiliaryBlockNeverInterpreted := by
  unfold Obligations.AuxiliaryBlockNeverInterpreted
  intro i s t h
  change outcomeWithoutAux (exec i s) = outcomeWithoutAux (exec i t)
  rw [← auxBlindOp_exec i s, h, auxBlindOp_exec i t]

end Sys2Proof.Machine

/-! PROOFS. The fields of the register words (30_encoding.md R93, R94). -/

namespace Sys2Proof.Machine

/-- `BSD` as arithmetic (R93). -/
theorem decodeCtrl_eq_decide (w : Word) : decodeCtrl w = decide (w.toNat / 2 ^ 9 % 2 = 1) := by
  rw [decodeCtrl, BitVec.getLsbD, Nat.testBit_eq_decide_div_mod_eq]

/-- Settles O4: bit 9 is the whole of what is decoded, so equal bits 9 decode the same. -/
theorem controlWordDecodesBitNine : Obligations.ControlWordDecodesBitNine := by
  unfold Obligations.ControlWordDecodesBitNine
  intro w w'
  exact ⟨decodeCtrl_eq_decide w, fun hbit => hbit⟩

/-- `AUTO`, the top bit, and `LINE`, the low nine bits, as arithmetic (R94). -/
theorem decodeTrig_eq (w : Word) : decodeTrig w = (decide (2 ^ 15 ≤ w.toNat), w.toNat % 2 ^ 9) := by
  have hauto : w.getLsbD 15 = decide (2 ^ 15 ≤ w.toNat) := w.msb_eq_decide
  rw [decodeTrig, hauto, BitVec.extractLsb'_toNat, Nat.shiftRight_zero]

/-- Bits 14 to 9 are ignored (R94, R97). -/
theorem decodeTrig_congr {w w' : Word} (hauto : w.getLsbD 15 = w'.getLsbD 15)
    (hline : ∀ k < 9, w.getLsbD k = w'.getLsbD k) : decodeTrig w = decodeTrig w' := by
  have hfield : w.extractLsb' 0 9 = w'.extractLsb' 0 9 := by
    ext k hk
    simpa [hk] using hline k hk
  rw [decodeTrig, decodeTrig, hauto, hfield]

/-- Settles O5: the load clamps the decoded line (R96). -/
theorem triggerWordDecodesAutoAndLine : Obligations.TriggerWordDecodesAutoAndLine := by
  unfold Obligations.TriggerWordDecodesAutoAndLine
  intro c w w'
  refine ⟨decodeTrig_eq w, fun ⟨hauto, hline⟩ => decodeTrig_congr hauto hline, ?_⟩
  rw [trigLine, decodeTrig_eq, clampLine]
  rfl

end Sys2Proof.Machine

/-! PROOFS. What the decoder reads off the port (30_encoding.md §4). -/

namespace Sys2Proof

/-- Settles O3: each row of R100's table, each code that it leaves out, and R104's words are read out one by one. -/
theorem operationCodesDecode : Obligations.OperationCodesDecode := by
  unfold Obligations.OperationCodesDecode
  refine ⟨?codes, ?unassigned, ?ctrl, ?trigP, ?trigS⟩
  case codes => decide
  case unassigned => decide
  case ctrl => rfl
  case trigP => rfl
  case trigS => rfl

/-! ## A decoder looks at nothing behind the bytes it takes -/

/-- Where `f` succeeds, the bytes it takes off stand first, and it reads them the same way whatever stands behind them. -/
def ReadsPrefix {α : Type} (f : List Byte → Except DecodeError (α × List Byte)) : Prop :=
  ∀ ⦃bs rest : List Byte⦄ ⦃x : α⦄, f bs = .ok (x, rest) → ∃ used, bs = used ++ rest ∧ ∀ tail, f (used ++ tail) = .ok (x, tail)

section ReadsPrefix
variable {α β : Type}

theorem readsPrefix_done (x : α) : ReadsPrefix fun bs => .ok (x, bs) := by
  intro bs rest y h
  cases h
  exact ⟨[], rfl, fun _ => rfl⟩

theorem readsPrefix_error (e : DecodeError) : ReadsPrefix fun _ => (.error e : Except DecodeError (α × List Byte)) := nofun

theorem ReadsPrefix.cons {f : List Byte → Except DecodeError (α × List Byte)} {e : DecodeError} (hnil : f [] = .error e)
    (hcons : ∀ b, ReadsPrefix fun bs => f (b :: bs)) : ReadsPrefix f := by
  intro bs rest x h
  cases bs with
  | nil => cases hnil.symm.trans h
  | cons b bs =>
    obtain ⟨used, rfl, hused⟩ := hcons b h
    exact ⟨b :: used, rfl, hused⟩

/-- A decoder that succeeds where `f` does, on the same bytes, with a value made of `f`'s. -/
theorem ReadsPrefix.of_ok_iff {f : List Byte → Except DecodeError (α × List Byte)}
    {g : List Byte → Except DecodeError (β × List Byte)} {made : α → β → Prop} (hf : ReadsPrefix f)
    (hg : ∀ bs rest y, g bs = .ok (y, rest) ↔ ∃ x, f bs = .ok (x, rest) ∧ made x y) : ReadsPrefix g := by
  intro bs rest y h
  obtain ⟨x, hx, hy⟩ := (hg bs rest y).1 h
  obtain ⟨used, rfl, hused⟩ := hf hx
  exact ⟨used, rfl, fun tail => (hg _ _ _).2 ⟨x, hused tail, hy⟩⟩

end ReadsPrefix

/-! ## Numbers in base 128 -/

/-- A last digit. -/
theorem decodeNat_cons_of_lt {b : Byte} (hb : b.toNat < 128) (bs : List Byte) : decodeNat (b :: bs) = .ok (b.toNat, bs) := by
  rw [decodeNat, if_pos hb]

/-- A digit that another follows; the digits that follow are not all zero. -/
theorem decodeNat_cons_eq_ok {b : Byte} (hb : ¬ b.toNat < 128) (bs rest : List Byte) (n : Nat) :
    decodeNat (b :: bs) = .ok (n, rest) ↔ ∃ k, decodeNat bs = .ok (k, rest) ∧ k ≠ 0 ∧ b.toNat - 128 + 128 * k = n := by
  rw [decodeNat, if_neg hb]
  cases decodeNat bs with
  | error e => simp
  | ok digits => by_cases hk : digits.1 = 0 <;> grind

theorem readsPrefix_decodeNat : ReadsPrefix decodeNat := by
  intro bs
  induction bs with
  | nil => exact nofun
  | cons b bs ih =>
    intro rest n h
    by_cases hb : b.toNat < 128
    · cases (decodeNat_cons_of_lt hb bs).symm.trans h
      exact ⟨[b], rfl, decodeNat_cons_of_lt hb⟩
    · obtain ⟨k, hk, hpos, hn⟩ := (decodeNat_cons_eq_ok hb _ _ _).1 h
      obtain ⟨used, rfl, hused⟩ := ih hk
      exact ⟨b :: used, rfl, fun tail => (decodeNat_cons_eq_ok hb _ _ _).2 ⟨k, hused tail, hpos, hn⟩⟩

/-! ## Operands and operations -/

theorem decodeCount_eq_ok (mk : Int → Instr) (bs rest : List Byte) (i : Instr) :
    decodeCount mk bs = .ok (i, rest) ↔ ∃ k, decodeNat bs = .ok (k, rest) ∧ mk (unzigzag k) = i := by
  rw [decodeCount]
  cases decodeNat bs with
  | error e => simp
  | ok digits => grind

theorem decodeIndex_eq_ok (bs rest : List Byte) (i : Instr) :
    decodeIndex bs = .ok (i, rest) ↔ ∃ k, decodeNat bs = .ok (k, rest) ∧ .snapcopy k = i := by
  rw [decodeIndex]
  cases decodeNat bs with
  | error e => simp
  | ok digits => grind

theorem readsPrefix_decodeCount (mk : Int → Instr) : ReadsPrefix (decodeCount mk) :=
  readsPrefix_decodeNat.of_ok_iff (decodeCount_eq_ok mk)

theorem readsPrefix_decodeIndex : ReadsPrefix decodeIndex := readsPrefix_decodeNat.of_ok_iff decodeIndex_eq_ok

theorem readsPrefix_decodeWord (mk : Word → Instr) : ReadsPrefix (decodeWord mk) :=
  .cons rfl fun _ => .cons rfl fun _ => readsPrefix_done _

theorem readsPrefix_decodeHookreg : ReadsPrefix decodeHookreg := by
  refine .cons rfl fun b => ?_
  simp only [decodeHookreg]
  cases decodeHook b with
  | error e => exact readsPrefix_error e
  | ok hook => exact readsPrefix_done _

/-- The operand that follows each code: a cycle count, a slot index, a hook, a register word, or none. -/
theorem readsPrefix_decodeOp (b : Byte) : ReadsPrefix (decodeOp b) := by
  intro bs rest i h
  have hrow := h
  unfold decodeOp at hrow
  split at hrow
  case h_15 hb | h_16 hb => simpa only [decodeOp, hb] using readsPrefix_decodeCount _ hrow
  case h_17 hb => simpa only [decodeOp, hb] using readsPrefix_decodeIndex hrow
  case h_21 hb => simpa only [decodeOp, hb] using readsPrefix_decodeHookreg hrow
  case h_22 hb | h_23 hb | h_24 hb => simpa only [decodeOp, hb] using readsPrefix_decodeWord _ hrow
  case h_25 => cases hrow
  all_goals next hb => simpa only [decodeOp, hb] using readsPrefix_done _ hrow

theorem readsPrefix_decode : ReadsPrefix decode := .cons rfl readsPrefix_decodeOp

/-! ## Words of the opcode table -/

theorem decodeTableWord_eq_some (nbits w : Nat) (i : Instr) :
    decodeTableWord nbits w = some i ↔ ∃ rest, decode (tableBytes nbits w) = .ok (i, rest) := by
  rw [decodeTableWord]
  cases decode (tableBytes nbits w) with
  | error e => simp
  | ok next => grind

theorem tableInstrBytes_of_ok {nbits w : Nat} {i : Instr} {used rest : List Byte} (hbytes : tableBytes nbits w = used ++ rest)
    (hdecode : decode (tableBytes nbits w) = .ok (i, rest)) : tableInstrBytes nbits w = used := by
  rw [tableInstrBytes, hdecode]
  simp [hbytes]

/-- A word that decodes does so from its own bytes, whatever follows them on the port. -/
theorem decode_tableInstrBytes_append {nbits w : Nat} {i : Instr} (h : decodeTableWord nbits w = some i) (tail : List Byte) :
    decode (tableInstrBytes nbits w ++ tail) = .ok (i, tail) := by
  obtain ⟨rest, hdecode⟩ := (decodeTableWord_eq_some nbits w i).1 h
  obtain ⟨used, hbytes, hused⟩ := readsPrefix_decode hdecode
  rw [tableInstrBytes_of_ok hbytes hdecode, hused]

end Sys2Proof

/-! PROOFS. Which operation a step performs (30_encoding.md R99, R100; 10_state.md R36). -/

namespace Sys2Proof.Machine

theorem fetch_of_port_nil {s : State} (h : s.port = []) : fetch s = .ok (phaseInstr s.phase, s) := by
  rw [fetch, h]

theorem fetch_of_decode_ok {s : State} {i : Instr} {rest : List Byte} (h : decode s.port = .ok (i, rest)) :
    fetch s = .ok (i, { s with port := rest }) := by
  cases hport : s.port with
  | nil => rw [hport] at h; cases h
  | cons b bs =>
    rw [hport] at h
    simp only [fetch, hport, h]

theorem fetch_of_decode_error {s : State} {e : DecodeError} (hport : s.port ≠ []) (h : decode s.port = .error e) :
    fetch s = .error e := by
  obtain ⟨b, bs, hcons⟩ := List.exists_cons_of_ne_nil hport
  rw [hcons] at h
  simp only [fetch, hcons, h]

/-- A step performs what the fetch answers. -/
theorem step_of_fetch_ok {s u : State} {i : Instr} (h : fetch s = .ok (i, u)) : step s = exec i u := by
  rw [step, h]

theorem step_of_decode_ok {s : State} {i : Instr} {rest : List Byte} (h : decode s.port = .ok (i, rest)) :
    step s = exec i { s with port := rest } :=
  step_of_fetch_ok (fetch_of_decode_ok h)

/-- Settles O7: a step performs what the fetch answers, in each of the fetch's three cases. -/
theorem stepRunsDecodedOperation : Obligations.StepRunsDecodedOperation := by
  unfold Obligations.StepRunsDecodedOperation
  intro s
  refine ⟨?empty, ?decodes, ?refused⟩
  case empty => exact fun hport => step_of_fetch_ok (fetch_of_port_nil hport)
  case decodes => exact fun i rest h => step_of_decode_ok h
  case refused =>
    intro e hport h
    rw [step, fetch_of_decode_error hport h]

/-- Settles O8: the decoder takes exactly the word's bytes off the port, so that the port is `s`'s again. -/
theorem presentedWordRunsNext : Obligations.PresentedWordRunsNext := by
  unfold Obligations.PresentedWordRunsNext
  intro s nbits w i h
  exact step_of_decode_ok (decode_tableInstrBytes_append h s.port)

end Sys2Proof.Machine

/-! PROOFS. The cycle-to-beam arithmetic and `SCHED` (40_scheduler.md R120 to R128). -/

namespace Sys2Proof.Machine

/-! ## Line starts -/

section LineStart

variable (c : Config) (cpf : Nat)

theorem Config.scanlines_pos : 0 < c.scanlines := Nat.lt_of_lt_of_le (by decide) (Config.scanlines_bounds c).1

theorem lineStart_mono {a b : Nat} (h : a ≤ b) : lineStart c cpf a ≤ lineStart c cpf b :=
  Nat.div_le_div_right (Nat.mul_le_mul_right cpf h)

/-- The next line starts `CyclesPerLine` later, or one more where the two remainders carry (R121, R122). -/
theorem lineStart_succ (l : Nat) :
    lineStart c cpf (l + 1) = lineStart c cpf l + cyclesPerLine c cpf +
      if c.scanlines ≤ l * cpf % c.scanlines + cpf % c.scanlines then 1 else 0 := by
  rw [lineStart, Nat.succ_mul, Nat.add_div (Config.scanlines_pos c), lineStart, cyclesPerLine]

theorem lineStart_succ_sub (l : Nat) :
    lineStart c cpf (l + 1) - lineStart c cpf l = cyclesPerLine c cpf ∨
      lineStart c cpf (l + 1) - lineStart c cpf l = cyclesPerLine c cpf + 1 := by
  rw [lineStart_succ]
  split <;> omega

theorem lineStart_scanlines : lineStart c cpf c.scanlines = cpf := Nat.mul_div_cancel_left cpf (Config.scanlines_pos c)

variable {c cpf}

/-- Every line of the range `l … m` but the last takes at least `CyclesPerLine`. -/
theorem lineStart_add_cyclesPerLine_le {l m : Nat} (h : l < m) :
    lineStart c cpf l + cyclesPerLine c cpf ≤ lineStart c cpf m := by
  have hnext : lineStart c cpf l + cyclesPerLine c cpf ≤ lineStart c cpf (l + 1) := by
    rw [lineStart_succ]; omega
  exact hnext.trans (lineStart_mono c cpf h)

/-- An armed line is due by `cyclesPerFrame`, where a line takes a cycle at all. -/
theorem lineToCycle_le {l : Nat} (hl : l < c.scanlines) (hcpl : 1 ≤ cyclesPerLine c cpf) : lineToCycle c cpf l ≤ cpf := by
  have hend := lineStart_add_cyclesPerLine_le (c := c) (cpf := cpf) hl
  rw [lineStart_scanlines] at hend
  unfold lineToCycle
  omega

/-- With two cycles to a line, the lines due before line `m` starts are the lines before `m`. -/
theorem lineToCycle_lt_lineStart_iff {l m : Nat} (hcpl : 2 ≤ cyclesPerLine c cpf) :
    lineToCycle c cpf l < lineStart c cpf m ↔ l < m := by
  unfold lineToCycle
  constructor
  · intro hdue
    by_contra hl
    have := lineStart_mono c cpf (Nat.le_of_not_lt hl)
    omega
  · intro hl
    have := lineStart_add_cyclesPerLine_le (c := c) (cpf := cpf) hl
    omega

end LineStart

/-! ## The active display -/

section ActiveDisplay

variable (c : Config) (cpf : Nat)

theorem firstCycle_le_endCycle : firstCycle c cpf ≤ endCycle c cpf := lineStart_mono c cpf (by decide)

theorem endCycle_le : endCycle c cpf ≤ cpf := by
  calc endCycle c cpf ≤ lineStart c cpf c.scanlines := lineStart_mono c cpf (Config.scanlines_bounds c).1
    _ = cpf := lineStart_scanlines c cpf

/-- The segments of the active display end in their order, the third where the display does (R124). -/
theorem segBoundary_mono :
    firstCycle c cpf ≤ segBoundary c cpf .one ∧ segBoundary c cpf .one ≤ segBoundary c cpf .two ∧
      segBoundary c cpf .two ≤ segBoundary c cpf .three ∧ segBoundary c cpf .three = endCycle c cpf := by
  have := firstCycle_le_endCycle c cpf
  simp only [segBoundary, segNumber, segments]
  omega

end ActiveDisplay

/-! ## The statements -/

/-- Settles O14: the formulas are the definitions with R6's constants put in; the table values follow by evaluation. -/
theorem cycleArithmetic : Obligations.CycleArithmetic := by
  unfold Obligations.CycleArithmetic
  refine ⟨?formulas, ?scanlines259, ?scanlines262⟩
  case formulas =>
    intro c cpf l v
    refine ⟨rfl, rfl, rfl, rfl, rfl, ?_, rfl, rfl⟩
    rw [segBoundary, segNumber, segments, Nat.one_mul]
  case scanlines259 =>
    intro c hc
    simp [segBoundary, segNumber, segments, firstCycle, endCycle, firstLine, activeLines, lineToCycle, lineStart, hc]
  case scanlines262 =>
    intro c hc
    simp [segBoundary, segNumber, segments, firstCycle, endCycle, firstLine, activeLines, cyclesPerLine, lineStart, hc]

/-- Settles O15: every clause is a fact about line starts, the boundaries among them. -/
theorem cycleArithmeticIsMonotone : Obligations.CycleArithmeticIsMonotone := by
  unfold Obligations.CycleArithmeticIsMonotone
  intro c cpf
  obtain ⟨hfirst, hone, htwo, hthree⟩ := segBoundary_mono c cpf
  refine ⟨?rises, lineStart_succ_sub c cpf, lineStart_scanlines c cpf, fun l hl hcpl => lineToCycle_le hl hcpl,
    fun hcpl l hl => Nat.lt_succ_of_le (lineToCycle_le hl hcpl), hfirst, hone, htwo, hthree, endCycle_le c cpf,
    fun _ => Iff.rfl, ?visible⟩
  case rises => exact fun a b h => ⟨lineStart_mono c cpf h, Nat.succ_le_succ (lineStart_mono c cpf h)⟩
  case visible =>
    intro hcpl l
    have hbefore (m : Nat) : lineToCycle c cpf l < lineStart c cpf (m + 1) ↔ l ≤ m :=
      (lineToCycle_lt_lineStart_iff hcpl).trans Nat.lt_succ_iff
    exact ⟨hbefore 15, hbefore 239⟩

/-- A second `SCHED` reads what the first one read (R125). -/
theorem schedule_schedule (s : State) : schedule (schedule s) = schedule s := rfl

/-- Settles O16: the smaller line is the minimum, and `schedule` writes nothing that it reads. -/
theorem schedResult : Obligations.SchedResult := by
  unfold Obligations.SchedResult
  intro s
  constructor
  · show Host.Outcome.next (schedule s) = _
    rw [schedule, earliestLine_eq, dueCycle, Nat.cast_ite]
    rfl
  · rintro t ⟨⟩
    exact congrArg Host.Outcome.next (schedule_schedule s)

end Sys2Proof.Machine

/-! PROOFS. A step keeps the invariants of R42 and reaches no fault (10_state.md R42, 42_frame_phases.md R187). -/

namespace Sys2Proof.Machine

/-! ## An outcome that is a next state with a property -/

/-- The outcome is a next state that has `P`. -/
def Answers (P : State → Prop) (r : Result) : Prop := ∃ t, r = .next t ∧ P t

theorem Answers.next {P : State → Prop} {t : State} (h : P t) : Answers P (.next t) := ⟨t, rfl, h⟩

theorem Answers.andThen {P Q : State → Prop} {r : Result} {f : State → Result} (hr : Answers P r)
    (hf : ∀ u, P u → Answers Q (f u)) : Answers Q (andThen r f) := by
  obtain ⟨u, rfl, hu⟩ := hr
  exact hf u hu

/-! ## The slots of the store within a frame -/

/-- What I4 to I7 of R42 say of the slots `l`, where the counter stands at `count`. -/
structure SlotsState (count : Nat) (l : List Slot) : Prop where
  unusedClear : ∀ (i : Nat) (slot : Slot), l[i]? = some slot → count < i → slot.populated = false ∧ slot.rasterLine = 0
  rasterBound : ∀ (i : Nat) (slot : Slot), l[i]? = some slot → 0 ≤ slot.rasterLine ∧ slot.rasterLine < activeLines
  baseline : ∀ slot : Slot, l[0]? = some slot → slot.rasterLine = 0

theorem FrameState.slots {s : State} (h : FrameState s) : SlotsState s.irqCount s.snaps :=
  ⟨h.unusedClear, h.rasterBound, h.baseline⟩

/-- From `l` to `l'` no slot but `k` changes, and slot `k`'s raster line changes by `f`. -/
def OnlySlot (k : Nat) (f : Int → Int) (l l' : List Slot) : Prop :=
  ∀ (j : Nat) (slot' : Slot), l'[j]? = some slot' →
    ∃ slot, l[j]? = some slot ∧ (j ≠ k → slot' = slot) ∧ (j = k → slot'.rasterLine = f slot.rasterLine)

theorem OnlySlot.refl {k : Nat} {f : Int → Int} (hf : ∀ r, f r = r) (l : List Slot) : OnlySlot k f l l :=
  fun _ slot h => ⟨slot, h, fun _ => rfl, fun _ => (hf _).symm⟩

theorem OnlySlot.trans {k : Nat} {f g : Int → Int} {l l' l'' : List Slot} (h : OnlySlot k f l l') (h' : OnlySlot k g l' l'') :
    OnlySlot k (g ∘ f) l l'' := by
  intro j slot'' hj
  obtain ⟨slot', hj', hother', hown'⟩ := h' j slot'' hj
  obtain ⟨slot, hj, hother, hown⟩ := h j slot' hj'
  exact ⟨slot, hj, fun hne => (hother' hne).trans (hother hne), fun he => (hown' he).trans (congrArg g (hown he))⟩

theorem OnlySlot.modify {k : Nat} {f : Int → Int} {F : Slot → Slot} {l : List Slot}
    (hF : ∀ slot, l[k]? = some slot → (F slot).rasterLine = f slot.rasterLine) : OnlySlot k f l (l.modify k F) := by
  intro j slot' hj
  rw [List.getElem?_modify] at hj
  obtain ⟨slot, hslot, rfl⟩ := Option.map_eq_some_iff.1 hj
  refine ⟨slot, hslot, fun hne => if_neg (Ne.symm hne), ?_⟩
  rintro rfl
  simp only [if_true]
  exact hF slot hslot

/-- A change of slot `k`, no later one than the counter, keeps what R42 says of the slots. -/
theorem SlotsState.of_onlySlot {count count' k : Nat} {f : Int → Int} {l l' : List Slot} (h : SlotsState count l)
    (hl : OnlySlot k f l l') (hcount : count ≤ count') (hk : k ≤ count')
    (hbound : ∀ r : Int, 0 ≤ r ∧ r < activeLines → 0 ≤ f r ∧ f r < activeLines) (hzero : k = 0 → f 0 = 0) :
    SlotsState count' l' := by
  refine ⟨fun i slot' hi hlt => ?unused, fun i slot' hi => ?bound, fun slot' hi => ?baseline⟩
  all_goals obtain ⟨slot, hslot, hother, hown⟩ := hl _ slot' hi
  case unused =>
    rw [hother (by omega)]
    exact h.unusedClear i slot hslot (by omega)
  case bound =>
    have hold := h.rasterBound i slot hslot
    by_cases hik : i = k
    · rw [hown hik]; exact hbound _ hold
    · rw [hother hik]; exact hold
  case baseline =>
    have hold := h.baseline slot hslot
    by_cases hk0 : k = 0
    · rw [hown hk0.symm, hold]; exact hzero hk0
    · rw [hother (Ne.symm hk0)]; exact hold

/-- The slots as phase 1 clears them (R174). -/
theorem slotsState_clearSlots (c : Config) (fill count : Nat) (l : List Slot) :
    SlotsState count (clearSlots c fill 0 l) := by
  have hclear {i : Nat} {slot : Slot} (h : (clearSlots c fill 0 l)[i]? = some slot) :
      slot.rasterLine = 0 ∧ slot.populated = false := by
    obtain ⟨hraster, hpopulated, -⟩ := clearSlots_clear (List.mem_of_getElem? h)
    exact ⟨hraster, hpopulated⟩
  refine ⟨fun i slot h _ => (hclear h).symm, fun i slot h => ?_, fun slot h => (hclear h).1⟩
  rw [(hclear h).1]
  decide

/-! ## The slot a dispatch works on -/

/-- What step a makes of the raster line of the slot it leads to (R141). -/
def recordedRaster (due : Nat) (raster : Int) : Int := if 16 ≤ due then (due - firstLine : Nat) else raster

/-- What step d makes of a raster line (R144). -/
def keptRaster (raster : Int) : Int := if inActive raster then raster else 0

theorem keptRaster_bounds (raster : Int) : 0 ≤ keptRaster raster ∧ keptRaster raster < activeLines := by
  unfold keptRaster inActive
  split
  · simp_all
  · decide

theorem countInterrupt_onlySlot {due : Nat} {s a : State} (h : countInterrupt due s = .next a) :
    OnlySlot a.irqCount (recordedRaster due) s.snaps a.snaps := by
  rcases countInterrupt_next.1 h with ⟨hcounted, -, rfl⟩ | ⟨hbefore, rfl⟩
  · exact OnlySlot.modify fun _ _ => (if_pos hcounted).symm
  · exact OnlySlot.refl (fun _ => if_neg (Nat.not_le.2 hbefore)) _

theorem capture_onlySlot {s t : State} (h : capture s = .next t) : OnlySlot s.irqCount keptRaster s.snaps t.snaps := by
  obtain ⟨slot, hslot, rfl⟩ := capture_next.1 h
  have hown {slot' : Slot} (h : s.snaps[s.irqCount]? = some slot') : slot' = slot := Option.some.inj (h.symm.trans hslot)
  split
  next hactive => exact OnlySlot.modify fun slot' h => by rw [hown h, keptRaster, if_pos hactive]
  next hactive => exact OnlySlot.modify fun slot' h => by rw [hown h, keptRaster, if_neg hactive]

theorem capture_irqCount {s t : State} (h : capture s = .next t) : t.irqCount = s.irqCount := by
  obtain ⟨slot, -, rfl⟩ := capture_next.1 h
  split <;> rfl

/-- A dispatch changes the slot of the counter it leaves, and that slot's raster line by steps a and d (R141, R144). -/
theorem dispatch_onlySlot {s t : State} (h : dispatch s = .next t) :
    OnlySlot t.irqCount (keptRaster ∘ recordedRaster s.nextLine) s.snaps t.snaps := by
  obtain ⟨a, d, ha, hd, rfl⟩ := dispatch_next.1 h
  have hcapture := capture_onlySlot hd
  rw [interruptAndRun_irqCount, interruptAndRun_snaps] at hcapture
  have hcount : d.irqCount = a.irqCount := (capture_irqCount hd).trans (interruptAndRun_irqCount a)
  simp only [forceProgress_irqCount, schedule_irqCount, rearmSources_irqCount, forceProgress_snaps, schedule_snaps,
    rearmSources_snaps, hcount]
  exact (countInterrupt_onlySlot ha).trans hcapture

/-! ## The invariants of R42 and the operations within a frame -/

/-- A source that step e has seen to has a line of the frame or is exhausted (R145). -/
theorem rearm_line_le {c : Config} {src : Source} (due : Nat) (h : src.line ≤ c.scanlines) :
    (rearm c due src).line ≤ c.scanlines := by
  rw [rearm_line]
  split <;> split <;> omega

theorem dispatch_irqCount_le {s t : State} (h : dispatch s = .next t) (hcount : s.irqCount ≤ s.cfg.lastSlot) :
    t.irqCount ≤ s.cfg.lastSlot := by
  rw [(dispatch_only h).irq]
  obtain ⟨a, -, ha, -⟩ := dispatch_next.1 h
  rcases countInterrupt_next.1 ha with ⟨hline, hroom, -⟩ | ⟨hline, -⟩
  · rw [if_pos hline]; exact hroom
  · rw [if_neg (Nat.not_le.2 hline)]; exact hcount

/-- A dispatch keeps R42's invariants, whatever line is due. -/
theorem FrameState.of_dispatch {s t : State} (h : FrameState s) (ht : dispatch s = .next t) : FrameState t := by
  have d := dispatch_only ht
  have hmono : s.irqCount ≤ t.irqCount := by rw [d.irq]; split <;> omega
  have hbaseline : t.irqCount = 0 → (keptRaster ∘ recordedRaster s.nextLine) 0 = 0 := by
    intro hzero
    have hbefore : ¬16 ≤ s.nextLine := fun hline => by have := d.irq; rw [if_pos hline] at this; omega
    rw [Function.comp_apply, recordedRaster, if_neg hbefore]
    decide
  obtain ⟨hunused, hbound, hzero⟩ :=
    h.slots.of_onlySlot (dispatch_onlySlot ht) hmono le_rfl (fun _ _ => keptRaster_bounds _) hbaseline
  exact
    { lineP := by rw [d.lineP, d.cfg]; exact rearm_line_le _ h.lineP
      lineS := by rw [d.lineS, d.cfg]; exact rearm_line_le _ h.lineS
      nextIsMin := d.nextLine
      dueBeforeNext := by rw [d.nextCycle, d.cfg, d.cpf]; exact le_max_left _ _
      count := by rw [d.cfg]; exact dispatch_irqCount_le ht h.count
      unusedClear := hunused
      rasterBound := hbound
      baseline := hzero }

/-- `SCHED` sets up I1 and I3, where both lines lie in the frame or are exhausted. -/
theorem frameState_schedule {s : State} (hP : s.srcP.line ≤ s.cfg.scanlines) (hS : s.srcS.line ≤ s.cfg.scanlines)
    (hcount : s.irqCount ≤ s.cfg.lastSlot) (hslots : SlotsState s.irqCount s.snaps) : FrameState (schedule s) where
  lineP := hP
  lineS := hS
  nextIsMin := schedule_nextLine s
  dueBeforeNext := by rw [schedule_nextLine, schedule_nextCycle, schedule_cfg, schedule_cyclesPerFrame]
  count := hcount
  unusedClear := hslots.unusedClear
  rasterBound := hslots.rasterBound
  baseline := hslots.baseline

theorem trigLine_le (c : Config) (w : Word) : trigLine c w ≤ c.scanlines := Nat.min_le_right _ _

theorem loadSource_line_le (c : Config) (bsd : Bool) (w : Word) : (loadSource c bsd w).line ≤ c.scanlines := by
  unfold loadSource
  dsimp only
  split
  · exact trigLine_le c w
  · exact le_rfl

/-- Phase 1 sets R42's invariants up, from any state (R174). -/
theorem frameState_loadFrame (s : State) : FrameState (loadFrame s) :=
  frameState_schedule (loadSource_line_le _ _ _) (loadSource_line_le _ _ _) (Nat.zero_le _) (slotsState_clearSlots _ _ _ _)

theorem FrameState.reloadLines {s : State} (h : FrameState s) : FrameState (reloadLines s) :=
  frameState_schedule (trigLine_le _ _) (trigLine_le _ _) h.count h.slots

theorem FrameState.snapCopy_zero {s : State} (h : FrameState s) : FrameState (snapCopy 0 s) := by
  have honly : OnlySlot 0 id s.snaps (snapCopy 0 s).snaps := OnlySlot.modify fun _ _ => rfl
  obtain ⟨hunused, hbound, hzero⟩ :=
    h.slots.of_onlySlot honly le_rfl (Nat.zero_le _) (fun _ hr => hr) (fun _ => rfl)
  exact { lineP := h.lineP, lineS := h.lineS, nextIsMin := h.nextIsMin, dueBeforeNext := h.dueBeforeNext, count := h.count,
          unusedClear := hunused, rasterBound := hbound, baseline := hzero }

/-! ## Commands from outside -/

theorem Commanded.of_eq {s t : State} (h : Commanded s) (hport : t.port = s.port) (hdriver : t.driver = s.driver) :
    Commanded t := by
  refine ⟨?_, ?_⟩
  · rw [hport]; exact h.port
  · rw [hdriver]; exact h.driver

/-- The driver's act puts a command on the port or none (R220). -/
theorem Commanded.driverActs {s : State} (h : Commanded s) : Commanded (driverActs s) := by
  unfold Machine.driverActs
  split
  next => exact h
  next rest hdriver => exact ⟨h.port, fun i hi => h.driver i (hdriver ▸ List.mem_cons_of_mem _ hi)⟩
  next i rest hdriver =>
    obtain ⟨l, hl, hport⟩ := h.port
    have hi : i.isCommand = true := h.driver i (hdriver ▸ List.mem_cons_self)
    refine ⟨⟨l ++ [i], ?_, ?_⟩, fun j hj => h.driver j (hdriver ▸ List.mem_cons_of_mem _ hj)⟩
    · intro j hj
      rcases List.mem_append.1 hj with hj | hj
      · exact hl j hj
      · rw [List.mem_singleton.1 hj]; exact hi
    · simp [hport]

/-- The bytes of a command are read as that command, whatever follows them. -/
theorem decode_encode_command {i : Instr} (hi : i.isCommand = true) (rest : List Byte) :
    decode (encode i ++ rest) = .ok (i, rest) := by
  have hword (mk : Word → Instr) (w : Word) : decodeWord mk (highByte w :: lowByte w :: rest) = .ok (mk w, rest) := by
    rw [decodeWord, joinBytes_highByte_lowByte]
  cases i with
  | setup | fullreset | teardown => rfl
  | hookreg h present => cases h <;> cases present <;> rfl
  | ctrl w | trigP w | trigS w => exact hword _ w
  | _ => cases hi

/-- What stands on the port is nothing, or a command with commands behind it. -/
theorem Commanded.port_cases {s : State} (h : Commanded s) :
    s.port = [] ∨ ∃ (i : Instr) (rest : List Byte), i.isCommand = true ∧ decode s.port = .ok (i, rest) ∧
      Commanded { s with port := rest } := by
  obtain ⟨l, hl, hport⟩ := h.port
  cases l with
  | nil => exact .inl hport
  | cons i l =>
    obtain ⟨hi, hl⟩ := List.forall_mem_cons.1 hl
    refine .inr ⟨i, l.flatMap encode, hi, ?_, ⟨⟨l, hl, rfl⟩, h.driver⟩⟩
    rw [hport, List.flatMap_cons]
    exact decode_encode_command hi _

/-- Within a frame no command is accepted (R220). -/
theorem exec_command_of_ne_idle {i : Instr} (hi : i.isCommand = true) {s : State} (hs : s.phase ≠ .idle) :
    exec i s = .next s := by
  cases i with
  | setup => simp [exec, execSetup, setupAccepted, hs]
  | fullreset => simp [exec, execFullreset, fullresetAccepted, hs]
  | teardown => simp [exec, execTeardown, teardownAccepted, hs]
  | hookreg h present => simp [exec, execHookreg, hookregAccepted, hs]
  | ctrl w => exact congrArg Host.Outcome.next (storeWord_of_ne_idle hs _ w)
  | trigP w => exact congrArg Host.Outcome.next (storeWord_of_ne_idle hs _ w)
  | trigS w => exact congrArg Host.Outcome.next (storeWord_of_ne_idle hs _ w)
  | _ => cases hi

/-- What every command keeps of the fields that `FrameInv` reads between frames. -/
structure CommandKeeps (s t : State) : Prop where
  phase : t.phase = s.phase
  port : t.port = s.port
  driver : t.driver = s.driver
  capacity : s.snaps.length = s.cfg.capacity → t.snaps.length = t.cfg.capacity

theorem CommandKeeps.refl (s : State) : CommandKeeps s s := ⟨rfl, rfl, rfl, id⟩

theorem CommandKeeps.trans {s t u : State} (h : CommandKeeps s t) (h' : CommandKeeps t u) : CommandKeeps s u :=
  ⟨h'.phase.trans h.phase, h'.port.trans h.port, h'.driver.trans h.driver, h'.capacity ∘ h.capacity⟩

theorem CommandKeeps.ite {p : Prop} [Decidable p] {s t : State} (h : CommandKeeps s t) : CommandKeeps s (if p then t else s) := by
  split
  · exact h
  · exact .refl s

/-- An update that leaves the store's length alone. -/
theorem CommandKeeps.of_length {s t : State} (hphase : t.phase = s.phase) (hport : t.port = s.port)
    (hdriver : t.driver = s.driver) (hcfg : t.cfg = s.cfg) (hlength : t.snaps.length = s.snaps.length) : CommandKeeps s t :=
  ⟨hphase, hport, hdriver, fun h => by rw [hlength, h, hcfg]⟩

theorem commandKeeps_unspecify (c : Contents) (s : State) : CommandKeeps s (unspecify c s) :=
  ⟨rfl, rfl, rfl, fun _ => (stored_unspecify s c).capacity⟩

theorem commandKeeps_release (s : State) : CommandKeeps s (release s) :=
  ⟨rfl, rfl, rfl, fun _ => (stored_unspecify _ _).capacity⟩

theorem commandKeeps_finishSetup (c : Int) (s : State) : CommandKeeps s (finishSetup c s) := by
  unfold finishSetup
  split <;> apply CommandKeeps.of_length <;> simp

/-- Every command completes and keeps just this (R220 to R225). -/
theorem exec_command_keeps {i : Instr} (hi : i.isCommand = true) (s : State) : Answers (CommandKeeps s) (exec i s) := by
  have hword (off : Nat) (w : Word) : CommandKeeps s (storeWord off w s) := by
    apply CommandKeeps.of_length <;> simp
  cases i with
  | setup =>
    have hsignal (u : State) : CommandKeeps u (signal .subsysInit u) := .of_length rfl rfl rfl rfl rfl
    exact .next (((commandKeeps_unspecify _ s).trans ((hsignal _).trans (commandKeeps_finishSetup _ _))).ite)
  | fullreset =>
    have hreset : CommandKeeps s (fullReset s) := by apply CommandKeeps.of_length <;> simp
    exact .next hreset.ite
  | teardown =>
    have hhook : CommandKeeps s (callHook .preExit s) := by apply CommandKeeps.of_length <;> simp
    exact .next (hhook.trans (commandKeeps_release _)).ite
  | hookreg h present =>
    have hset : CommandKeeps s { s with hooks := s.hooks.set h present } := .of_length rfl rfl rfl rfl rfl
    exact .next hset.ite
  | ctrl w => exact .next (hword _ w)
  | trigP w => exact .next (hword _ w)
  | trigS w => exact .next (hword _ w)
  | _ => cases hi

/-! ## What holds inside the phases of a frame -/

/-- What holds at every point inside the phases 2 to 11, whatever `phase` stands at. -/
structure FrameRun (s : State) : Prop where
  capacity : s.snaps.length = s.cfg.capacity
  commanded : Commanded s
  state : FrameState s

theorem FrameInv.frameRun {s : State} (h : FrameInv s) (hs : Framed s) : FrameRun s := ⟨h.capacity, h.commanded, h.frame hs⟩

theorem FrameRun.frameInv {s : State} (h : FrameRun s) (hearly : s.phase = .catchup ∨ s.phase = .leadin → s.irqCount = 0) :
    FrameInv s :=
  ⟨h.capacity, h.commanded, fun _ => h.state, hearly⟩

/-- Between frames, and before phase 1, the invariant speaks of the store's size and of the commands only. -/
theorem frameInv_of_not_framed {s : State} (hcapacity : s.snaps.length = s.cfg.capacity) (hcommanded : Commanded s)
    (hphase : s.phase = .idle ∨ s.phase = .setupFrame) : FrameInv s := by
  refine ⟨hcapacity, hcommanded, fun hframed => ?_, fun hearly => ?_⟩
  · rcases hphase with h | h
    · exact absurd h hframed.1
    · exact absurd h hframed.2
  · rcases hphase with h | h <;> simp [h] at hearly

/-- The two states agree in every field that `FrameRun` reads. -/
structure SameRun (s t : State) : Prop where
  cfg : t.cfg = s.cfg
  cyclesPerFrame : t.cyclesPerFrame = s.cyclesPerFrame
  srcP : t.srcP = s.srcP
  srcS : t.srcS = s.srcS
  nextLine : t.nextLine = s.nextLine
  nextCycle : t.nextCycle = s.nextCycle
  irqCount : t.irqCount = s.irqCount
  snaps : t.snaps = s.snaps
  port : t.port = s.port
  driver : t.driver = s.driver

theorem FrameRun.of_same {s t : State} (h : FrameRun s) (e : SameRun s t) : FrameRun t := by
  obtain ⟨hcapacity, hcommanded, hlineP, hlineS, hmin, hdue, hcount, hunused, hbound, hzero⟩ := h
  refine ⟨by rw [e.snaps, e.cfg]; exact hcapacity, hcommanded.of_eq e.port e.driver, ?_⟩
  constructor <;> simpa only [e.cfg, e.cyclesPerFrame, e.srcP, e.srcS, e.nextLine, e.nextCycle, e.irqCount, e.snaps]

theorem FrameRun.withPhase {s : State} (h : FrameRun s) (p : Phase) : FrameRun { s with phase := p } :=
  h.of_same (by constructor <;> rfl)

theorem FrameRun.withSeg {s : State} (h : FrameRun s) (k : Seg) : FrameRun { s with seg := k } :=
  h.of_same (by constructor <;> rfl)

theorem FrameRun.runTo {s : State} (h : FrameRun s) (t : Int) : FrameRun (runTo t s) := h.of_same (by constructor <;> simp)

/-- A phase that is not before the end of the lead-in leaves `FrameInv` where it leaves `FrameRun`. -/
theorem FrameRun.answers {s : State} (h : FrameRun s) {p : Phase} (hcatchup : p ≠ .catchup) (hleadin : p ≠ .leadin) :
    Answers FrameInv (.next { s with phase := p }) :=
  .next ((h.withPhase p).frameInv fun hearly => (hearly.elim hcatchup hleadin).elim)

theorem FrameRun.of_dispatch {s t : State} (h : FrameRun s) (ht : dispatch s = .next t) : FrameRun t := by
  have d := dispatch_only ht
  exact ⟨by rw [d.len, d.cfg]; exact h.capacity, h.commanded.of_eq d.port d.driver, h.state.of_dispatch ht⟩

/-! ## The phases -/

/-- `IDLE` between frames: the environment moves, then the driver acts (R175). -/
theorem execIdle_frameInv {s : State} (h : FrameInv s) (hs : s.phase = .idle) : Answers FrameInv (execIdle s) := by
  rw [execIdle, if_pos hs]
  have hcommanded : Commanded (interleave s) := h.commanded.of_eq rfl rfl
  refine .next (frameInv_of_not_framed ?_ hcommanded.driverActs ?_)
  · simpa using h.capacity
  · unfold driverActs
    split
    · exact .inl hs
    · dsimp only
      split
      · exact .inr rfl
      · exact .inl hs
    · exact .inl hs

theorem execSetupFrame_frameInv {s : State} (h : FrameInv s) : Answers FrameInv (execSetupFrame s) := by
  have hrun : FrameRun (loadFrame (openFrame s)) :=
    ⟨by simpa [loadFrame] using h.capacity, h.commanded.of_eq (by simp) (by simp), frameState_loadFrame _⟩
  exact .next ((hrun.withPhase .catchup).frameInv fun _ => rfl)

theorem execCatchup_frameInv {s : State} (h : FrameRun s) (hcount : s.irqCount = 0) : Answers FrameInv (execCatchup s) := by
  have hidle : FrameRun (idleCycles s.carry { s with phase := .catchup }) := h.of_same (by constructor <;> rfl)
  exact .next ((hidle.withPhase .leadin).frameInv fun _ => hcount)

/-- The lead-in's dispatch has a slot: the store has a slot behind the baseline's (R7, R178). -/
theorem leadinDispatch_frameRun {s : State} (h : FrameRun s) (hcount : s.irqCount = 0) :
    Answers FrameRun (leadinDispatch s) := by
  unfold leadinDispatch
  split
  · have hrun := h.runTo s.nextCycle
    have hroom : (runTo s.nextCycle s).irqCount < (runTo s.nextCycle s).cfg.lastSlot := by
      rw [runTo_irqCount, hcount]; exact Nat.succ_pos _
    obtain ⟨t, ht⟩ := dispatch_total hrun.capacity hroom
    exact ⟨t, ht, hrun.of_dispatch ht⟩
  · exact .next h

theorem execLeadin_frameInv {s : State} (h : FrameRun s) (hcount : s.irqCount = 0) : Answers FrameInv (execLeadin s) :=
  (leadinDispatch_frameRun (h.withPhase .leadin) hcount).andThen fun _ hu => (hu.runTo _).answers nofun nofun

theorem execBasesnap_frameInv {s : State} (h : FrameRun s) : Answers FrameInv (execBasesnap s) := by
  have hphase := h.withPhase .basesnap
  have hsnap : FrameRun (snapCopy 0 { s with phase := .basesnap }) :=
    ⟨(snapCopy_snaps_length _ _).trans hphase.capacity, hphase.commanded.of_eq rfl rfl, hphase.state.snapCopy_zero⟩
  exact hsnap.answers nofun nofun

theorem execLateguard_frameInv {s : State} (h : FrameRun s) : Answers FrameInv (execLateguard s) := by
  have hreload : FrameRun (reloadLines s) := ⟨h.capacity, h.commanded.of_eq rfl rfl, h.state.reloadLines⟩
  refine FrameRun.answers ?_ nofun nofun
  split
  · exact hreload
  · exact h

/-- A segment's loop ends before its fuel does, without a fault (R185, R187). -/
theorem runSegment_frameRun (b : Int) {fuel : Nat} {s : State} (h : FrameRun s) (hfuel : segmentMeasure s < fuel) :
    Answers FrameRun (runSegment b fuel s) := by
  induction fuel generalizing s with
  | zero => omega
  | succ fuel ih =>
    rw [runSegment_succ]
    split
    next hopen =>
      obtain ⟨u, hu, -, hmeasure⟩ := segment_iteration ((dispatchOpen_iff b s).1 hopen).2 h.capacity
      rw [hu, andThen_of_next]
      exact ih ((h.runTo _).of_dispatch hu) (by omega)
    next => exact .next (h.runTo b)

theorem activeSegment_frameRun (k : Seg) {s : State} (h : FrameRun s) : Answers FrameRun (activeSegment k s) :=
  runSegment_frameRun _ (h.withSeg k) (segmentMeasure_lt_fuel _)

theorem execActive_frameInv {s : State} (h : FrameRun s) : Answers FrameInv (execActive s) :=
  (activeSegment_frameRun .one (h.withPhase .active)).andThen fun _ h₁ =>
    (activeSegment_frameRun .two h₁).andThen fun _ h₂ =>
      (activeSegment_frameRun .three h₂).andThen fun _ h₃ => h₃.answers nofun nofun

/-! The phases after the active display leave alone what `FrameRun` reads (R190 to R195). -/

theorem execObjcap_frameInv {s : State} (h : FrameRun s) : Answers FrameInv (execObjcap s) :=
  FrameRun.answers (h.of_same (by constructor <;> simp)) nofun nofun

theorem execVblank_frameInv {s : State} (h : FrameRun s) : Answers FrameInv (execVblank s) :=
  FrameRun.answers (h.of_same (by constructor <;> simp)) nofun nofun

theorem execDrain_frameInv {s : State} (h : FrameRun s) : Answers FrameInv (execDrain s) :=
  ((h.withPhase .drain).runTo _).answers nofun nofun

theorem execDrift_frameInv {s : State} (h : FrameRun s) : Answers FrameInv (execDrift s) :=
  FrameRun.answers (h.of_same (by constructor <;> simp)) nofun nofun

theorem execFrameend_frameInv {s : State} (h : FrameRun s) : Answers FrameInv (execFrameend s) :=
  FrameRun.answers (h.of_same (by constructor <;> simp)) nofun nofun

/-! ## A step -/

/-- The operation whose code is the phase keeps the invariant (R99, R175). -/
theorem exec_phaseInstr_frameInv {s : State} (h : FrameInv s) : Answers FrameInv (exec (phaseInstr s.phase) s) := by
  have hrun (hidle : s.phase ≠ .idle) (hsetup : s.phase ≠ .setupFrame) : FrameRun s := h.frameRun ⟨hidle, hsetup⟩
  cases hs : s.phase <;> simp only [hs, ne_eq, reduceCtorEq, not_false_eq_true, forall_const] at hrun
  case idle => exact execIdle_frameInv h hs
  case setupFrame => exact execSetupFrame_frameInv h
  case catchup => exact execCatchup_frameInv hrun (h.early (.inl hs))
  case leadin => exact execLeadin_frameInv hrun (h.early (.inr hs))
  case basesnap => exact execBasesnap_frameInv hrun
  case lateguard => exact execLateguard_frameInv hrun
  case active => exact execActive_frameInv hrun
  case objcap => exact execObjcap_frameInv hrun
  case vblank => exact execVblank_frameInv hrun
  case drain => exact execDrain_frameInv hrun
  case drift => exact execDrift_frameInv hrun
  case frameend => exact execFrameend_frameInv hrun

/-- A command keeps the invariant: between frames it completes, within one it does nothing (R220). -/
theorem exec_command_frameInv {i : Instr} (hi : i.isCommand = true) {s : State} (h : FrameInv s) :
    Answers FrameInv (exec i s) := by
  by_cases hs : s.phase = .idle
  · obtain ⟨t, ht, hkeeps⟩ := exec_command_keeps hi s
    exact ⟨t, ht, frameInv_of_not_framed (hkeeps.capacity h.capacity) (h.commanded.of_eq hkeeps.port hkeeps.driver)
      (.inl (hkeeps.phase.trans hs))⟩
  · exact ⟨s, exec_command_of_ne_idle hi hs, h⟩

/-- Taking bytes off the port touches none of R42's invariants. -/
theorem FrameInv.withPort {s : State} {rest : List Byte} (h : FrameInv s) (hrest : Commanded { s with port := rest }) :
    FrameInv { s with port := rest } := by
  refine ⟨h.capacity, hrest, fun hs => ?_, h.early⟩
  obtain ⟨hlineP, hlineS, hmin, hdue, hcount, hunused, hbound, hzero⟩ := h.frame hs
  exact ⟨hlineP, hlineS, hmin, hdue, hcount, hunused, hbound, hzero⟩

theorem step_frameInv {s : State} (h : FrameInv s) : Answers FrameInv (step s) := by
  rcases h.commanded.port_cases with hport | ⟨i, rest, hi, hdecode, hrest⟩
  · rw [step_of_fetch_ok (fetch_of_port_nil hport)]
    exact exec_phaseInstr_frameInv h
  · rw [step_of_decode_ok hdecode]
    exact exec_command_frameInv hi (h.withPort hrest)

/-- Settles O57: the next operation is the phase's own or a command, and each answers a next state with the invariant. -/
theorem frameInvariantKept : Obligations.FrameInvariantKept := by
  unfold Obligations.FrameInvariantKept
  intro s h
  obtain ⟨t, ht, hinv⟩ := step_frameInv h
  refine ⟨⟨t, ht⟩, fun t' ht' => ?_⟩
  obtain rfl : t = t' := Host.Outcome.next.inj (ht.symm.trans ht')
  exact hinv

end Sys2Proof.Machine

/-! PROOFS. `DISPATCH` as one update of the state, and what follows from it (41_dispatcher.md R140 to R150). -/

namespace Sys2Proof.Machine

/-! ## Step e: the two sources -/

/-- Step e writes a source's line and nothing else (R145). -/
theorem rearm_eq (c : Config) (due : Nat) (src : Source) :
    rearm c due src = { src with line := (rearm c due src).line } := by
  unfold rearm
  split <;> split <;> rfl

section RearmLine

variable (c : Config) {due : Nat} {src : Source}

/-- A source on the line moves on by the stride, or is exhausted (R145). -/
theorem rearm_line_of_eq (h : src.line = due) :
    (rearm c due src).line = if src.autoRepeat then min (due + 32) c.scanlines else c.scanlines := by
  rw [rearm_line, if_pos h, if_pos h.le, h]

/-- A source on a later line stays (R145). -/
theorem rearm_line_of_lt (h : due < src.line) : (rearm c due src).line = src.line := by
  rw [rearm_line, if_neg h.ne', if_neg h.not_ge, ite_self]

/-- Step e leaves a source beyond the line that fired, where it stood on that line or later (R150). -/
theorem lt_rearm_line (hdue : due < c.scanlines) (h : due ≤ src.line) : due < (rearm c due src).line := by
  rcases h.eq_or_lt with heq | hlt
  · rw [rearm_line_of_eq c heq.symm]
    split
    · exact lt_min (by omega) hdue
    · exact hdue
  · rwa [rearm_line_of_lt c hlt]

end RearmLine

/-! ## Steps a and d: the slot -/

/-- A modification looks at the function on the one entry it changes. -/
theorem modify_congr_of_getElem? {α : Type} {l : List α} {i : Nat} {f g : α → α} (h : ∀ x, l[i]? = some x → f x = g x) :
    l.modify i f = l.modify i g := by
  rw [List.modify_eq_set_getElem?, List.modify_eq_set_getElem?]
  cases hx : l[i]? with
  | none => rfl
  | some x => rw [Option.map_eq_map, Option.map_eq_map, Option.map_some, Option.map_some, h x hx]

/-- The slot a dispatch works on: `irqCount` after step a (R141). -/
def dispatchSlot (s : State) : Nat := if 16 ≤ s.nextLine then s.irqCount + 1 else s.irqCount

/-- What step a makes of that slot (R141). -/
def recordSlot (due : Nat) (slot : Slot) : Slot := { slot with rasterLine := recordedRaster due slot.rasterLine }

/-- What step d makes of it in the state `r` (R144). -/
def captureSlot (r : State) (slot : Slot) : Slot :=
  if inActive slot.rasterLine then { slot with regCopy := r.rf, auxCopy := r.aux, populated := true }
  else { slot with rasterLine := 0 }

/-- Step a, where the store has room (R141). -/
theorem countInterrupt_eq {s : State} (hroom : 16 ≤ s.nextLine → s.irqCount < s.cfg.lastSlot) :
    countInterrupt s.nextLine s =
      .next { s with irqCount := dispatchSlot s, snaps := s.snaps.modify (dispatchSlot s) (recordSlot s.nextLine) } := by
  rw [countInterrupt_next, dispatchSlot]
  by_cases hline : 16 ≤ s.nextLine
  · have hrecord : recordSlot s.nextLine = fun slot => { slot with rasterLine := (s.nextLine - firstLine : Nat) } := by
      funext slot
      rw [recordSlot, recordedRaster, if_pos hline]
    refine .inl ⟨hline, hroom hline, ?_⟩
    rw [if_pos hline, hrecord, setRaster]
  · have hrecord : recordSlot s.nextLine = id := by
      funext slot
      rw [recordSlot, recordedRaster, if_neg hline]
      rfl
    refine .inr ⟨Nat.lt_of_not_le hline, ?_⟩
    rw [if_neg hline, hrecord, List.modify_id]

/-- Step a, where it would count past `LAST_SLOT` (R141, R242). -/
theorem countInterrupt_overflow {due : Nat} {s : State} (hline : 16 ≤ due) (hfull : s.cfg.lastSlot ≤ s.irqCount) :
    countInterrupt due s = .fault .snapOverflow := by
  have hcounted : counted due = true := decide_eq_true hline
  rw [countInterrupt, if_pos hcounted, if_neg (Nat.not_lt.2 hfull)]

/-- Step d, on a slot of the store (R144). -/
theorem capture_eq {s : State} (h : s.irqCount < s.snaps.length) :
    capture s = .next { s with snaps := s.snaps.modify s.irqCount (captureSlot s) } := by
  have hslot : s.snaps[s.irqCount]? = some s.snaps[s.irqCount] := List.getElem?_eq_getElem h
  have hown {slot : Slot} (hs : s.snaps[s.irqCount]? = some slot) : slot = s.snaps[s.irqCount] :=
    Option.some.inj (hs.symm.trans hslot)
  refine capture_next.2 ⟨_, hslot, ?_⟩
  split
  next hactive =>
    rw [snapCopy, modify_congr_of_getElem? fun slot hs => ?_]
    rw [captureSlot, hown hs, if_pos hactive]
  next hactive =>
    rw [setRaster, modify_congr_of_getElem? fun slot hs => ?_]
    rw [captureSlot, hown hs, if_neg hactive]

/-! ## The seven steps -/

/-- Steps b and c neither read nor write the counter and the store (R142, R143). -/
theorem interruptAndRun_withStore (s : State) (k : Nat) (l : List Slot) :
    interruptAndRun { s with irqCount := k, snaps := l } = { interruptAndRun s with irqCount := k, snaps := l } := by
  unfold interruptAndRun run
  dsimp only [irqAssert_executedTotal]
  split <;> rfl

/-- The store after a dispatch (R141, R144). -/
def dispatchedSnaps (s : State) : List Slot :=
  s.snaps.modify (dispatchSlot s) (captureSlot (interruptAndRun s) ∘ recordSlot s.nextLine)

/-- The state after a dispatch (R140). -/
def dispatched (s : State) : State :=
  forceProgress (schedule (rearmSources s.nextLine
    { interruptAndRun s with irqCount := dispatchSlot s, snaps := dispatchedSnaps s }))

/-- `DISPATCH` where the slot it works on is in the store: the seven steps as one state (R140). -/
theorem dispatch_eq {s : State} (hroom : 16 ≤ s.nextLine → s.irqCount < s.cfg.lastSlot)
    (hslot : dispatchSlot s < s.snaps.length) : dispatch s = .next (dispatched s) := by
  refine dispatch_next.2 ⟨_, _, countInterrupt_eq hroom, ?_, rfl⟩
  rw [interruptAndRun_withStore, capture_eq (by rwa [List.length_modify]), dispatchedSnaps, ← List.modify_modify_eq]
  rfl

@[simp] theorem dispatched_snaps (s : State) : (dispatched s).snaps = dispatchedSnaps s := forceProgress_snaps _

@[simp] theorem dispatched_executedTotal (s : State) : (dispatched s).executedTotal = (interruptAndRun s).executedTotal :=
  forceProgress_executedTotal _

@[simp] theorem dispatched_srcP (s : State) : (dispatched s).srcP = rearm s.cfg s.nextLine s.srcP := by
  simp [dispatched, rearmSources]

@[simp] theorem dispatched_srcS (s : State) : (dispatched s).srcS = rearm s.cfg s.nextLine s.srcS := by
  simp [dispatched, rearmSources]

/-- Steps a and d to g write the counter, the store, the sources and the schedule (R141, R144 to R147). -/
theorem dispatched_frame (s : State) :
    dispatched s =
      { interruptAndRun s with
        irqCount := (dispatched s).irqCount, snaps := (dispatched s).snaps, srcP := (dispatched s).srcP
        srcS := (dispatched s).srcS, nextLine := (dispatched s).nextLine, nextCycle := (dispatched s).nextCycle } := by
  rw [dispatched, forceProgress_eq]
  rfl

theorem exec_dispatch : ∀ s : State, exec .dispatch s = dispatch s := by intros; rfl

theorem exec_snapcopy : ∀ (i : Nat) (s : State), exec (.snapcopy i) s = execSnapcopy i s := by intros; rfl

/-! ## The slot of a dispatch in the terms of R141 and R144 -/

theorem recordedRaster_eq (due : Nat) (raster : Int) :
    recordedRaster due raster = if 16 ≤ due then (due : Int) - 16 else raster := by
  unfold recordedRaster firstLine
  split
  · exact Nat.cast_sub ‹_›
  · rfl

theorem inActive_iff (raster : Int) : inActive raster = true ↔ 0 ≤ raster ∧ raster < 224 := by
  rw [inActive, activeLines, Bool.and_eq_true, decide_eq_true_iff, decide_eq_true_iff]
  rfl

/-- Steps a and d on the slot of a dispatch: both images under the raster line, or the discard (R141, R144). -/
theorem captureSlot_recordSlot (r : State) (due : Nat) (slot : Slot) :
    captureSlot r (recordSlot due slot) =
      if 0 ≤ recordedRaster due slot.rasterLine ∧ recordedRaster due slot.rasterLine < 224 then
        { rasterLine := recordedRaster due slot.rasterLine, populated := true, regCopy := r.rf, auxCopy := r.aux }
      else { slot with rasterLine := 0 } := by
  simp only [captureSlot, recordSlot, inActive_iff]

theorem dispatchedSnaps_getElem? {s : State} {j : Nat} {slot : Slot} (h : s.snaps[j]? = some slot) :
    (dispatchedSnaps s)[j]? = some
      (if j = dispatchSlot s then captureSlot (interruptAndRun s) (recordSlot s.nextLine slot) else slot) := by
  rw [dispatchedSnaps, List.getElem?_modify, h, Option.map_eq_map, Option.map_some]
  simp only [eq_comm, Function.comp_apply]

theorem dispatchSlot_lt {s : State} (hlen : s.snaps.length = s.cfg.capacity)
    (hbefore : s.nextLine < 16 → s.irqCount ≤ s.cfg.lastSlot) (hroom : 16 ≤ s.nextLine → s.irqCount < s.cfg.lastSlot) :
    dispatchSlot s < s.snaps.length := by
  have hcap : s.cfg.capacity = s.cfg.lastSlot + 1 := rfl
  rw [dispatchSlot, hlen, hcap]
  split <;> omega

/-! ## The statements -/

/-- Settles O17: the dispatch is one update of the state, which the rules' formulas describe field by field. -/
theorem dispatchResult : Obligations.DispatchResult := by
  unfold Obligations.DispatchResult
  intro s hlen hbefore hroom k raster r line
  have hdispatch : dispatch s = .next (dispatched s) := dispatch_eq hroom (dispatchSlot_lt hlen hbefore hroom)
  have d := dispatch_only hdispatch
  have hsource (src : Source) : rearm s.cfg s.nextLine src = { src with line := line src } := by
    rw [rearm_eq, rearm_line]
  refine ⟨dispatched s, (exec_dispatch s).trans hdispatch, d.irq, d.len, fun j slot h => ?slots,
    (dispatched_srcP s).trans (hsource _), (dispatched_srcS s).trans (hsource _), d.nextLine, ?cycle, dispatched_frame s⟩
  case slots =>
    rw [dispatched_snaps, dispatchedSnaps_getElem? h, captureSlot_recordSlot, recordedRaster_eq]
    rfl
  case cycle =>
    rw [d.nextCycle, dispatched_executedTotal, max_comm, dueCycle, Nat.cast_ite]
    rfl

/-- Settles O19: a source on the line moves past it, one on a later line stays beyond it (R150). -/
theorem dispatchAdvancesLines : Obligations.DispatchAdvancesLines := by
  unfold Obligations.DispatchAdvancesLines
  intro s t hmin hdue ht
  rw [exec_dispatch] at ht
  have d := dispatch_only ht
  have hP : s.nextLine < t.srcP.line := by
    rw [d.lineP]; exact lt_rearm_line _ hdue (hmin ▸ min_le_left _ _)
  have hS : s.nextLine < t.srcS.line := by
    rw [d.lineS]; exact lt_rearm_line _ hdue (hmin ▸ min_le_right _ _)
  refine ⟨hP, hS, d.nextLine ▸ lt_min hP hS, ?_⟩
  rw [d.lineP, d.lineS]
  exact ⟨rearm_line_of_eq _, rearm_line_of_eq _, rearm_line_of_lt _, rearm_line_of_lt _⟩

/-- Settles O18: step g leaves the maximum of the due cycle and the account's successor (R147). -/
theorem dispatchSchedulesForward : Obligations.DispatchSchedulesForward := by
  unfold Obligations.DispatchSchedulesForward
  intro s t ht
  rw [exec_dispatch] at ht
  rw [(dispatch_only ht).nextCycle]
  exact Int.lt_of_lt_of_le (Int.lt_succ _) (le_max_right _ _)

/-- Settles O21, by R148's cases on the mode of the source; the model's step e is shape B. -/
theorem rearmShapesAgree : Obligations.RearmShapesAgree := by
  unfold Obligations.RearmShapesAgree
  intro c due src shapeA shapeB
  have hshapes : shapeA = shapeB := by
    unfold shapeA shapeB
    cases src.autoRepeat with
    | false => simp only [true_and, false_and, Bool.false_eq_true, if_false]
    | true => simp only [true_and, false_and, Bool.true_eq_false, if_false, if_true]
  refine ⟨hshapes, ?_⟩
  rw [hshapes, rearm_eq, rearm_line]

/-- Settles O28: step a stops the dispatch before anything else is done, and `SNAPCOPY` tests its index first. -/
theorem slotsOutsideTheStoreFault : Obligations.SlotsOutsideTheStoreFault := by
  unfold Obligations.SlotsOutsideTheStoreFault
  intro i s
  constructor
  · intro hline hfull
    rw [exec_dispatch, dispatch, countInterrupt_overflow hline hfull, andThen_of_fault]
  · intro hi
    rw [exec_snapcopy, execSnapcopy, if_neg (Nat.not_le.2 hi)]

end Sys2Proof.Machine

/-! PROOFS. The primitives `Run`, `RunTo` and `Idle`, and the phases that neither dispatch nor sample a word (42_frame_phases.md
R170 to R176, R182, R190 to R195). -/

namespace Sys2Proof.Machine

/-! ## The primitives -/

theorem exec_run : ∀ (n : Int) (s : State), exec (.run n) s = .next (run n s) := by intros; rfl

/-- Settles O23: what the processor reports is within the contract, and the rest is the environment's move (R170). -/
theorem runResult : Obligations.RunResult := by
  unfold Obligations.RunResult
  intro n s
  refine ⟨fun hn => ?_, fun hn => ?_⟩
  · rw [exec_run, run_of_nonpos hn]
  · obtain ⟨hlow, hhigh⟩ := reported_bounds n s
    refine ⟨reported n s, hlow, hhigh, ?_⟩
    rw [exec_run, run_of_pos hn]
    rfl

theorem runTo_of_le {t : Int} {s : State} (h : t ≤ s.executedTotal) : runTo t s = s := if_neg (Int.not_lt.2 h)

theorem runTo_of_lt {t : Int} {s : State} (h : s.executedTotal < t) : runTo t s = run (t - s.executedTotal) s := if_pos h

theorem le_runTo_executedTotal (t : Int) (s : State) : t ≤ (runTo t s).executedTotal := by
  rcases le_or_gt t s.executedTotal with h | h
  · rwa [runTo_of_le h]
  · rw [runTo_of_lt h]
    have := run_executedTotal_bounds (t - s.executedTotal) s
    omega

theorem runTo_executedTotal_le (t : Int) (s : State) :
    (runTo t s).executedTotal ≤ max s.executedTotal (t + s.cfg.runOverMax) := by
  rcases le_or_gt t s.executedTotal with h | h
  · rw [runTo_of_le h]
    exact le_max_left _ _
  · rw [runTo_of_lt h]
    have := run_executedTotal_bounds (t - s.executedTotal) s
    omega

/-- Settles O25, from the bounds of the one `Run` it may make (R171). -/
theorem runToReaches : Obligations.RunToReaches := by
  unfold Obligations.RunToReaches
  intro t s
  refine ⟨runTo_of_le, fun h => ?_, le_runTo_executedTotal t s, runTo_executedTotal_le t s⟩
  rw [exec_run, runTo_of_lt h]

/-- `phase` passes through `RunTo` (R36). -/
theorem runTo_withPhase (t : Int) (s : State) (p : Phase) : runTo t { s with phase := p } = { runTo t s with phase := p } :=
  (runTo_phase_seg t s p s.seg).trans (congrArg (fun k => { runTo t s with phase := p, seg := k }) (runTo_seg t s).symm)

/-- Settles O26: `Idle` is this one update of the state (R172). -/
theorem idlecycResult : Obligations.IdlecycResult := by
  unfold Obligations.IdlecycResult
  intro n s
  rfl

/-! ## Phase 0 -/

/-- `IDLE` between frames: the environment's move, then the driver's act (R175). -/
theorem exec_idle_of_idle {s : State} (h : s.phase = .idle) : exec .idle s = .next (driverActs (interleave s)) :=
  congrArg Host.Outcome.next (if_pos h)

/-- Settles O30, by what stands first on the driver's tape. -/
theorem idleResult : Obligations.IdleResult := by
  unfold Obligations.IdleResult
  intro s
  refine ⟨fun hphase => congrArg Host.Outcome.next (if_neg hphase), ?nothing, ?frameStart, ?issue⟩
  case nothing =>
    intro hphase hdriver
    rw [exec_idle_of_idle hphase, driverActs, interleave_driver, hdriver]
  case frameStart =>
    intro rest hphase hdriver
    have haccepted : frameAccepted (interleave s) = s.setupDone := by simp [frameAccepted, hphase]
    rw [exec_idle_of_idle hphase, driverActs, interleave_driver, hdriver]
    simp only [haccepted, interleave_phase, hphase]
  case issue =>
    intro i rest hphase hdriver
    rw [exec_idle_of_idle hphase, driverActs, interleave_driver, hdriver]
    simp only [interleave_port]

/-! ## Phases 2 and 4 -/

/-- Settles O33: the carry is idled and nothing else is written but the phase (R176). -/
theorem catchupResult : Obligations.CatchupResult := by
  unfold Obligations.CatchupResult
  intro s
  rfl

/-- Settles O36: phase 4 is `SnapCopy(0)`, slot by slot (R182). -/
theorem basesnapResult : Obligations.BasesnapResult := by
  unfold Obligations.BasesnapResult
  intro s _
  refine ⟨{ snapCopy 0 s with phase := .lateguard }, rfl, rfl, snapCopy_snaps_length 0 s, fun j slot hslot => ?_⟩
  show (snapCopy 0 s).snaps[j]? = _
  rw [snapCopy_getElem?, hslot]
  by_cases hj : j = 0
  · rw [if_pos hj.symm, if_pos hj]; rfl
  · rw [if_neg (Ne.symm hj), if_neg hj]

/-! ## Phases 7 to 11 -/

theorem callHook_of_registered (k : Hook) (s : State) (h : s.hooks.get k = true) :
    callHook k s = signal (hookEvent k) s := if_pos h

theorem callHook_of_unregistered (k : Hook) (s : State) (h : ¬s.hooks.get k = true) :
    callHook k s = s := if_neg h

theorem callAudio_of_disabled (e : Event) (s : State) (h : s.inputs.audioDisable = true) :
    callAudio e s = s := if_pos h

theorem callAudio_of_enabled (e : Event) (s : State) (h : ¬s.inputs.audioDisable = true) :
    callAudio e s = signal e s := if_neg h

theorem callDraw_of_skip (s : State) (h : s.inputs.frameSkip = true) : callDraw s = s := if_pos h

theorem callDraw_of_not_skip (s : State) (h : ¬s.inputs.frameSkip = true) : callDraw s = signal .draw s := if_neg h

/-- Settles O41, in both cases of the frame-midpoint callback (R190). -/
theorem objcapResult : Obligations.ObjcapResult := by
  unfold Obligations.ObjcapResult
  intro s
  refine ⟨_, rfl, rfl, ?out, ?frame⟩
  case out =>
    show (callHook .frameMid { s with phase := .objcap }).out ++ [.objCapture] = _
    rw [callHook_out]
    rfl
  case frame =>
    show { signal .objCapture (callHook .frameMid { s with phase := .objcap }) with phase := .vblank } = _
    by_cases hhook : s.hooks.frameMid = true
    · rw [callHook_of_registered .frameMid { s with phase := .objcap } hhook, if_pos hhook]
      rfl
    · rw [callHook_of_unregistered .frameMid { s with phase := .objcap } hhook, if_neg hhook]
      rfl

/-- The state in which phase 8 comes to the renderer: the vertical-blank interrupt is asserted (R191). -/
def vblankAsserted (s : State) : State := irqAssert s.cfg.vblankIrqLevel { s with phase := .vblank }

theorem exec_vblank : ∀ s : State, exec .vblank s = .next { callDraw (vblankAsserted s) with phase := .drain } := by intros; rfl

/-- Settles O42: the interrupt in both cases, the renderer in one (R191). -/
theorem vblankResult : Obligations.VblankResult := by
  unfold Obligations.VblankResult
  intro s
  rw [exec_vblank]
  by_cases hskip : s.inputs.frameSkip = true
  · rw [callDraw_of_skip (vblankAsserted s) hskip, if_pos hskip]
    rfl
  · rw [callDraw_of_not_skip (vblankAsserted s) hskip, if_neg hskip]
    simp only [vblankAsserted, signal, interleave, irqAssert, emit, answer, List.append_assoc, List.cons_append,
      List.nil_append]

/-- Phase 9 is `RunTo(cyclesPerFrame)` (R192). -/
theorem exec_drain (s : State) : exec .drain s = .next { runTo s.cyclesPerFrame s with phase := .drift } := by
  show Host.Outcome.next { runTo s.cyclesPerFrame { s with phase := .drain } with phase := .drift } = _
  rw [runTo_withPhase]

/-- Settles O43, by the two cases of `RunTo` (R171, R192). -/
theorem drainResult : Obligations.DrainResult := by
  unfold Obligations.DrainResult
  intro s
  refine ⟨_, exec_drain s, le_runTo_executedTotal _ s, fun h => ?_, fun h => ?_⟩
  · rw [runTo_of_le h]
  · exact ⟨_, exec_run _ s, by rw [runTo_of_lt h]⟩

/-- The state in which phase 10 comes to the callback: the carry is computed and the context released (R193, R194). -/
def driftClosed (s : State) : State := emit .ctxRelease { s with phase := .drift, carry := s.executedTotal - s.cyclesPerFrame }

theorem exec_drift : ∀ s : State, exec .drift s = .next { callHook .frameEnd (driftClosed s) with phase := .frameend } := by
  intros; rfl

/-- Settles O44, in both cases of the frame-end callback (R193, R194). -/
theorem driftResult : Obligations.DriftResult := by
  unfold Obligations.DriftResult
  intro s
  rw [exec_drift]
  by_cases hhook : s.hooks.frameEnd = true
  · rw [callHook_of_registered .frameEnd (driftClosed s) hhook, if_pos hhook]
    simp only [driftClosed, signal, interleave, emit, answer, hookEvent, List.append_assoc, List.cons_append, List.nil_append]
  · rw [callHook_of_unregistered .frameEnd (driftClosed s) hhook, if_neg hhook]
    rfl

/-- Settles O45, in both cases of the audio input (R195). -/
theorem frameendResult : Obligations.FrameendResult := by
  unfold Obligations.FrameendResult
  intro s
  show Host.Outcome.next { callAudio .audioEnd { s with phase := .frameend } with phase := .idle } = _
  by_cases haudio : s.inputs.audioDisable = true
  · rw [callAudio_of_disabled .audioEnd { s with phase := .frameend } haudio, if_pos haudio]
  · rw [callAudio_of_enabled .audioEnd { s with phase := .frameend } haudio, if_neg haudio]
    rfl

end Sys2Proof.Machine

/-! PROOFS. The phases that sample the register words: `SETUP_FRAME` and `LATEGUARD` (42_frame_phases.md R173, R174, R183). -/

namespace Sys2Proof.Machine

/-! ## The words -/

theorem trigLine_eq (c : Config) (w : Word) : trigLine c w = min (w.toNat % 512) c.scanlines := by
  obtain ⟨-, -, hline⟩ := triggerWordDecodesAutoAndLine c w w
  exact hline

theorem dueCycle_eq (c : Config) (cpf l : Nat) :
    (dueCycle c cpf l : Int) = if l < c.scanlines then ((l * cpf / c.scanlines + 1 : Nat) : Int) else (cpf + 1 : Nat) := by
  rw [dueCycle, Nat.cast_ite]
  rfl

/-- `LOADSRC` in the bits of the word (R174). -/
theorem loadSource_eq (c : Config) (off : Bool) (w : Word) :
    loadSource c off w =
      { autoRepeat := w.getLsbD 15, enabled := w.getLsbD 15 || !off
        line := if w.getLsbD 15 || !off then min (w.toNat % 512) c.scanlines else c.scanlines } := by
  rw [← trigLine_eq]
  rfl

/-! ## Phase 1 -/

theorem exec_setupFrame : ∀ s : State, exec .setupFrame s = .next { loadFrame (openFrame s) with phase := .catchup } := by
  intros; rfl

/-- The state after phase 1 has honoured the reset request, or there was none (R173, R223). -/
def resetHonoured (s : State) : State :=
  if s.inputs.resetRequest then fullReset { s with phase := .setupFrame } else { s with phase := .setupFrame }

/-- The state in which phase 1 calls the audio subsystem (R173). -/
def frameOpened (s : State) : State :=
  { emit .cpuBeginFrame (emit .ctxSelect (resetHonoured s)) with executedTotal := 0 }

theorem openFrame_eq (s : State) : openFrame s = callHook .frameStart (callAudio .audioBegin (frameOpened s)) := rfl

@[simp] theorem openFrame_executedTotal (s : State) : (openFrame s).executedTotal = 0 := by
  rw [openFrame_eq, callHook_executedTotal, callAudio_executedTotal]
  rfl

theorem resetHonoured_carry (s : State) : (resetHonoured s).carry = if s.inputs.resetRequest then 0 else s.carry := by
  unfold resetHonoured
  split
  · exact fullReset_carry _
  · rfl

theorem openFrame_carry (s : State) : (openFrame s).carry = if s.inputs.resetRequest then 0 else s.carry := by
  rw [openFrame_eq, callHook_carry, callAudio_carry, ← resetHonoured_carry]
  rfl

theorem openFrame_pending (s : State) : (openFrame s).pending = (resetHonoured s).pending := by
  rw [openFrame_eq, callHook_pending, callAudio_pending]
  rfl

theorem resetHonoured_hooks (s : State) : (resetHonoured s).hooks = s.hooks := by
  unfold resetHonoured
  split
  · exact fullReset_hooks _
  · rfl

theorem openFrame_out (s : State) :
    (openFrame s).out =
      (resetHonoured s).out ++ [.ctxSelect, .cpuBeginFrame] ++
        (if (resetHonoured s).inputs.audioDisable then [] else [.audioBegin]) ++
        (if s.hooks.frameStart then [.hookFrameStart] else []) := by
  have hopened : (frameOpened s).out = (resetHonoured s).out ++ [.ctxSelect, .cpuBeginFrame] :=
    List.append_assoc (resetHonoured s).out [.ctxSelect] [.cpuBeginFrame]
  have hhook : (callAudio .audioBegin (frameOpened s)).hooks = s.hooks :=
    (callAudio_hooks .audioBegin (frameOpened s)).trans (resetHonoured_hooks s)
  rw [openFrame_eq, callHook_out, callAudio_out, hopened, hhook]
  rfl

/-- With no hook event at the opening, nothing outside has acted since the reset request (R66). -/
theorem openFrame_of_quiet {s : State} (haudio : (resetHonoured s).inputs.audioDisable = true)
    (hhook : s.hooks.frameStart = false) : openFrame s = frameOpened s := by
  have hquiet : callAudio .audioBegin (frameOpened s) = frameOpened s := callAudio_of_disabled _ _ haudio
  have hunregistered : ¬(frameOpened s).hooks.get .frameStart = true := by
    show ¬(resetHonoured s).hooks.frameStart = true
    rw [resetHonoured_hooks, hhook]
    exact Bool.false_ne_true
  rw [openFrame_eq, hquiet, callHook_of_unregistered _ _ hunregistered]

/-- Settles O31: the second part of phase 1 leaves alone what the first part is about. -/
theorem setupFrameOpens : Obligations.SetupFrameOpens := by
  unfold Obligations.SetupFrameOpens
  intro s v
  refine ⟨_, exec_setupFrame s, rfl, openFrame_executedTotal s, openFrame_carry s, openFrame_out s, fun haudio hhook => ?quiet,
    openFrame_hooks s, openFrame_setupDone s, openFrame_port s, openFrame_driver s, openFrame_raised s, openFrame_seg s,
    openFrame_pending s⟩
  case quiet =>
    rw [openFrame_of_quiet haudio hhook]
    exact ⟨rfl, rfl, rfl⟩

/-- Settles O32: `loadFrame` is this update, its sources loaded from the words of `RF` (R174). -/
theorem setupFrameLoads : Obligations.SetupFrameLoads := by
  unfold Obligations.SetupFrameLoads
  intro s u off load
  have hload (w : Word) : loadSource u.cfg (bsd u) w = load w := by
    rw [loadSource_eq, openFrame_cfg]
    rfl
  refine ⟨_, exec_setupFrame s, rfl, rfl, ?length, fun slot hslot => ?clear, hload _, hload _,
    schedule_nextLine _, ?cycle, ?frame⟩
  case length => exact (clearSlots_length ..).trans (congrArg List.length (openFrame_snaps s))
  case clear =>
    obtain ⟨hraster, hpopulated, -⟩ := clearSlots_clear hslot
    exact ⟨hraster, hpopulated⟩
  case cycle =>
    rw [← dueCycle_eq, ← openFrame_cfg s]
    rfl
  case frame =>
    rw [← openFrame_fills s]
    rfl

/-! ## Phase 5 -/

theorem exec_lateguard : ∀ s : State,
    exec .lateguard s = .next { (if nothingScheduled s && !bsd s then reloadLines s else s) with phase := .active } := by
  intros; rfl

theorem lateguard_guard_iff (s : State) :
    (nothingScheduled s && !bsd s) = true ↔ s.cfg.scanlines ≤ s.nextLine ∧ (s.rf.read16 0x4E).getLsbD 9 = false := by
  rw [Bool.and_eq_true, Bool.not_eq_true', nothingScheduled, decide_eq_true_iff]
  rfl

/-- The reload as one update of the state (R183). -/
theorem reloadLines_eq (s : State) :
    reloadLines s =
      { s with
        srcP := { s.srcP with line := trigLine s.cfg (s.rf.read16 offTrigP), enabled := true }
        srcS := { s.srcS with line := trigLine s.cfg (s.rf.read16 offTrigS), enabled := true }
        nextLine := min (trigLine s.cfg (s.rf.read16 offTrigP)) (trigLine s.cfg (s.rf.read16 offTrigS))
        nextCycle := dueCycle s.cfg s.cyclesPerFrame
          (min (trigLine s.cfg (s.rf.read16 offTrigP)) (trigLine s.cfg (s.rf.read16 offTrigS))) } := by
  rw [reloadLines, schedule, earliestLine_eq]

/-- Settles O37, in both cases of the guard (R183). -/
theorem lateguardResult : Obligations.LateguardResult := by
  unfold Obligations.LateguardResult
  intro s lineP lineS
  rw [exec_lateguard]
  by_cases hguard : (nothingScheduled s && !bsd s) = true
  · rw [if_pos hguard, if_pos ((lateguard_guard_iff s).1 hguard), reloadLines_eq, trigLine_eq, trigLine_eq, dueCycle_eq]
    rfl
  · rw [if_neg hguard, if_neg (mt (lateguard_guard_iff s).2 hguard)]

end Sys2Proof.Machine

/-! PROOFS. The dispatches of the phases 3 and 6 (41_dispatcher.md R149; 42_frame_phases.md R178, R179, R184 to R189). -/

namespace Sys2Proof.Machine

/-- Settles O20: step g leaves the next interrupt after the account (R147), and `RunTo` moves the account to it (R171). -/
theorem dispatchesRiseInTime : Obligations.DispatchesRiseInTime := by
  unfold Obligations.DispatchesRiseInTime
  intro s t u hst htu
  have hfirst : s.executedTotal ≤ t.executedTotal := (dispatch_only hst).exe
  have hforward : t.executedTotal < t.nextCycle := dispatchSchedulesForward s t hst
  have hreached : t.nextCycle ≤ (runTo t.nextCycle t).executedTotal := le_runTo_executedTotal t.nextCycle t
  have hsecond : (runTo t.nextCycle t).executedTotal ≤ u.executedTotal := (dispatch_only htu).exe
  have hforward' : u.executedTotal < u.nextCycle := dispatchSchedulesForward _ u htu
  exact ⟨by omega, by omega⟩

/-! ## Which lines are dispatched -/

theorem leadinDue_iff (s : State) : leadinDue s = true ↔ s.nextCycle < firstCycle s.cfg s.cyclesPerFrame := decide_eq_true_iff

theorem FrameState.runTo {s : State} (h : FrameState s) (t : Int) : FrameState (runTo t s) := by
  obtain ⟨hlineP, hlineS, hmin, hdue, hcount, hunused, hbound, hzero⟩ := h
  constructor <;> simpa

/-- An interrupt that is scheduled before a line of the frame starts is due on an earlier line: a later line's due cycle, and the
sentinel, are not before that start (R121, R125). -/
theorem FrameState.nextLine_lt {s : State} (h : FrameState s) {m : Nat} (hm : m ≤ s.cfg.scanlines)
    (hnext : s.nextCycle < lineStart s.cfg s.cyclesPerFrame m) : s.nextLine < m := by
  have hdue : dueCycle s.cfg s.cyclesPerFrame s.nextLine < lineStart s.cfg s.cyclesPerFrame m := by
    have := h.dueBeforeNext
    omega
  by_contra hline
  unfold dueCycle at hdue
  split at hdue
  · have hstart := lineStart_mono s.cfg s.cyclesPerFrame (Nat.le_of_not_lt hline)
    unfold lineToCycle at hdue
    omega
  · have hend := lineStart_mono s.cfg s.cyclesPerFrame hm
    rw [lineStart_scanlines] at hend
    unfold sentinel at hdue
    omega

theorem segBoundary_le_endCycle (c : Config) (cpf : Nat) (k : Seg) : segBoundary c cpf k ≤ endCycle c cpf := by
  obtain ⟨-, hone, htwo, hthree⟩ := segBoundary_mono c cpf
  cases k with
  | one => omega
  | two => omega
  | three => omega

/-- Settles O22: both guards have the interrupt due before `EndCycle`, the start of line 240 (R186). -/
theorem dispatchedLinesAreBelow240 : Obligations.DispatchedLinesAreBelow240 := by
  unfold Obligations.DispatchedLinesAreBelow240
  intro s h
  have hfirst := firstCycle_le_endCycle s.cfg s.cyclesPerFrame
  have hseg := segBoundary_le_endCycle s.cfg s.cyclesPerFrame
  have hbelow (hend : s.nextCycle < endCycle s.cfg s.cyclesPerFrame) : s.nextLine < 240 :=
    h.nextLine_lt (Config.scanlines_bounds s.cfg).1 hend
  refine ⟨hseg, hfirst, hbelow, fun hdue => ?leadin, fun k hopen => ?segment, fun _ _ d hd => ?kept⟩
  case leadin =>
    have hdue := (leadinDue_iff s).1 hdue
    exact hbelow (by omega)
  case segment =>
    have hopen := ((dispatchOpen_iff _ s).1 hopen).1
    have := hseg k
    exact hbelow (by omega)
  case kept => exact (h.runTo _).of_dispatch hd

/-! ## Phase 3 -/

/-- The lead-in without a dispatch (R178). -/
theorem execLeadin_of_not_due {s : State} (h : (firstCycle s.cfg s.cyclesPerFrame : Int) ≤ s.nextCycle) :
    execLeadin s = .next { runTo (firstCycle s.cfg s.cyclesPerFrame) s with phase := .basesnap } := by
  have hdue : ¬leadinDue s = true := fun hdue => by
    have := (leadinDue_iff s).1 hdue
    omega
  have hstay : leadinDispatch { s with phase := .leadin } = .next { s with phase := .leadin } := if_neg hdue
  rw [execLeadin, hstay, andThen_of_next, runTo_withPhase]

/-- The lead-in with its dispatch (R178). -/
theorem execLeadin_of_due {s d : State} (h : s.nextCycle < firstCycle s.cfg s.cyclesPerFrame)
    (hd : dispatch (runTo s.nextCycle { s with phase := .leadin }) = .next d) :
    execLeadin s = .next { runTo (firstCycle s.cfg s.cyclesPerFrame) d with phase := .basesnap } := by
  have hdispatch : leadinDispatch { s with phase := .leadin } = .next d := (if_pos ((leadinDue_iff s).2 h)).trans hd
  have honly := dispatch_only hd
  rw [execLeadin, hdispatch, andThen_of_next, honly.cfg, honly.cpf, runTo_cfg, runTo_cyclesPerFrame]

/-- Settles O34, in both cases of the lead-in's guard (R178). -/
theorem leadinResult : Obligations.LeadinResult := by
  unfold Obligations.LeadinResult
  intro s first
  refine ⟨fun h => ?stay, fun h hcapacity hroom => ?dispatches⟩
  case stay => exact ⟨_, execLeadin_of_not_due h, rfl, le_runTo_executedTotal _ _⟩
  case dispatches =>
    have r := runTo_only s.nextCycle { s with phase := .leadin }
    obtain ⟨d, hd⟩ := dispatch_total (s := runTo s.nextCycle { s with phase := .leadin })
      (by rw [r.snaps, r.cfg]; exact hcapacity) (by rw [r.irqCount, r.cfg]; exact hroom)
    exact ⟨d, _, hd, execLeadin_of_due h hd, rfl, le_runTo_executedTotal _ _⟩

/-- The lead-in dispatches nothing, or the interrupt that is due (R178). -/
theorem execLeadin_cases {s t : State} (h : execLeadin s = .next t) :
    ((firstCycle s.cfg s.cyclesPerFrame : Int) ≤ s.nextCycle ∧
      t = { runTo (firstCycle s.cfg s.cyclesPerFrame) s with phase := .basesnap }) ∨
    (s.nextCycle < firstCycle s.cfg s.cyclesPerFrame ∧
      ∃ d, dispatch (runTo s.nextCycle { s with phase := .leadin }) = .next d ∧
        t = { runTo (firstCycle s.cfg s.cyclesPerFrame) d with phase := .basesnap }) := by
  rcases le_or_gt (firstCycle s.cfg s.cyclesPerFrame : Int) s.nextCycle with hstay | hdue
  · exact .inl ⟨hstay, Host.Outcome.next.inj (h.symm.trans (execLeadin_of_not_due hstay))⟩
  · obtain ⟨d, hd, -⟩ := andThen_next.1 h
    have hd : dispatch (runTo s.nextCycle { s with phase := .leadin }) = .next d :=
      (if_pos ((leadinDue_iff s).2 hdue)).symm.trans hd
    exact .inr ⟨hdue, d, hd, Host.Outcome.next.inj (h.symm.trans (execLeadin_of_due hdue hd))⟩

/-- Settles O35: what is due before `FirstCycle` is due on a line before `FIRST_LINE`, which step a does not count (R179). -/
theorem leadinCountsAtMostOne : Obligations.LeadinCountsAtMostOne := by
  unfold Obligations.LeadinCountsAtMostOne
  intro s t hs hzero ht
  have hcount : t.irqCount = 0 := by
    rcases execLeadin_cases ht with ⟨-, rfl⟩ | ⟨hdue, d, hd, rfl⟩
    · exact (runTo_irqCount _ s).trans hzero
    · have hscanlines := (Config.scanlines_bounds s.cfg).1
      have hline : s.nextLine < 16 := hs.nextLine_lt (m := 16) (by omega) hdue
      have hd := (dispatch_only hd).irq
      rw [runTo_nextLine, if_neg (by simpa using hline), runTo_irqCount] at hd
      exact (runTo_irqCount _ d).trans (hd.trans hzero)
  exact ⟨by omega, fun _ => hcount⟩

/-! ## A segment of phase 6 -/

theorem withSeg_of_eq {k : Seg} {s : State} (h : s.seg = k) : { s with seg := k } = s := by subst h; rfl

/-- A segment in which nothing is due, or the store is full, only runs the processor to its boundary (R184, R189). -/
theorem activeSegment_of_closed {k : Seg} {s : State}
    (h : (segBoundary s.cfg s.cyclesPerFrame k : Int) ≤ s.nextCycle ∨ s.cfg.dispatchLimit ≤ s.irqCount) :
    activeSegment k s = .next (runTo (segBoundary s.cfg s.cyclesPerFrame k) { s with seg := k }) := by
  have hclosed : ¬dispatchOpen (segBoundary s.cfg s.cyclesPerFrame k) { s with seg := k } = true := fun hopen => by
    obtain ⟨hdue, hroom⟩ := (dispatchOpen_iff _ _).1 hopen
    dsimp only at hdue hroom
    omega
  exact if_neg hclosed

/-- A segment with an interrupt due and room for it dispatches, and is the segment of the state after that (R184). -/
theorem activeSegment_of_open {k : Seg} {s : State} (hdue : s.nextCycle < segBoundary s.cfg s.cyclesPerFrame k)
    (hroom : s.irqCount < s.cfg.dispatchLimit) (hcapacity : s.snaps.length = s.cfg.capacity) :
    ∃ d, dispatch (runTo s.nextCycle { s with seg := k }) = .next d ∧ activeSegment k s = activeSegment k d := by
  obtain ⟨d, hd, hdcapacity, hmeasure⟩ := segment_iteration (s := { s with seg := k }) hroom hcapacity
  have honly := dispatch_only hd
  have hcfg : d.cfg = s.cfg := honly.cfg.trans (runTo_cfg _ _)
  have hcpf : d.cyclesPerFrame = s.cyclesPerFrame := honly.cpf.trans (runTo_cyclesPerFrame _ _)
  have hseg : d.seg = k := honly.seg.trans (runTo_seg _ _)
  have hfuel : segmentMeasure { s with seg := k } < s.cfg.dispatchLimit + firstLine + 2 := segmentMeasure_lt_fuel _
  have hopen : dispatchOpen (segBoundary s.cfg s.cyclesPerFrame k) { s with seg := k } = true :=
    (dispatchOpen_iff _ _).2 ⟨hdue, hroom⟩
  refine ⟨d, hd, ?_⟩
  calc activeSegment k s
    _ = runSegment (segBoundary s.cfg s.cyclesPerFrame k) (s.cfg.dispatchLimit + firstLine + 1) d := by
      rw [activeSegment, segmentFuel, runSegment_succ, if_pos hopen, hd, andThen_of_next]
    _ = runSegment (segBoundary s.cfg s.cyclesPerFrame k) (segmentFuel d.cfg) d :=
      runSegment_fuel _ _ hdcapacity (by omega) (segmentMeasure_lt_fuel d)
    _ = activeSegment k d := by rw [activeSegment, withSeg_of_eq hseg, hcfg, hcpf]

/-- Where a segment with boundary `b` leaves the account, the schedule and the counter (R184, R185). -/
structure SegmentEnd (b : Int) (s t : State) : Prop where
  reached : b ≤ t.executedTotal
  closed : b ≤ t.nextCycle ∨ t.cfg.dispatchLimit ≤ t.irqCount
  count : t.irqCount ≤ max s.irqCount s.cfg.dispatchLimit

theorem segmentEnd_runTo {b : Int} {s : State} (h : ¬dispatchOpen b s = true) : SegmentEnd b s (runTo b s) := by
  refine ⟨le_runTo_executedTotal b s, ?_, ?_⟩
  · rw [dispatchOpen_iff] at h
    rw [runTo_nextCycle, runTo_cfg, runTo_irqCount]
    omega
  · rw [runTo_irqCount]
    exact le_max_left _ _

/-- A dispatch in a segment counts at most one interrupt, for which there is room (R141, R184). -/
theorem segment_dispatch_count {s u : State} (hroom : s.irqCount < s.cfg.dispatchLimit)
    (hu : dispatch (runTo s.nextCycle s) = .next u) : u.cfg = s.cfg ∧ u.irqCount ≤ s.cfg.dispatchLimit := by
  have honly := dispatch_only hu
  have hcount := honly.irq
  rw [runTo_irqCount] at hcount
  refine ⟨honly.cfg.trans (runTo_cfg _ _), ?_⟩
  split at hcount <;> omega

/-- The loop of a segment completes (R185). -/
theorem runSegment_completes (b : Int) {fuel : Nat} {s : State} (hcapacity : s.snaps.length = s.cfg.capacity)
    (hfuel : segmentMeasure s < fuel) : Answers (SegmentEnd b s) (runSegment b fuel s) := by
  induction fuel generalizing s with
  | zero => omega
  | succ fuel ih =>
    rw [runSegment_succ]
    split
    next hopen =>
      have hroom := ((dispatchOpen_iff b s).1 hopen).2
      obtain ⟨u, hu, hucapacity, hmeasure⟩ := segment_iteration hroom hcapacity
      obtain ⟨hcfg, hcount⟩ := segment_dispatch_count hroom hu
      rw [hu, andThen_of_next]
      obtain ⟨t, ht, hend⟩ := ih hucapacity (by omega)
      refine ⟨t, ht, hend.reached, hend.closed, ?_⟩
      have := hend.count
      rw [hcfg] at this
      omega
    next hclosed => exact .next (segmentEnd_runTo hclosed)

/-- A segment completes, with its frame. -/
theorem activeSegment_completes (k : Seg) {s : State} (hcapacity : s.snaps.length = s.cfg.capacity) :
    Answers (fun t => SegmentEnd (segBoundary s.cfg s.cyclesPerFrame k) s t ∧ SegmentOnly { s with seg := k } t)
      (activeSegment k s) := by
  obtain ⟨t, ht, hend⟩ := runSegment_completes (segBoundary s.cfg s.cyclesPerFrame k) (s := { s with seg := k }) hcapacity
    (segmentMeasure_lt_fuel _)
  exact ⟨t, ht, ⟨hend.reached, hend.closed, hend.count⟩, runSegment_only ht⟩

/-! ## Phase 6 -/

theorem SegmentOnly.trans {s t u : State} (h : SegmentOnly s t) (h' : SegmentOnly t u) : SegmentOnly s u where
  cfg := h'.cfg.trans h.cfg
  cpf := h'.cpf.trans h.cpf
  carry := h'.carry.trans h.carry
  setupDone := h'.setupDone.trans h.setupDone
  hooks := h'.hooks.trans h.hooks
  raised := h'.raised.trans h.raised
  port := h'.port.trans h.port
  driver := h'.driver.trans h.driver
  fills := h'.fills.trans h.fills
  phase := h'.phase.trans h.phase
  seg := h'.seg.trans h.seg
  autoP := h'.autoP.trans h.autoP
  enP := h'.enP.trans h.enP
  autoS := h'.autoS.trans h.autoS
  enS := h'.enS.trans h.enS
  len := h'.len.trans h.len
  slots := fun i hi => by
    have hmono := h.irq
    have hmono' := h'.irq
    rw [h'.slots i (by omega), h.slots i (by omega)]
  out := h.out.trans h'.out
  irq := h.irq.trans h'.irq
  exe := h.exe.trans h'.exe

/-- What phase 6 leaves (R184). -/
theorem execActive_only {s t : State} (h : execActive s = .next t) :
    SegmentOnly { s with phase := .objcap, seg := .three } t := by
  obtain ⟨a, ha, h⟩ := andThen_next.1 h
  obtain ⟨b, hb, h⟩ := andThen_next.1 h
  obtain ⟨c, hc, h⟩ := andThen_next.1 h
  cases h
  -- The frame of a segment says nothing else of `phase` and `seg` than that they stay.
  have hone : SegmentOnly { s with phase := .objcap, seg := .three } { a with phase := .objcap, seg := .three } :=
    { runSegment_only ha with phase := rfl, seg := rfl }
  have htwo : SegmentOnly { a with phase := .objcap, seg := .three } { b with phase := .objcap, seg := .three } :=
    { runSegment_only hb with phase := rfl, seg := rfl }
  have hthree : SegmentOnly { b with phase := .objcap, seg := .three } { c with phase := .objcap } :=
    { runSegment_only hc with phase := rfl }
  exact hone.trans (htwo.trans hthree)

/-- Where phase 6 leaves the account, the schedule and the counter (R184, R189). -/
theorem execActive_completes {s : State} (hcapacity : s.snaps.length = s.cfg.capacity) :
    Answers (SegmentEnd (endCycle s.cfg s.cyclesPerFrame) s) (execActive s) := by
  obtain ⟨a, ha, hend₁, h₁⟩ := activeSegment_completes .one (s := { s with phase := .active }) hcapacity
  obtain ⟨b, hb, hend₂, h₂⟩ := activeSegment_completes .two (s := a) (by rw [h₁.len, h₁.cfg]; exact hcapacity)
  have hbcfg : b.cfg = s.cfg := h₂.cfg.trans h₁.cfg
  have hbcpf : b.cyclesPerFrame = s.cyclesPerFrame := h₂.cpf.trans h₁.cpf
  obtain ⟨c, hc, hend₃, h₃⟩ := activeSegment_completes .three (s := b)
    (by rw [h₂.len, h₁.len, hbcfg]; exact hcapacity)
  obtain ⟨-, -, -, hlast⟩ := segBoundary_mono s.cfg s.cyclesPerFrame
  refine ⟨{ c with phase := .objcap }, by rw [execActive, ha, andThen_of_next, hb, andThen_of_next, hc, andThen_of_next], ?_⟩
  have hreached := hend₃.reached
  have hclosed := hend₃.closed
  rw [hbcfg, hbcpf, hlast] at hreached hclosed
  refine ⟨hreached, hclosed, ?_⟩
  have hcount₁ := hend₁.count
  have hcount₂ := hend₂.count
  have hcount₃ := hend₃.count
  have hacfg : a.cfg = s.cfg := h₁.cfg
  rw [hbcfg] at hcount₃
  rw [hacfg] at hcount₂
  dsimp only at hcount₁ ⊢
  omega

/-- Settles O38: each segment's loop completes, and a turn of it is a segment again. -/
theorem activeCompletes : Obligations.ActiveCompletes := by
  unfold Obligations.ActiveCompletes
  refine ⟨fun s hcapacity => ?completes, fun s => rfl, fun k s => ⟨activeSegment_of_closed, activeSegment_of_open⟩⟩
  case completes =>
    obtain ⟨t, ht, hend⟩ := execActive_completes hcapacity
    have honly := execActive_only ht
    have hclosed := hend.closed
    rw [honly.cfg] at hclosed
    exact ⟨t, ht, honly.phase, honly.seg, hend.reached, hclosed, honly.irq, hend.count⟩

/-- Settles O39, from the frame of the three segments. -/
theorem activeFrame : Obligations.ActiveFrame := by
  unfold Obligations.ActiveFrame
  intro s t h
  have honly := execActive_only h
  exact ⟨honly.cfg, honly.cpf, honly.carry, honly.setupDone, honly.hooks, honly.raised, honly.port, honly.driver, honly.fills,
    honly.autoP, honly.enP, honly.autoS, honly.enS, honly.len, honly.slots, honly.out⟩

/-! ## Phase 6 without a dispatch -/

theorem assertions_append (l l' : List Event) : assertions (l ++ l') = assertions l ++ assertions l' := List.filterMap_append

/-- `RunTo` asserts no interrupt (R170). -/
theorem assertions_runTo_out (t : Int) (s : State) : assertions (runTo t s).out = assertions s.out := by
  rcases le_or_gt t s.executedTotal with h | h
  · rw [runTo_of_le h]
  · rw [runTo_of_lt h, run_of_pos (by omega), assertions_append]
    exact List.append_nil _

/-- No interrupt of phase 6 is due before `EndCycle`, or the store is full (R189). -/
def NothingToDispatch (s : State) : Prop :=
  s.cfg.dispatchLimit ≤ s.irqCount ∨ (endCycle s.cfg s.cyclesPerFrame : Int) ≤ s.nextCycle

theorem nothingToDispatch_runTo {s : State} (h : NothingToDispatch s) (t : Int) : NothingToDispatch (runTo t s) := by
  simpa [NothingToDispatch] using h

/-- Any segment is then a `RunTo`, which the registers `phase` and `seg` pass through (R36). -/
theorem activeSegment_of_nothing {s : State} (h : NothingToDispatch s) (k g : Seg) (p : Phase) {b : Nat}
    (hb : segBoundary s.cfg s.cyclesPerFrame k = b) :
    activeSegment k { s with phase := p, seg := g } = .next { runTo b s with phase := p, seg := k } := by
  subst hb
  have hend := segBoundary_le_endCycle s.cfg s.cyclesPerFrame k
  have hclosed : (segBoundary s.cfg s.cyclesPerFrame k : Int) ≤ s.nextCycle ∨ s.cfg.dispatchLimit ≤ s.irqCount := by
    unfold NothingToDispatch at h
    omega
  exact (activeSegment_of_closed (s := { s with phase := p, seg := g }) hclosed).trans
    (congrArg Host.Outcome.next (runTo_phase_seg _ s p k))

theorem execActive_of_nothing {s : State} (h : NothingToDispatch s) :
    execActive s = .next
      { runTo (segBoundary s.cfg s.cyclesPerFrame .three) (runTo (segBoundary s.cfg s.cyclesPerFrame .two)
          (runTo (segBoundary s.cfg s.cyclesPerFrame .one) s)) with phase := .objcap, seg := .three } := by
  have hafter₁ := nothingToDispatch_runTo h (segBoundary s.cfg s.cyclesPerFrame .one)
  have hafter₂ := nothingToDispatch_runTo hafter₁ (segBoundary s.cfg s.cyclesPerFrame .two)
  have htwo := activeSegment_of_nothing hafter₁ .two .one .active (b := segBoundary s.cfg s.cyclesPerFrame .two)
    (by rw [runTo_cfg, runTo_cyclesPerFrame])
  have hthree := activeSegment_of_nothing hafter₂ .three .two .active (b := segBoundary s.cfg s.cyclesPerFrame .three)
    (by simp only [runTo_cfg, runTo_cyclesPerFrame])
  rw [execActive, activeSegment_of_nothing h .one s.seg .active rfl, andThen_of_next, htwo, andThen_of_next, hthree,
    andThen_of_next]

/-- Settles O40: three closed segments, none of which asserts an interrupt. -/
theorem activeWithoutDispatch : Obligations.ActiveWithoutDispatch := by
  unfold Obligations.ActiveWithoutDispatch
  intro s h
  refine ⟨_, execActive_of_nothing h, ?_, rfl⟩
  dsimp only
  rw [assertions_runTo_out, assertions_runTo_out, assertions_runTo_out]

end Sys2Proof.Machine

/-! PROOFS. Whole frames: the eleven phases in order, their completion and the drift (42_frame_phases.md R175, R187, R196). -/

namespace Sys2Proof.Machine

/-! ## Phases in order -/

/-- The phase after `p` in the order of a frame; the last one leads back to phase 0 (R175). -/
def followingPhase : Phase → Phase
  | .idle => .setupFrame
  | .setupFrame => .catchup
  | .catchup => .leadin
  | .leadin => .basesnap
  | .basesnap => .lateguard
  | .lateguard => .active
  | .active => .objcap
  | .objcap => .vblank
  | .vblank => .drain
  | .drain => .drift
  | .drift => .frameend
  | .frameend => .idle

/-- What the lead-in leaves is what a segment of phase 6 leaves (R178). -/
theorem execLeadin_only {s t : State} (h : execLeadin s = .next t) : SegmentOnly { s with phase := .basesnap } t := by
  have hrun (n : Int) (u : State) : SegmentOnly u (runTo n u) := (SegmentOnly.refl _).of_runTo n
  rcases execLeadin_cases h with ⟨-, rfl⟩ | ⟨-, d, hd, rfl⟩
  · exact { hrun _ s with phase := rfl }
  · have hdispatch := ((hrun (firstCycle s.cfg s.cyclesPerFrame) d).of_dispatch (dispatch_only hd)).of_runTo
    exact { hdispatch with phase := rfl }

/-- An operation of a phase within a frame leads to the phase that follows, and takes nothing off the port (R175). -/
theorem exec_phaseInstr_next {p : Phase} (hp : p ≠ .idle) {s t : State} (h : exec (phaseInstr p) s = .next t) :
    t.phase = followingPhase p ∧ t.port = s.port := by
  cases p with
  | idle => exact absurd rfl hp
  | setupFrame => cases h; exact ⟨rfl, openFrame_port s⟩
  | catchup => cases h; exact ⟨rfl, rfl⟩
  | leadin => exact ⟨(execLeadin_only h).phase, (execLeadin_only h).port⟩
  | basesnap => cases h; exact ⟨rfl, rfl⟩
  | lateguard => cases h; refine ⟨rfl, ?_⟩; dsimp only; split <;> rfl
  | active => exact ⟨(execActive_only h).phase, (execActive_only h).port⟩
  | objcap => cases h; exact ⟨rfl, callHook_port .frameMid _⟩
  | vblank => cases h; exact ⟨rfl, callDraw_port _⟩
  | drain => cases h; exact ⟨rfl, runTo_port _ _⟩
  | drift => cases h; exact ⟨rfl, callHook_port .frameEnd _⟩
  | frameend => cases h; exact ⟨rfl, callAudio_port .audioEnd _⟩

/-- The operations of `k` phases in order, from the phase `p` on. -/
def phases : Nat → Phase → State → Result
  | 0, _, s => .next s
  | k + 1, p, s => andThen (exec (phaseInstr p) s) (phases k (followingPhase p))

theorem andThen_congr {r : Result} {f g : State → Result} (h : ∀ t, r = .next t → f t = g t) :
    andThen r f = andThen r g := by
  cases r with
  | next t => exact h t rfl
  | fault x => rfl
  | refused x => rfl

theorem run_succ (k : Nat) (s : State) : Host.Core.run core (k + 1) s = andThen (step s) (Host.Core.run core k) := by
  have hstep : step s = core.step s := rfl
  rw [hstep]
  cases h : core.step s <;> simp only [Host.Core.run, h] <;> rfl

/-- With nothing on the port, the steps of the machine within a frame are the phases in order (R36, R99, R175). -/
theorem run_eq_phases (k : Nat) {p : Phase} {s : State} (hphase : s.phase = p) (hport : s.port = [])
    (hframe : ∀ j < k, followingPhase^[j] p ≠ .idle) : Host.Core.run core k s = phases k p s := by
  induction k generalizing p s with
  | zero => rfl
  | succ k ih =>
    rw [run_succ, step_of_fetch_ok (fetch_of_port_nil hport), hphase]
    refine andThen_congr fun t ht => ?_
    obtain ⟨hnext, hkeeps⟩ := exec_phaseInstr_next (hframe 0 (Nat.succ_pos k)) ht
    exact ih hnext (hkeeps.trans hport) fun j hj => hframe (j + 1) (Nat.succ_lt_succ hj)

theorem phases_next {k : Nat} {p : Phase} {s t : State} (hphase : s.phase = p)
    (hframe : ∀ j < k, followingPhase^[j] p ≠ .idle) (h : phases k p s = .next t) :
    t.phase = followingPhase^[k] p ∧ t.port = s.port := by
  induction k generalizing p s with
  | zero => cases h; exact ⟨hphase, rfl⟩
  | succ k ih =>
    obtain ⟨u, hu, h⟩ := andThen_next.1 h
    obtain ⟨hnext, hkeeps⟩ := exec_phaseInstr_next (hframe 0 (Nat.succ_pos k)) hu
    obtain ⟨hlast, hport⟩ := ih hnext (fun j hj => hframe (j + 1) (Nat.succ_lt_succ hj)) h
    exact ⟨hlast, hport.trans hkeeps⟩

/-- Settles O53: no phase but phase 0 looks at the driver's tape, and none puts anything on the port. -/
theorem frameIsElevenSteps : Obligations.FrameIsElevenSteps := by
  unfold Obligations.FrameIsElevenSteps
  intro s hphase hport
  rw [run_eq_phases 11 hphase hport (by decide)]
  rfl

/-! ## A frame completes -/

/-- Inside a frame under the parameters `c`: the store has its slots, and the counter is at most `n`. -/
structure InFrame (c : Config) (n : Nat) (s : State) : Prop where
  cfg : s.cfg = c
  capacity : s.snaps.length = c.capacity
  count : s.irqCount ≤ n

theorem InFrame.of_eq {c : Config} {n : Nat} {s t : State} (h : InFrame c n s) (hcfg : t.cfg = s.cfg)
    (hlength : t.snaps.length = s.snaps.length) (hcount : t.irqCount = s.irqCount) : InFrame c n t :=
  ⟨hcfg.trans h.cfg, hlength.trans h.capacity, by rw [hcount]; exact h.count⟩

theorem execSetupFrame_inFrame {s : State} (h : s.snaps.length = s.cfg.capacity) :
    Answers (InFrame s.cfg 0) (execSetupFrame s) := by
  refine .next ⟨openFrame_cfg s, ?_, le_rfl⟩
  exact (clearSlots_length ..).trans ((congrArg List.length (openFrame_snaps s)).trans h)

theorem execLeadin_irqCount_le {s t : State} (h : execLeadin s = .next t) : t.irqCount ≤ s.irqCount + 1 := by
  rcases execLeadin_cases h with ⟨-, rfl⟩ | ⟨-, d, hd, rfl⟩
  · have : (runTo (firstCycle s.cfg s.cyclesPerFrame) s).irqCount = s.irqCount := runTo_irqCount _ _
    dsimp only
    omega
  · have hcount := (dispatch_only hd).irq
    rw [runTo_irqCount] at hcount
    dsimp only at hcount ⊢
    rw [runTo_irqCount]
    split at hcount <;> omega

/-- The store has a slot behind the baseline's, so that the lead-in completes with the counter at 0 (R7, R178). -/
theorem execLeadin_inFrame {c : Config} {s : State} (h : InFrame c 0 s) : Answers (InFrame c 1) (execLeadin s) := by
  obtain ⟨rfl, hcapacity, hcount⟩ := h
  obtain ⟨t, ht⟩ : ∃ t, execLeadin s = .next t := by
    obtain ⟨hstay, hdue⟩ := leadinResult s
    rcases le_or_gt (firstCycle s.cfg s.cyclesPerFrame : Int) s.nextCycle with hlate | hearly
    · obtain ⟨t, ht, -⟩ := hstay hlate
      exact ⟨t, ht⟩
    · have hroom : s.irqCount < s.cfg.lastSlot := by unfold Config.lastSlot; omega
      obtain ⟨-, t, -, ht, -⟩ := hdue hearly hcapacity hroom
      exact ⟨t, ht⟩
  have honly := execLeadin_only ht
  have := execLeadin_irqCount_le ht
  exact ⟨t, ht, honly.cfg, honly.len.trans hcapacity, by omega⟩

theorem execLateguard_inFrame {c : Config} {n : Nat} {s : State} (h : InFrame c n s) :
    Answers (InFrame c n) (execLateguard s) := by
  have hguarded : InFrame c n (if nothingScheduled s && !bsd s then reloadLines s else s) := by
    split
    · exact h.of_eq rfl rfl rfl
    · exact h
  exact .next (hguarded.of_eq rfl rfl rfl)

theorem execActive_inFrame {c : Config} {n : Nat} {s : State} (h : InFrame c n s) :
    Answers (InFrame c (max n c.dispatchLimit)) (execActive s) := by
  obtain ⟨rfl, hcapacity, hcount⟩ := h
  obtain ⟨t, ht, hend⟩ := execActive_completes hcapacity
  have honly := execActive_only ht
  have := hend.count
  exact ⟨t, ht, honly.cfg, honly.len.trans hcapacity, by omega⟩

/-- What `DRIFT` leaves in the counter, the store and the carry (R193, R194). -/
theorem execDrift_inFrame {c : Config} {n : Nat} {s : State} (h : InFrame c n s) :
    Answers (fun t => InFrame c n t ∧ t.carry = t.executedTotal - t.cyclesPerFrame) (execDrift s) := by
  refine .next ⟨h.of_eq (callHook_cfg .frameEnd _) ?_ (callHook_irqCount .frameEnd _), ?_⟩
  · exact congrArg List.length (callHook_snaps .frameEnd (driftClosed s))
  · show (callHook .frameEnd (driftClosed s)).carry =
      (callHook .frameEnd (driftClosed s)).executedTotal - (callHook .frameEnd (driftClosed s)).cyclesPerFrame
    rw [callHook_carry, callHook_executedTotal, callHook_cyclesPerFrame]
    rfl

theorem frame_completes {s : State} (h : s.snaps.length = s.cfg.capacity) :
    Answers (fun t => t.phase = .idle ∧ InFrame s.cfg (max 1 s.cfg.dispatchLimit) t ∧
      t.carry = t.executedTotal - t.cyclesPerFrame) (frame s) := by
  refine (execSetupFrame_inFrame h).andThen fun s₁ h₁ => ?_
  refine Answers.andThen (P := InFrame s.cfg 0) (.next (h₁.of_eq rfl rfl rfl)) fun s₂ h₂ => ?_
  refine (execLeadin_inFrame h₂).andThen fun s₃ h₃ => ?_
  have hsnap : Answers (InFrame s.cfg 1) (execBasesnap s₃) := .next (h₃.of_eq rfl (snapCopy_snaps_length 0 _) rfl)
  refine hsnap.andThen fun s₄ h₄ => ?_
  refine (execLateguard_inFrame h₄).andThen fun s₅ h₅ => ?_
  refine (execActive_inFrame h₅).andThen fun s₆ h₆ => ?_
  have hobjcap : Answers (InFrame s.cfg (max 1 s.cfg.dispatchLimit)) (execObjcap s₆) :=
    .next (h₆.of_eq (by simp) (by simp) (by simp))
  refine hobjcap.andThen fun s₇ h₇ => ?_
  have hvblank : Answers (InFrame s.cfg (max 1 s.cfg.dispatchLimit)) (execVblank s₇) :=
    .next (h₇.of_eq (by simp) (by simp) (by simp))
  refine hvblank.andThen fun s₈ h₈ => ?_
  have hdrain : Answers (InFrame s.cfg (max 1 s.cfg.dispatchLimit)) (execDrain s₈) :=
    .next (h₈.of_eq (by simp) (by simp) (by simp))
  refine hdrain.andThen fun s₉ h₉ => ?_
  refine (execDrift_inFrame h₉).andThen fun s₁₀ ⟨h₁₀, hcarry⟩ => ?_
  refine .next ⟨rfl, h₁₀.of_eq (by simp) (by simp) (by simp), ?_⟩
  simpa using hcarry

/-- Settles O54: each phase completes, and only the lead-in and phase 6 count (R187). -/
theorem frameAlwaysCompletes : Obligations.FrameAlwaysCompletes := by
  unfold Obligations.FrameAlwaysCompletes
  intro s hphase hport hcapacity
  obtain ⟨t, ht, hidle, hframe, hcarry⟩ := frame_completes hcapacity
  have hcount := hframe.count
  have hlimit := Config.dispatchLimit_le_lastSlot s.cfg
  have hslot : 1 ≤ s.cfg.lastSlot := Nat.le_add_left 1 s.cfg.maxRaster
  exact ⟨t, (frameIsElevenSteps s hphase hport).trans ht, hidle, hcount, by omega, hcarry⟩

/-! ## The account within a frame -/

/-- From the phases 2 to 11 no operation writes `cyclesPerFrame` (R22, R174). -/
theorem exec_phaseInstr_cyclesPerFrame {p : Phase} (hidle : p ≠ .idle) (hsetup : p ≠ .setupFrame) {s t : State}
    (h : exec (phaseInstr p) s = .next t) : t.cyclesPerFrame = s.cyclesPerFrame := by
  cases p with
  | idle => exact absurd rfl hidle
  | setupFrame => exact absurd rfl hsetup
  | catchup => cases h; rfl
  | leadin => exact (execLeadin_only h).cpf
  | basesnap => cases h; rfl
  | lateguard => cases h; dsimp only; split <;> rfl
  | active => exact (execActive_only h).cpf
  | objcap => cases h; exact callHook_cyclesPerFrame .frameMid _
  | vblank => cases h; exact callDraw_cyclesPerFrame _
  | drain => cases h; exact runTo_cyclesPerFrame _ _
  | drift => cases h; exact callHook_cyclesPerFrame .frameEnd _
  | frameend => cases h; exact callAudio_cyclesPerFrame .audioEnd _

theorem phases_cfg {k : Nat} {p : Phase} {s t : State} (h : phases k p s = .next t) : t.cfg = s.cfg := by
  induction k generalizing p s with
  | zero => cases h; rfl
  | succ k ih =>
    obtain ⟨u, hu, h⟩ := andThen_next.1 h
    exact (ih h).trans (exec_cfg hu)

theorem phases_cyclesPerFrame {k : Nat} {p : Phase} {s t : State}
    (hframe : ∀ j < k, followingPhase^[j] p ≠ .idle ∧ followingPhase^[j] p ≠ .setupFrame) (h : phases k p s = .next t) :
    t.cyclesPerFrame = s.cyclesPerFrame := by
  induction k generalizing p s with
  | zero => cases h; rfl
  | succ k ih =>
    obtain ⟨u, hu, h⟩ := andThen_next.1 h
    obtain ⟨hidle, hsetup⟩ := hframe 0 (Nat.succ_pos k)
    have hkeeps := exec_phaseInstr_cyclesPerFrame hidle hsetup hu
    exact (ih (fun j hj => hframe (j + 1) (Nat.succ_lt_succ hj)) h).trans hkeeps

/-- A dispatch with the processor run up to its cycle: how far the account gets (R143, R171). -/
theorem dispatch_runTo_executedTotal_le {s u : State} (h : dispatch (runTo s.nextCycle s) = .next u) :
    u.executedTotal ≤ max s.executedTotal (s.nextCycle + s.cfg.runOverMax) + cyclesPerLine s.cfg s.cyclesPerFrame +
      s.cfg.runOverMax := by
  have hrun := runTo_executedTotal_le s.nextCycle s
  have hdispatch := (dispatch_only h).exe2
  rw [runTo_cfg, runTo_cyclesPerFrame] at hdispatch
  omega

theorem execLeadin_executedTotal_le {s t : State} (h : execLeadin s = .next t) :
    t.executedTotal ≤ max s.executedTotal (firstCycle s.cfg s.cyclesPerFrame + s.cfg.runOverMax) +
      cyclesPerLine s.cfg s.cyclesPerFrame + s.cfg.runOverMax := by
  rcases execLeadin_cases h with ⟨-, rfl⟩ | ⟨hdue, d, hd, rfl⟩
  · have := runTo_executedTotal_le (firstCycle s.cfg s.cyclesPerFrame) s
    dsimp only
    omega
  · have hcfg : d.cfg = s.cfg := (dispatch_only hd).cfg.trans (runTo_cfg _ _)
    have hbound := dispatch_runTo_executedTotal_le (s := { s with phase := .leadin }) hd
    have := runTo_executedTotal_le (firstCycle s.cfg s.cyclesPerFrame) d
    rw [hcfg] at this
    dsimp only at hbound ⊢
    omega

/-- The account is within the frame, and either a dispatch still fits into the frame or the next interrupt is yet to come: what
keeps phase 6 within the frame (R196). -/
def OnTime (s : State) : Prop :=
  s.executedTotal ≤ s.cyclesPerFrame ∧
    (s.executedTotal < s.nextCycle ∨
      s.executedTotal + cyclesPerLine s.cfg s.cyclesPerFrame + s.cfg.runOverMax ≤ s.cyclesPerFrame)

theorem onTime_runTo {s : State} (h : OnTime s) {b : Int}
    (hb : b + cyclesPerLine s.cfg s.cyclesPerFrame + 2 * s.cfg.runOverMax ≤ s.cyclesPerFrame) : OnTime (runTo b s) := by
  rcases le_or_gt b s.executedTotal with hpast | hbefore
  · rwa [runTo_of_le hpast]
  · have := runTo_executedTotal_le b s
    unfold OnTime
    rw [runTo_cyclesPerFrame, runTo_cfg, runTo_nextCycle]
    omega

theorem onTime_dispatch {s u : State} (h : OnTime s)
    (hdue : s.nextCycle + cyclesPerLine s.cfg s.cyclesPerFrame + 2 * s.cfg.runOverMax ≤ s.cyclesPerFrame)
    (hu : dispatch (runTo s.nextCycle s) = .next u) : OnTime u := by
  have hcpf : u.cyclesPerFrame = s.cyclesPerFrame := (dispatch_only hu).cpf.trans (runTo_cyclesPerFrame _ _)
  have hbound := dispatch_runTo_executedTotal_le hu
  have hforward : u.executedTotal < u.nextCycle := dispatchSchedulesForward _ u hu
  obtain ⟨hwithin, hroom⟩ := h
  exact ⟨by omega, .inl hforward⟩

theorem onTime_runSegment {b : Int} {fuel : Nat} {s t : State} (h : OnTime s)
    (hb : b + cyclesPerLine s.cfg s.cyclesPerFrame + 2 * s.cfg.runOverMax ≤ s.cyclesPerFrame)
    (ht : runSegment b fuel s = .next t) : OnTime t := by
  induction fuel generalizing s with
  | zero => cases ht
  | succ fuel ih =>
    rw [runSegment_succ] at ht
    split at ht
    next hopen =>
      obtain ⟨u, hu, ht⟩ := andThen_next.1 ht
      have hdue := ((dispatchOpen_iff b s).1 hopen).1
      have hcfg : u.cfg = s.cfg := (dispatch_only hu).cfg.trans (runTo_cfg _ _)
      have hcpf : u.cyclesPerFrame = s.cyclesPerFrame := (dispatch_only hu).cpf.trans (runTo_cyclesPerFrame _ _)
      exact ih (onTime_dispatch h (by omega) hu) (by rwa [hcfg, hcpf]) ht
    next => cases ht; exact onTime_runTo h hb

theorem onTime_activeSegment {k : Seg} {s t : State} (hwell : WellConfigured s.cfg s.cyclesPerFrame) (h : OnTime s)
    (ht : activeSegment k s = .next t) : OnTime t := by
  obtain ⟨-, hend, -⟩ := hwell
  have hseg := segBoundary_le_endCycle s.cfg s.cyclesPerFrame k
  exact onTime_runSegment (s := { s with seg := k }) h (by dsimp only; omega) ht

theorem onTime_execActive {s t : State} (hwell : WellConfigured s.cfg s.cyclesPerFrame) (h : OnTime s)
    (ht : execActive s = .next t) : OnTime t := by
  obtain ⟨a, ha, ht⟩ := andThen_next.1 ht
  obtain ⟨b, hb, ht⟩ := andThen_next.1 ht
  obtain ⟨c, hc, ht⟩ := andThen_next.1 ht
  cases ht
  have honlyA := runSegment_only ha
  have honlyB := runSegment_only hb
  have hwellA : WellConfigured a.cfg a.cyclesPerFrame := by rw [honlyA.cfg, honlyA.cpf]; exact hwell
  have hwellB : WellConfigured b.cfg b.cyclesPerFrame := by rw [honlyB.cfg, honlyB.cpf]; exact hwellA
  have hone : OnTime a := onTime_activeSegment (s := { s with phase := .active }) hwell h ha
  have hthree : OnTime c := onTime_activeSegment hwellB (onTime_activeSegment hwellA hone hb) hc
  exact hthree

/-- The lead-in leaves room for a dispatch where it starts with the carry of a frame on time (R176, R196). -/
theorem execLeadin_leaves_room {s t : State} (hwell : WellConfigured s.cfg s.cyclesPerFrame)
    (hcarry : s.executedTotal ≤ s.cfg.runOverMax) (ht : execLeadin s = .next t) :
    t.executedTotal + cyclesPerLine s.cfg s.cyclesPerFrame + s.cfg.runOverMax ≤ s.cyclesPerFrame := by
  obtain ⟨-, -, hfirst⟩ := hwell
  have := execLeadin_executedTotal_le ht
  omega

theorem execLateguard_executedTotal {s t : State} (h : execLateguard s = .next t) : t.executedTotal = s.executedTotal := by
  cases h
  dsimp only
  split <;> rfl

/-- The phases 1 and 2 leave the account at the carry, or at 0 after a reset (R173, R176). -/
theorem execCatchup_execSetupFrame_executedTotal {s a b : State} (ha : execSetupFrame s = .next a)
    (hb : execCatchup a = .next b) : b.executedTotal = if s.inputs.resetRequest then 0 else s.carry := by
  cases ha
  cases hb
  rw [← openFrame_carry]
  show (openFrame s).executedTotal + (openFrame s).carry = _
  rw [openFrame_executedTotal, Int.zero_add]

/-- The phases 1 to 8 stay within the frame (R196). -/
theorem phases_within_frame {s u : State} (hhigh : s.carry ≤ s.cfg.runOverMax)
    (h : phases 8 .setupFrame s = .next u) (hwell : WellConfigured u.cfg u.cyclesPerFrame) :
    u.executedTotal ≤ u.cyclesPerFrame := by
  obtain ⟨s₁, h₁, hrest⟩ := andThen_next.1 h
  have hcfg₁ : s₁.cfg = s.cfg := exec_cfg (i := .setupFrame) h₁
  have hwell₁ : WellConfigured s₁.cfg s₁.cyclesPerFrame := by
    rwa [phases_cfg hrest, phases_cyclesPerFrame (by decide) hrest] at hwell
  obtain ⟨s₂, h₂, hrest⟩ := andThen_next.1 hrest
  obtain ⟨s₃, h₃, hrest⟩ := andThen_next.1 hrest
  obtain ⟨s₄, h₄, hrest⟩ := andThen_next.1 hrest
  obtain ⟨s₅, h₅, hrest⟩ := andThen_next.1 hrest
  obtain ⟨s₆, h₆, hrest⟩ := andThen_next.1 hrest
  have hcfg₂ : s₂.cfg = s₁.cfg := exec_cfg (i := .catchup) h₂
  have hcpf₂ : s₂.cyclesPerFrame = s₁.cyclesPerFrame := exec_phaseInstr_cyclesPerFrame (p := .catchup) nofun nofun h₂
  have hcarry : s₂.executedTotal ≤ s₂.cfg.runOverMax := by
    rw [execCatchup_execSetupFrame_executedTotal h₁ h₂, hcfg₂, hcfg₁]
    split <;> omega
  have hroom := execLeadin_leaves_room (by rwa [hcfg₂, hcpf₂]) hcarry h₃
  have honly₃ := execLeadin_only h₃
  have hcfg₅ : s₅.cfg = s₂.cfg :=
    (exec_cfg (i := .lateguard) h₅).trans ((exec_cfg (i := .basesnap) h₄).trans honly₃.cfg)
  have hcpf₅ : s₅.cyclesPerFrame = s₂.cyclesPerFrame :=
    (exec_phaseInstr_cyclesPerFrame (p := .lateguard) nofun nofun h₅).trans
      ((exec_phaseInstr_cyclesPerFrame (p := .basesnap) nofun nofun h₄).trans honly₃.cpf)
  have hexe₅ : s₅.executedTotal = s₃.executedTotal := by
    rw [execLateguard_executedTotal h₅]
    cases h₄
    rfl
  have honTime₅ : OnTime s₅ := by
    unfold OnTime
    rw [hexe₅, hcfg₅, hcpf₅]
    exact ⟨by omega, .inr hroom⟩
  have honTime₆ : OnTime s₆ := onTime_execActive (by rw [hcfg₅, hcpf₅, hcfg₂, hcpf₂]; exact hwell₁) honTime₅ h₆
  cases hrest
  simpa using honTime₆.1

/-- The last two phases take what the account is beyond the frame as the carry (R193). -/
theorem phases_drift (r : State) :
    ∃ t, phases 2 .drift r = .next t ∧ t.phase = .idle ∧ t.cfg = r.cfg ∧ t.executedTotal = r.executedTotal ∧
      t.carry = r.executedTotal - r.cyclesPerFrame := by
  refine ⟨_, rfl, rfl, ?_, ?_, ?_⟩
  · rw [callAudio_cfg, callHook_cfg]; rfl
  · rw [callAudio_executedTotal, callHook_executedTotal]; rfl
  · rw [callAudio_carry, callHook_carry]; rfl

/-- Settles O55: what phase 9 finds is within the frame, so that it runs the processor to the end of it and by at most one overrun
further (R170, R192). -/
theorem frameDriftBounded : Obligations.FrameDriftBounded := by
  unfold Obligations.FrameDriftBounded
  intro s u hphase hport _ hhigh hrun hwell
  rw [run_eq_phases 8 hphase hport (by decide)] at hrun
  obtain ⟨huphase, huport⟩ := phases_next hphase (by decide) hrun
  have hwithin := phases_within_frame hhigh hrun hwell
  obtain ⟨t, ht, hidle, hcfg, hexe, hcarry⟩ := phases_drift { runTo u.cyclesPerFrame u with phase := .drift }
  have hlast : Host.Core.run core 3 u = .next t := by
    rw [run_eq_phases 3 huphase (huport.trans hport) (by decide)]
    exact (congrArg (andThen · (phases 2 .drift)) (exec_drain u)).trans ht
  have hreached := le_runTo_executedTotal u.cyclesPerFrame u
  have hbound := runTo_executedTotal_le u.cyclesPerFrame u
  dsimp only at hcfg hexe hcarry
  rw [runTo_cyclesPerFrame] at hcarry
  rw [runTo_cfg] at hcfg
  exact ⟨hwithin, t, hlast, hidle, by omega, by omega, by omega, by rw [hcfg]; omega⟩

end Sys2Proof.Machine

/-! PROOFS. A frame with nothing armed (42_frame_phases.md R197). -/

namespace Sys2Proof.Machine

/-! ## Events that assert no interrupt -/

theorem assertions_signal_out (e : Event) (s : State) (h : assertions [e] = []) :
    assertions (signal e s).out = assertions s.out := by
  rw [signal_out, assertions_append, h, List.append_nil]

@[simp] theorem assertions_callHook_out (k : Hook) (s : State) : assertions (callHook k s).out = assertions s.out := by
  unfold callHook
  split
  · exact assertions_signal_out _ s (by cases k <;> rfl)
  · rfl

theorem assertions_callAudio_out (e : Event) (s : State) (h : assertions [e] = []) :
    assertions (callAudio e s).out = assertions s.out := by
  unfold callAudio
  split
  · rfl
  · exact assertions_signal_out e s h

@[simp] theorem assertions_callDraw_out (s : State) : assertions (callDraw s).out = assertions s.out := by
  unfold callDraw
  split
  · rfl
  · exact assertions_signal_out .draw s rfl

theorem assertions_fullReset_out (s : State) : assertions (fullReset s).out = assertions s.out := by
  rw [fullReset_out, assertions_append, assertions_append]
  split <;> simp [assertions]

theorem assertions_resetHonoured_out (s : State) : assertions (resetHonoured s).out = assertions s.out := by
  unfold resetHonoured
  split
  · exact assertions_fullReset_out _
  · rfl

theorem assertions_openFrame_out (s : State) : assertions (openFrame s).out = assertions s.out := by
  have hopened : assertions (frameOpened s).out = assertions (resetHonoured s).out := by
    show assertions ((resetHonoured s).out ++ [.ctxSelect] ++ [.cpuBeginFrame]) = _
    rw [assertions_append, assertions_append]
    simp [assertions]
  rw [openFrame_eq, assertions_callHook_out, assertions_callAudio_out _ _ rfl, hopened, assertions_resetHonoured_out]

/-! ## What holds while nothing is armed -/

/-- Inside a frame under the parameters `c` in which nothing is armed: nothing is due within the frame, nothing was counted,
`asserted` are the levels asserted so far, and just the slots `populated` names are populated (R197). -/
structure NothingArmed (c : Config) (asserted : List Nat) (populated : Nat → Prop) (s : State) : Prop where
  cfg : s.cfg = c
  line : c.scanlines ≤ s.nextLine
  cycle : (s.cyclesPerFrame : Int) < s.nextCycle
  count : s.irqCount = 0
  asserted : assertions s.out = asserted
  slots : ∀ (i : Nat) (slot : Slot), s.snaps[i]? = some slot → (slot.populated = true ↔ populated i)

/-- An operation that touches neither the schedule nor the store keeps this, but for the levels it asserts. -/
theorem NothingArmed.of_same {c : Config} {l l' : List Nat} {populated : Nat → Prop} {s t : State}
    (h : NothingArmed c l populated s) (e : SameRun s t) (hl : assertions t.out = l') : NothingArmed c l' populated t := by
  obtain ⟨hcfg, hline, hcycle, hcount, -, hslots⟩ := h
  exact ⟨e.cfg.trans hcfg, by rwa [e.nextLine], by rwa [e.cyclesPerFrame, e.nextCycle], e.irqCount.trans hcount, hl,
    by rwa [e.snaps]⟩

/-- With both lines exhausted, `SCHED` leaves the sentinel (R125). -/
theorem schedule_of_exhausted {s : State} (hP : s.srcP.line = s.cfg.scanlines) (hS : s.srcS.line = s.cfg.scanlines) :
    s.cfg.scanlines ≤ (schedule s).nextLine ∧ (s.cyclesPerFrame : Int) < (schedule s).nextCycle := by
  rw [schedule_nextLine, schedule_nextCycle, hP, hS, min_self, dueCycle, if_neg (lt_irrefl _), sentinel]
  exact ⟨le_rfl, by omega⟩

/-- A source is loaded exhausted by the global bit, where its own `AUTO` bit is 0, or by its line (R174). -/
theorem loadSource_line_of_unarmed {c : Config} {off : Bool} {w : Word}
    (h : (off = true ∧ w.getLsbD 15 = false) ∨ c.scanlines ≤ w.toNat % 512) : (loadSource c off w).line = c.scanlines := by
  rw [loadSource_eq]
  dsimp only
  rcases h with ⟨hoff, hauto⟩ | hline
  · rw [hoff, hauto]; rfl
  · split
    · exact Nat.min_eq_right hline
    · rfl

theorem trigLine_of_exhausted {c : Config} {w : Word} (h : c.scanlines ≤ w.toNat % 512) : trigLine c w = c.scanlines := by
  rw [trigLine_eq]
  exact Nat.min_eq_right h

/-! ## The phases -/

section Phases

variable {c : Config} {l : List Nat} {populated : Nat → Prop} {s : State}

/-- Phase 1 starts such a frame where it loads both sources exhausted (R174). -/
theorem execSetupFrame_nothingArmed (hP : (loadFrame (openFrame s)).srcP.line = s.cfg.scanlines)
    (hS : (loadFrame (openFrame s)).srcS.line = s.cfg.scanlines) :
    Answers (NothingArmed s.cfg (assertions s.out) fun _ => False) (execSetupFrame s) := by
  rw [← openFrame_cfg] at hP hS
  obtain ⟨hline, hcycle⟩ := schedule_of_exhausted (s := loadFrame (openFrame s)) hP hS
  refine .next ⟨openFrame_cfg s, ?_, hcycle, rfl, assertions_openFrame_out s, fun i slot hslot => ?_⟩
  · rw [← openFrame_cfg]
    exact hline
  · obtain ⟨-, hclear, -⟩ := clearSlots_clear (List.mem_of_getElem? hslot)
    rw [hclear]
    exact ⟨nofun, nofun⟩

theorem execCatchup_nothingArmed (h : NothingArmed c l populated s) : Answers (NothingArmed c l populated) (execCatchup s) := by
  refine .next (h.of_same (by constructor <;> rfl) ?_)
  show assertions (s.out ++ [.idleReq s.carry]) = _
  rw [assertions_append, h.asserted]
  exact List.append_nil l

/-- `FirstCycle` lies within the frame, so that the lead-in dispatches nothing (R178). -/
theorem execLeadin_nothingArmed (h : NothingArmed c l populated s) : Answers (NothingArmed c l populated) (execLeadin s) := by
  have hfirst := firstCycle_le_endCycle s.cfg s.cyclesPerFrame
  have hend := endCycle_le s.cfg s.cyclesPerFrame
  have hcycle := h.cycle
  rw [execLeadin_of_not_due (by omega)]
  refine .next (h.of_same (by constructor <;> simp) ?_)
  rw [← h.asserted]
  exact assertions_runTo_out _ s

theorem execBasesnap_nothingArmed (h : NothingArmed c l (fun _ => False) s) :
    Answers (NothingArmed c l (· = 0)) (execBasesnap s) := by
  obtain ⟨hcfg, hline, hcycle, hcount, hl, hslots⟩ := h
  refine .next ⟨hcfg, hline, hcycle, hcount, hl, fun i slot' hslot' => ?_⟩
  have hcopy : (snapCopy 0 s).snaps[i]? = some slot' := hslot'
  rw [snapCopy_getElem?] at hcopy
  by_cases hi : 0 = i
  · rw [if_pos hi] at hcopy
    obtain ⟨slot, -, rfl⟩ := Option.map_eq_some_iff.1 hcopy
    exact ⟨fun _ => hi.symm, fun _ => rfl⟩
  · rw [if_neg hi] at hcopy
    exact ⟨fun hpopulated => ((hslots i slot' hcopy).1 hpopulated).elim, fun hzero => absurd hzero.symm hi⟩

/-- Phase 5 reloads nothing, or two exhausted lines (R183). -/
theorem execLateguard_nothingArmed (h : NothingArmed c l populated s)
    (hwords : bsd s = true ∨ (trigLine s.cfg (s.rf.read16 offTrigP) = s.cfg.scanlines ∧
      trigLine s.cfg (s.rf.read16 offTrigS) = s.cfg.scanlines)) :
    Answers (NothingArmed c l populated) (execLateguard s) := by
  suffices hguarded : NothingArmed c l populated (if nothingScheduled s && !bsd s then reloadLines s else s) from
    .next (hguarded.of_same (by constructor <;> rfl) hguarded.asserted)
  split
  next hguard =>
    rcases hwords with hbsd | ⟨hP, hS⟩
    · rw [hbsd, Bool.not_true, Bool.and_false] at hguard
      cases hguard
    · obtain ⟨hline, hcycle⟩ := schedule_of_exhausted (s := reloadLines s) hP hS
      exact ⟨h.cfg, h.cfg ▸ hline, hcycle, h.count, h.asserted, h.slots⟩
  next => exact h

/-- `EndCycle` lies within the frame, so that phase 6 dispatches nothing (R184). -/
theorem execActive_nothingArmed (h : NothingArmed c l populated s) : Answers (NothingArmed c l populated) (execActive s) := by
  have hend := endCycle_le s.cfg s.cyclesPerFrame
  have hcycle := h.cycle
  have hnothing : NothingToDispatch s := .inr (by omega)
  rw [execActive_of_nothing hnothing]
  refine .next (h.of_same (by constructor <;> simp) ?_)
  dsimp only
  rw [assertions_runTo_out, assertions_runTo_out, assertions_runTo_out, h.asserted]

theorem execObjcap_nothingArmed (h : NothingArmed c l populated s) : Answers (NothingArmed c l populated) (execObjcap s) := by
  refine .next (h.of_same (by constructor <;> simp) ?_)
  rw [← h.asserted]
  exact (assertions_signal_out .objCapture _ rfl).trans (assertions_callHook_out .frameMid _)

/-- Phase 8 asserts the vertical-blank interrupt (R191). -/
theorem execVblank_nothingArmed (h : NothingArmed c l populated s) :
    Answers (NothingArmed c (l ++ [c.vblankIrqLevel]) populated) (execVblank s) := by
  refine .next (h.of_same (by constructor <;> simp) ?_)
  rw [← h.asserted, ← h.cfg]
  exact (assertions_callDraw_out _).trans (assertions_append s.out [.irqAssert s.cfg.vblankIrqLevel])

theorem execDrain_nothingArmed (h : NothingArmed c l populated s) : Answers (NothingArmed c l populated) (execDrain s) := by
  refine .next (h.of_same (by constructor <;> simp) ?_)
  rw [← h.asserted]
  exact assertions_runTo_out _ _

theorem execDrift_nothingArmed (h : NothingArmed c l populated s) : Answers (NothingArmed c l populated) (execDrift s) := by
  refine .next (h.of_same (by constructor <;> simp) ?_)
  refine (assertions_callHook_out .frameEnd _).trans ?_
  show assertions (s.out ++ [.ctxRelease]) = _
  rw [assertions_append, h.asserted]
  exact List.append_nil l

theorem execFrameend_nothingArmed (h : NothingArmed c l populated s) :
    Answers (fun t => t.phase = .idle ∧ NothingArmed c l populated t) (execFrameend s) := by
  refine .next ⟨rfl, h.of_same (by constructor <;> simp) ?_⟩
  rw [← h.asserted]
  exact assertions_callAudio_out .audioEnd _ rfl

end Phases

/-- Settles O56: the schedule stands at the sentinel in every phase, so that no guard of a dispatch holds. -/
theorem nothingArmedFrame : Obligations.NothingArmedFrame := by
  unfold Obligations.NothingArmedFrame
  intro s u hphase hport _ o exhausted disabled unarmed hunarmed hrun hwords
  rw [run_eq_phases 4 hphase hport (by decide)] at hrun
  obtain ⟨huphase, huport⟩ := phases_next hphase (by decide) hrun
  have hload {off : Nat} (h : unarmed off) : (loadSource o.cfg (bsd o) (o.rf.read16 off)).line = s.cfg.scanlines := by
    rw [openFrame_cfg]
    exact loadSource_line_of_unarmed h
  have hfirst : Answers (NothingArmed s.cfg (assertions s.out) (· = 0)) (phases 4 .setupFrame s) :=
    (execSetupFrame_nothingArmed (hload hunarmed.1) (hload hunarmed.2)).andThen fun _ h₁ =>
      (execCatchup_nothingArmed h₁).andThen fun _ h₂ => (execLeadin_nothingArmed h₂).andThen fun _ h₃ =>
        (execBasesnap_nothingArmed h₃).andThen fun _ h₄ => .next h₄
  obtain ⟨u', hu', hu⟩ := hfirst
  obtain rfl : u' = u := Host.Outcome.next.inj (hu'.symm.trans hrun)
  have hcfg := hu.cfg
  have hreload : bsd u' = true ∨ (trigLine u'.cfg (u'.rf.read16 offTrigP) = u'.cfg.scanlines ∧
      trigLine u'.cfg (u'.rf.read16 offTrigS) = u'.cfg.scanlines) := by
    rw [hcfg]
    exact hwords.imp_right fun ⟨hP, hS⟩ => ⟨trigLine_of_exhausted hP, trigLine_of_exhausted hS⟩
  have hsecond : Answers (fun t => t.phase = .idle ∧
      NothingArmed s.cfg (assertions s.out ++ [s.cfg.vblankIrqLevel]) (· = 0) t) (phases 7 .lateguard u') :=
    (execLateguard_nothingArmed hu hreload).andThen fun _ h₅ => (execActive_nothingArmed h₅).andThen fun _ h₆ =>
      (execObjcap_nothingArmed h₆).andThen fun _ h₇ => (execVblank_nothingArmed h₇).andThen fun _ h₈ =>
        (execDrain_nothingArmed h₈).andThen fun _ h₉ => (execDrift_nothingArmed h₉).andThen fun _ h₁₀ =>
          (execFrameend_nothingArmed h₁₀).andThen fun _ h₁₁ => .next h₁₁
  obtain ⟨t, ht, hidle, hquiet⟩ := hsecond
  refine ⟨t, ?_, hidle, hquiet.count, hquiet.slots, hquiet.asserted⟩
  rw [run_eq_phases 7 huphase (huport.trans hport) (by decide)]
  exact ht

end Sys2Proof.Machine

/-! PROOFS. The register file steers nothing but the phases 1 and 5 (20_memory.md R72). -/

namespace Sys2Proof.Machine

/-! ## Updates and operations that do not see the register file -/

/-- The slot without its copy of the register file. -/
def slotWithoutRf (slot : Slot) : Slot := { slot with regCopy := [] }

/-- The outcome, but for the register file and its copies. -/
def outcomeWithoutRf (r : Result) : Result := andThen r fun u => .next (withoutRf u)

/-- From states that are equal but for the register file, `F` leads to such states. -/
def RfUnseen (F : State → State) : Prop := ∀ ⦃s t⦄, withoutRf s = withoutRf t → withoutRf (F s) = withoutRf (F t)

/-- The same of an operation that may stop: it ends the same way, too. -/
def RfUnseenOp (f : State → Result) : Prop :=
  ∀ ⦃s t⦄, withoutRf s = withoutRf t → outcomeWithoutRf (f s) = outcomeWithoutRf (f t)

/-- What is left of `F s` is made of what is left of `s`. -/
theorem RfUnseen.of_eq {F : State → State} (G : State → State) (h : ∀ s, withoutRf (F s) = G (withoutRf s)) : RfUnseen F :=
  fun s t hst => by rw [h s, h t, hst]

/-- The shape of an update that leaves the store alone. -/
theorem RfUnseen.of_storeKept {F : State → State} (h : ∀ s, withoutRf (F s) = { F (withoutRf s) with rf := [] }) :
    RfUnseen F :=
  .of_eq (fun s => { F s with rf := [] }) h

theorem RfUnseen.id : RfUnseen fun s => s := fun _ _ h => h

theorem RfUnseen.comp {F G : State → State} (hF : RfUnseen F) (hG : RfUnseen G) : RfUnseen fun s => F (G s) :=
  fun _ _ h => hF (hG h)

/-- A guard may look at anything else. -/
theorem RfUnseen.ite {c : State → Prop} [DecidablePred c] {F G : State → State} (hc : ∀ s, c (withoutRf s) ↔ c s)
    (hF : RfUnseen F) (hG : RfUnseen G) : RfUnseen fun s => if c s then F s else G s := by
  intro s t h
  have hguard : c s ↔ c t := by rw [← hc s, h, hc t]
  by_cases hs : c s
  · simpa only [if_pos hs, if_pos (hguard.1 hs)] using hF h
  · simpa only [if_neg hs, if_neg (mt hguard.2 hs)] using hG h

/-- An operand may be read from anything else. -/
theorem RfUnseen.of_operand {α : Type} {F : α → State → State} (hF : ∀ a, RfUnseen (F a)) (p : State → α)
    (hp : ∀ s, p (withoutRf s) = p s) : RfUnseen fun s => F (p s) s := by
  intro s t h
  have hoperand : p s = p t := by rw [← hp s, h, hp t]
  dsimp only
  rw [hoperand]
  exact hF (p t) h

theorem RfUnseenOp.next {F : State → State} (hF : RfUnseen F) : RfUnseenOp fun s => .next (F s) :=
  fun _ _ h => congrArg Host.Outcome.next (hF h)

theorem RfUnseenOp.fault (x : Fault) : RfUnseenOp fun _ => .fault x := fun _ _ _ => rfl

theorem RfUnseenOp.comp {f : State → Result} {G : State → State} (hf : RfUnseenOp f) (hG : RfUnseen G) :
    RfUnseenOp fun s => f (G s) :=
  fun _ _ h => hf (hG h)

/-- An operation after which the register file was not seen sees nothing of what led to it. -/
theorem RfUnseenOp.outcome_andThen {g : State → Result} (hg : RfUnseenOp g) {r r' : Result}
    (h : outcomeWithoutRf r = outcomeWithoutRf r') : outcomeWithoutRf (andThen r g) = outcomeWithoutRf (andThen r' g) := by
  cases r with
  | next u => cases r' with
    | next v => exact hg (Host.Outcome.next.inj h)
    | fault x | refused x => cases h
  | fault x => cases r' with
    | fault y => cases h; rfl
    | next v | refused y => cases h
  | refused x => cases r' with
    | refused y => cases h; rfl
    | next v | fault y => cases h

theorem RfUnseenOp.andThen {f g : State → Result} (hf : RfUnseenOp f) (hg : RfUnseenOp g) :
    RfUnseenOp fun s => andThen (f s) g :=
  fun _ _ h => hg.outcome_andThen (hf h)

theorem RfUnseenOp.ite {c : State → Prop} [DecidablePred c] {f g : State → Result} (hc : ∀ s, c (withoutRf s) ↔ c s)
    (hf : RfUnseenOp f) (hg : RfUnseenOp g) : RfUnseenOp fun s => if c s then f s else g s := by
  intro s t h
  have hguard : c s ↔ c t := by rw [← hc s, h, hc t]
  by_cases hs : c s
  · simpa only [if_pos hs, if_pos (hguard.1 hs)] using hf h
  · simpa only [if_neg hs, if_neg (mt hguard.2 hs)] using hg h

theorem RfUnseenOp.of_operand {α : Type} {f : α → State → Result} (hf : ∀ a, RfUnseenOp (f a)) (p : State → α)
    (hp : ∀ s, p (withoutRf s) = p s) : RfUnseenOp fun s => f (p s) s := by
  intro s t h
  have hoperand : p s = p t := by rw [← hp s, h, hp t]
  dsimp only
  rw [hoperand]
  exact hf (p t) h

/-! ## Events and the processor -/

/-- The environment may store into the register file, and what else it does depends on its answer only (R66). -/
theorem rfUnseen_signal (e : Event) : RfUnseen (signal e) := .of_storeKept fun _ => rfl

theorem rfUnseen_callHook (k : Hook) : RfUnseen (callHook k) := .ite (fun _ => Iff.rfl) (rfUnseen_signal _) .id

theorem rfUnseen_callAudio (e : Event) : RfUnseen (callAudio e) := .ite (fun _ => Iff.rfl) .id (rfUnseen_signal e)

theorem rfUnseen_callDraw : RfUnseen callDraw := .ite (fun _ => Iff.rfl) .id (rfUnseen_signal .draw)

theorem rfUnseen_run (n : Int) : RfUnseen (run n) := .ite (fun _ => Iff.rfl) .id (.of_storeKept fun _ => rfl)

theorem rfUnseen_runTo (t : Int) : RfUnseen (runTo t) :=
  .ite (fun _ => Iff.rfl) (.of_operand rfUnseen_run (fun s => t - s.executedTotal) fun _ => rfl) .id

theorem rfUnseen_runTo_nextCycle : RfUnseen fun s => runTo s.nextCycle s :=
  .of_operand rfUnseen_runTo (·.nextCycle) fun _ => rfl

theorem rfUnseen_emit (e : Event) : RfUnseen (emit e) := .of_storeKept fun _ => rfl

theorem rfUnseen_cpuReset : RfUnseen cpuReset := .of_storeKept fun _ => rfl

theorem rfUnseen_fullReset : RfUnseen fullReset := by
  have hwords : RfUnseen fun s => { disableWords s with carry := 0 } := .of_storeKept fun _ => rfl
  exact (rfUnseen_callHook .postReset).comp <| (rfUnseen_signal .subsysReset).comp <| (rfUnseen_emit .ctxRelease).comp <|
    rfUnseen_cpuReset.comp <| (rfUnseen_emit .ctxSelect).comp hwords

theorem rfUnseen_finishSetup (c : Int) : RfUnseen (finishSetup c) := by
  have hdone : RfUnseen fun s => { s with setupDone := true } := .of_storeKept fun _ => rfl
  exact .ite (fun _ => Iff.rfl) (.of_storeKept fun _ => rfl) (hdone.comp (rfUnseen_callHook .postInit))

theorem rfUnseen_unspecify (c : Contents) : RfUnseen (unspecify c) := .of_eq (fun s => withoutRf (unspecify c s)) fun _ => rfl

theorem rfUnseen_release : RfUnseen release := .of_eq (fun s => withoutRf (release s)) fun _ => rfl

/-! ## The snapshot store -/

/-- An update of one slot, where it does the same to what is left of a slot. -/
theorem map_modify_slotWithoutRf {f g : Slot → Slot} (h : ∀ slot, slotWithoutRf (f slot) = g (slotWithoutRf slot))
    (l : List Slot) (i : Nat) : (l.modify i f).map slotWithoutRf = (l.map slotWithoutRf).modify i g := by
  apply List.ext_getElem?
  intro j
  simp only [List.getElem?_map, List.getElem?_modify]
  cases l[j]? with
  | none => rfl
  | some slot =>
    by_cases hij : i = j
    · simp only [if_pos hij]
      exact congrArg some (h slot)
    · simp only [if_neg hij]
      rfl

theorem rfUnseen_snapCopy (i : Nat) : RfUnseen (snapCopy i) := by
  refine .of_eq
    (fun s => { s with snaps := s.snaps.modify i fun slot => { slot with auxCopy := s.aux, populated := true } }) fun s => ?_
  have hslots := map_modify_slotWithoutRf (f := fun slot => { slot with regCopy := s.rf, auxCopy := s.aux, populated := true })
    (g := fun slot => { slot with auxCopy := s.aux, populated := true }) (fun _ => rfl) s.snaps i
  exact congrArg (fun l => { withoutRf s with snaps := l }) hslots

theorem rfUnseen_setRaster (i : Nat) (v : Int) : RfUnseen (setRaster i v) := by
  refine .of_eq (setRaster i v) fun s => ?_
  have hslots := map_modify_slotWithoutRf (f := fun slot => { slot with rasterLine := v })
    (g := fun slot => { slot with rasterLine := v }) (fun _ => rfl) s.snaps i
  exact congrArg (fun l => { withoutRf s with snaps := l }) hslots

/-! ## `DISPATCH` -/

theorem rfUnseenOp_countInterrupt (due : Nat) : RfUnseenOp (countInterrupt due) := by
  have hcount : RfUnseen fun s => { s with irqCount := s.irqCount + 1 } := .of_storeKept fun _ => rfl
  have hrecord : RfUnseen fun s => setRaster (s.irqCount + 1) (due - firstLine : Nat) { s with irqCount := s.irqCount + 1 } :=
    .of_operand (fun k => (rfUnseen_setRaster k (due - firstLine : Nat)).comp hcount) (fun s => s.irqCount + 1) fun _ => rfl
  exact .ite (fun _ => Iff.rfl) (.ite (fun _ => Iff.rfl) (.next hrecord) (.fault _)) (.next .id)

theorem rfUnseen_interruptAndRun : RfUnseen interruptAndRun := by
  have hassert : RfUnseen fun s => irqAssert s.cfg.beamIrqLevel s := .of_storeKept fun _ => rfl
  exact .of_operand (fun n => (rfUnseen_run n).comp hassert)
    (fun s => (cyclesPerLine s.cfg s.cyclesPerFrame : Int)) fun _ => rfl

/-- Step d looks at the recorded raster line of its slot, which is no part of the copies (R144). -/
theorem rfUnseenOp_capture : RfUnseenOp capture := by
  intro s t h
  have hcopy : RfUnseen fun s => snapCopy s.irqCount s := .of_operand rfUnseen_snapCopy (·.irqCount) fun _ => rfl
  have hdiscard : RfUnseen fun s => setRaster s.irqCount 0 s :=
    .of_operand (fun i => rfUnseen_setRaster i 0) (·.irqCount) fun _ => rfl
  have hslot : (s.snaps[s.irqCount]?).map slotWithoutRf = (t.snaps[t.irqCount]?).map slotWithoutRf := by
    rw [← List.getElem?_map, ← List.getElem?_map]
    exact congrArg (fun u : State => u.snaps[u.irqCount]?) h
  unfold capture
  cases hs : s.snaps[s.irqCount]? with
  | none => cases ht : t.snaps[t.irqCount]? with
    | none => rfl
    | some y => simp [hs, ht] at hslot
  | some x => cases ht : t.snaps[t.irqCount]? with
    | none => simp [hs, ht] at hslot
    | some y =>
      rw [hs, ht, Option.map_some, Option.map_some] at hslot
      have hraster := congrArg Slot.rasterLine (Option.some.inj hslot)
      change x.rasterLine = y.rasterLine at hraster
      dsimp only
      rw [hraster]
      exact RfUnseenOp.next (.ite (c := fun _ => inActive y.rasterLine) (fun _ => Iff.rfl) hcopy hdiscard) h

theorem rfUnseenOp_dispatch : RfUnseenOp dispatch := by
  have hforce : RfUnseen forceProgress := .ite (fun _ => Iff.rfl) (.of_storeKept fun _ => rfl) .id
  have hend (due : Nat) : RfUnseen fun s => forceProgress (schedule (rearmSources due s)) :=
    hforce.comp (.of_storeKept fun _ => rfl)
  have hcapture := rfUnseenOp_capture.comp rfUnseen_interruptAndRun
  exact .of_operand (fun due => (rfUnseenOp_countInterrupt due).andThen (hcapture.andThen (.next (hend due)))) (·.nextLine)
    fun _ => rfl

/-! ## The phases -/

theorem rfUnseen_withPhase (p : Phase) : RfUnseen fun s => { s with phase := p } := .of_storeKept fun _ => rfl

theorem rfUnseen_driverActs : RfUnseen driverActs := by
  refine .of_storeKept fun s => ?_
  have hdriver : (withoutRf s).driver = s.driver := rfl
  unfold driverActs
  rw [hdriver]
  cases s.driver with
  | nil => rfl
  | cons act rest => cases act with
    | frameStart => rfl
    | issue i => rfl

theorem rfUnseenOp_execLeadin : RfUnseenOp execLeadin := by
  have hdispatch : RfUnseenOp leadinDispatch :=
    .ite (fun _ => Iff.rfl) (rfUnseenOp_dispatch.comp rfUnseen_runTo_nextCycle) (.next .id)
  have hrun : RfUnseen fun s => runTo (firstCycle s.cfg s.cyclesPerFrame) s :=
    .of_operand rfUnseen_runTo (fun s => (firstCycle s.cfg s.cyclesPerFrame : Int)) fun _ => rfl
  exact (hdispatch.comp (rfUnseen_withPhase .leadin)).andThen (.next ((rfUnseen_withPhase .basesnap).comp hrun))

theorem rfUnseenOp_runSegment (b : Int) (fuel : Nat) : RfUnseenOp (runSegment b fuel) := by
  induction fuel with
  | zero => exact .fault .segmentUnbounded
  | succ fuel ih =>
    exact .ite (fun _ => Iff.rfl) ((rfUnseenOp_dispatch.comp rfUnseen_runTo_nextCycle).andThen ih) (.next (rfUnseen_runTo b))

theorem rfUnseenOp_activeSegment (k : Seg) : RfUnseenOp (activeSegment k) := by
  have hseg : RfUnseen fun s => { s with seg := k } := .of_storeKept fun _ => rfl
  exact .of_operand (fun bound => (rfUnseenOp_runSegment bound.1 bound.2).comp hseg)
    (fun s => ((segBoundary s.cfg s.cyclesPerFrame k : Int), segmentFuel s.cfg)) fun _ => rfl

theorem rfUnseenOp_execActive : RfUnseenOp execActive :=
  ((rfUnseenOp_activeSegment .one).comp (rfUnseen_withPhase .active)).andThen <|
    (rfUnseenOp_activeSegment .two).andThen <| (rfUnseenOp_activeSegment .three).andThen <|
      .next (rfUnseen_withPhase .objcap)

theorem rfUnseen_storeWord (off : Nat) (w : Word) : RfUnseen (storeWord off w) :=
  .ite (fun _ => Iff.rfl) (.of_storeKept fun _ => rfl) .id

/-! ## Every operation but the phases 1 and 5 -/

theorem rfUnseenOp_exec {i : Instr} (hsetup : i ≠ .setupFrame) (hguard : i ≠ .lateguard) : RfUnseenOp (exec i) := by
  cases i with
  | setupFrame => exact absurd rfl hsetup
  | lateguard => exact absurd rfl hguard
  | idle =>
    have hmove : RfUnseen interleave := .of_storeKept fun _ => rfl
    exact .next (.ite (fun _ => Iff.rfl) (rfUnseen_driverActs.comp hmove) .id)
  | catchup => exact .next (.of_storeKept fun _ => rfl)
  | leadin => exact rfUnseenOp_execLeadin
  | basesnap => exact .next ((rfUnseen_withPhase .lateguard).comp ((rfUnseen_snapCopy 0).comp (rfUnseen_withPhase .basesnap)))
  | active => exact rfUnseenOp_execActive
  | objcap =>
    have hhook := (rfUnseen_callHook .frameMid).comp (rfUnseen_withPhase .objcap)
    exact .next ((rfUnseen_withPhase .vblank).comp ((rfUnseen_signal .objCapture).comp hhook))
  | vblank =>
    have hassert : RfUnseen vblankAsserted := .of_storeKept fun _ => rfl
    exact .next ((rfUnseen_withPhase .drain).comp (rfUnseen_callDraw.comp hassert))
  | drain =>
    have hrun : RfUnseen fun s => runTo s.cyclesPerFrame { s with phase := .drain } :=
      .of_operand (fun n => (rfUnseen_runTo n).comp (rfUnseen_withPhase .drain)) (fun s => (s.cyclesPerFrame : Int)) fun _ => rfl
    exact .next ((rfUnseen_withPhase .drift).comp hrun)
  | drift =>
    have hclosed : RfUnseen driftClosed := .of_storeKept fun _ => rfl
    exact .next ((rfUnseen_withPhase .frameend).comp ((rfUnseen_callHook .frameEnd).comp hclosed))
  | frameend =>
    exact .next ((rfUnseen_withPhase .idle).comp ((rfUnseen_callAudio .audioEnd).comp (rfUnseen_withPhase .frameend)))
  | sched => exact .next (.of_storeKept fun _ => rfl)
  | dispatch => exact rfUnseenOp_dispatch
  | run n => exact .next (rfUnseen_run n)
  | idlecyc n => exact .next (.of_storeKept fun _ => rfl)
  | snapcopy i => exact .ite (fun _ => Iff.rfl) (.next (rfUnseen_snapCopy i)) (.fault .slotOutOfRange)
  | setup =>
    have hsetup : RfUnseen fun s => finishSetup (answer s).code (signal .subsysInit (unspecify (answer s).fresh s)) :=
      .of_operand (fun a => (rfUnseen_finishSetup a.code).comp ((rfUnseen_signal .subsysInit).comp (rfUnseen_unspecify a.fresh)))
        answer fun _ => rfl
    exact .next (.ite (fun _ => Iff.rfl) hsetup .id)
  | fullreset => exact .next (.ite (fun _ => Iff.rfl) rfUnseen_fullReset .id)
  | teardown => exact .next (.ite (fun _ => Iff.rfl) (rfUnseen_release.comp (rfUnseen_callHook .preExit)) .id)
  | hookreg k present => exact .next (.ite (fun _ => Iff.rfl) (.of_storeKept fun _ => rfl) .id)
  | ctrl w => exact .next (rfUnseen_storeWord offCtrl w)
  | trigP w => exact .next (rfUnseen_storeWord offTrigP w)
  | trigS w => exact .next (rfUnseen_storeWord offTrigS w)

/-- Settles O59: the two phases left out are the only operations that decode a word (R72). -/
theorem registerFileUnseenElsewhere : Obligations.RegisterFileUnseenElsewhere := by
  unfold Obligations.RegisterFileUnseenElsewhere
  intro i s t hsetup hguard h
  exact rfUnseenOp_exec hsetup hguard h

end Sys2Proof.Machine

/-! PROOFS. The lifecycle commands (43_lifecycle.md R220 to R225). -/

namespace Sys2Proof.Machine

/-! ## Which commands are accepted -/

theorem setupAccepted_iff (s : State) : setupAccepted s = true ↔ s.phase = .idle ∧ s.setupDone = false := by
  simp [setupAccepted]

theorem fullresetAccepted_iff (s : State) : fullresetAccepted s = true ↔ s.phase = .idle ∧ s.setupDone = true := by
  simp [fullresetAccepted]

theorem teardownAccepted_iff (s : State) : teardownAccepted s = true ↔ s.phase = .idle ∧ s.setupDone = true := by
  simp [teardownAccepted]

theorem hookregAccepted_iff (s : State) : hookregAccepted s = true ↔ s.phase = .idle := by simp [hookregAccepted]

/-- The state in which the subsystems' answer to `SETUP` is looked at (R221). -/
def subsystemsInitialised (s : State) : State := signal .subsysInit (unspecify (answer s).fresh s)

theorem exec_setup : ∀ s : State,
    exec .setup s = .next (if setupAccepted s then finishSetup (answer s).code (subsystemsInitialised s) else s) := by
  intros; rfl

theorem exec_fullreset : ∀ s : State, exec .fullreset s = .next (if fullresetAccepted s then fullReset s else s) := by
  intros; rfl

theorem exec_teardown : ∀ s : State,
    exec .teardown s = .next (if teardownAccepted s then release (callHook .preExit s) else s) := by
  intros; rfl

theorem exec_hookreg : ∀ (h : Hook) (present : Bool) (s : State),
    exec (.hookreg h present) s =
      .next (if hookregAccepted s then { s with hooks := s.hooks.set h present } else s) := by
  intros; rfl

/-- Settles O52: within a frame by the case of the command, between frames by the command's own precondition (R220). -/
theorem commandsNotAcceptedDoNothing : Obligations.CommandsNotAcceptedDoNothing := by
  unfold Obligations.CommandsNotAcceptedDoNothing
  intro s
  refine ⟨fun hframe i hi => exec_command_of_ne_idle hi hframe, fun hdone => ?again, fun hdone => ⟨?reset, ?teardown⟩⟩
  case again => rw [exec_setup, if_neg (by simp [setupAccepted_iff, hdone])]
  case reset => rw [exec_fullreset, if_neg (by simp [fullresetAccepted_iff, hdone])]
  case teardown => rw [exec_teardown, if_neg (by simp [teardownAccepted_iff, hdone])]

/-! ## `HOOKREG` -/

theorem Hooks.get_set (k : Hooks) (h j : Hook) (present : Bool) :
    (k.set h present).get j = if j = h then present else k.get j := by
  cases h <;> cases j <;> rfl

/-- Settles O50: the command is accepted whether setup is done or not, and `Hooks.set` writes one bit (R225). -/
theorem hookregResult : Obligations.HookregResult := by
  unfold Obligations.HookregResult
  intro h p s hphase
  refine ⟨{ s with hooks := s.hooks.set h p }, ?next, rfl, ?written, fun k hk => ?kept⟩
  case next => rw [exec_hookreg, if_pos ((hookregAccepted_iff s).2 hphase)]
  case written => exact (Hooks.get_set s.hooks h h p).trans (if_pos rfl)
  case kept => exact (Hooks.get_set s.hooks h k p).trans (if_neg hk)

/-! ## `SETUP` -/

theorem finishSetup_of_success (s : State) : finishSetup 0 s = { callHook .postInit s with setupDone := true } := rfl

theorem finishSetup_of_failure {c : Int} (hc : c ≠ 0) (s : State) :
    finishSetup c s = raiseException (.setupFailure c) s := if_pos hc

theorem stored_subsystemsInitialised (s : State) : Stored (subsystemsInitialised s) :=
  stored_signal .subsysInit (stored_unspecify s (answer s).fresh)

/-- An accepted `SETUP` ends as the subsystems' integer says (R221). -/
theorem exec_setup_of_accepted {s : State} (hphase : s.phase = .idle) (hdone : s.setupDone = false) :
    exec .setup s = .next (finishSetup (answer s).code (subsystemsInitialised s)) := by
  rw [exec_setup, if_pos ((setupAccepted_iff s).2 ⟨hphase, hdone⟩)]

/-- Settles O46: the success branch of `finishSetup`, on the state with its fresh contents (R221). -/
theorem setupSucceeds : Obligations.SetupSucceeds := by
  unfold Obligations.SetupSucceeds
  intro s hphase hdone hcode
  let u := subsystemsInitialised s
  have hexec : exec .setup s = .next { callHook .postInit u with setupDone := true } := by
    rw [exec_setup_of_accepted hphase hdone, hcode, finishSetup_of_success]
  have hstored : Stored { callHook .postInit u with setupDone := true } :=
    (stored_callHook .postInit (stored_subsystemsInitialised s)).of_eq rfl rfl rfl rfl
  exact ⟨_, hexec, rfl, (callHook_phase .postInit u).trans hphase, callHook_hooks .postInit u, callHook_raised .postInit u,
    callHook_out .postInit u, hstored, callHook_cfg .postInit u, callHook_port .postInit u, callHook_driver .postInit u⟩

/-- A `frameStart` before setup is taken off the driver's tape and starts nothing (R220). -/
theorem exec_idle_of_frameStart_without_setup {s : State} {rest : List DriverAct} (hphase : s.phase = .idle)
    (hdone : s.setupDone = false) (hdriver : s.driver = .frameStart :: rest) :
    exec .idle s = .next { interleave s with driver := rest, phase := .idle } := by
  obtain ⟨-, -, hframeStart, -⟩ := idleResult s
  rw [hframeStart rest hphase hdriver, hdone]
  rfl

/-- Settles O47: the failure branch of `finishSetup` raises the exception, and a `frameStart` then finds setup not done (R221). -/
theorem setupFailureRaised : Obligations.SetupFailureRaised := by
  unfold Obligations.SetupFailureRaised
  intro s hphase hdone hcode
  let t := raiseException (.setupFailure (answer s).code) (subsystemsInitialised s)
  have hexec : exec .setup s = .next t := by
    rw [exec_setup_of_accepted hphase hdone, finishSetup_of_failure hcode]
  refine ⟨t, hexec, rfl, rfl, hphase, rfl, rfl, rfl, rfl, rfl, fun rest u hu => ?noFrame⟩
  case noFrame =>
    have hidle : ({ t with driver := .frameStart :: rest } : State).phase = .idle := hphase
    rw [exec_idle_of_frameStart_without_setup hidle rfl rfl] at hu
    cases hu
    exact ⟨rfl, rfl⟩

/-! ## `TEARDOWN` -/

/-- Settles O49: the pre-exit callback, then the release, which leaves fresh contents (R224). -/
theorem teardownResult : Obligations.TeardownResult := by
  unfold Obligations.TeardownResult
  intro s hphase hdone
  let u := callHook .preExit s
  have hexec : exec .teardown s = .next (release u) := by
    rw [exec_teardown, if_pos ((teardownAccepted_iff s).2 ⟨hphase, hdone⟩)]
  have hout : (release u).out = s.out ++ (if s.hooks.preExit then [.hookPreExit] else []) ++ [.subsysExit] :=
    congrArg (· ++ [Event.subsysExit]) (callHook_out .preExit s)
  exact ⟨_, hexec, rfl, (callHook_phase .preExit s).trans hphase, rfl, hout, stored_unspecify _ _, callHook_cfg .preExit s,
    callHook_raised .preExit s, callHook_port .preExit s, callHook_driver .preExit s⟩

/-! ## Collaborators that store nothing -/

/-- The two address spaces that the environment may store to (R66). -/
inductive Space where
  | rf | aux

def Space.image : Space → State → Memory
  | .rf => State.rf
  | .aux => State.aux

def Space.stores : Space → Answer → List Host.Cell
  | .rf => Answer.rf
  | .aux => Answer.aux

/-- The environment's next `n` answers are foretold and store nothing in the space. -/
def Quiet (m : Space) (n : Nat) (s : State) : Prop := ∀ k < n, ∃ a, s.answers[k]? = some a ∧ m.stores a = []

section Quiet
variable {m : Space} {n : Nat} {s : State}

theorem Quiet.mono {k : Nat} (h : Quiet m n s) (hk : k ≤ n) : Quiet m k s := fun i hi => h i (Nat.lt_of_lt_of_le hi hk)

/-- What is foretold is the answer at the next interleaving point. -/
theorem Quiet.stores_answer (h : Quiet m (n + 1) s) : m.stores (answer s) = [] := by
  obtain ⟨a, ha, hstores⟩ := h 0 (Nat.succ_pos n)
  rwa [answer, List.headD_eq_head?_getD, List.head?_eq_getElem?, ha]

/-- An interleaving point uses up one answer. -/
theorem Quiet.interleave (h : Quiet m (n + 1) s) : Quiet m n (interleave s) := fun k hk => by
  obtain ⟨a, ha, hstores⟩ := h (k + 1) (Nat.succ_lt_succ hk)
  exact ⟨a, List.getElem?_tail.trans ha, hstores⟩

/-- The environment's stores are its only way to a space at an interleaving point (R66). -/
theorem interleave_image_of_quiet (h : Quiet m (n + 1) s) : m.image (interleave s) = m.image s := by
  have hstores := h.stores_answer
  cases m with
  | rf => exact congrArg (Memory.patch s.cfg.regfileBytes s.rf) hstores
  | aux => exact congrArg (Memory.patch auxBytes s.aux) hstores

@[simp] theorem emit_image (m : Space) (e : Event) (s : State) : m.image (emit e s) = m.image s := by cases m <;> rfl

theorem signal_image_of_quiet (e : Event) (h : Quiet m (n + 1) s) : m.image (signal e s) = m.image s :=
  (interleave_image_of_quiet (s := emit e s) h).trans (emit_image m e s)

theorem cpuReset_image_of_quiet (h : Quiet m (n + 1) s) : m.image (cpuReset s) = m.image s := by
  rw [← signal_image_of_quiet .cpuReset h]
  cases m <;> rfl

theorem callHook_image_of_quiet {k : Hook} (h : s.hooks.get k = true → Quiet m 1 s) : m.image (callHook k s) = m.image s := by
  by_cases hk : s.hooks.get k = true
  · rw [callHook_of_registered k s hk, signal_image_of_quiet _ (h hk)]
  · rw [callHook_of_unregistered k s hk]

/-- Full reset passes two interleaving points, and a third where the post-reset callback is registered (R222). -/
theorem fullReset_image_of_quiet (h : Quiet m (if s.hooks.postReset then 3 else 2) s) :
    m.image (fullReset s) = m.image (disableWords s) := by
  let u : State := emit .ctxSelect { disableWords s with carry := 0 }
  have htwo : Quiet m 2 u := h.mono (by split <;> decide)
  have hhook : s.hooks.postReset = true → Quiet m 1 (signal .subsysReset (emit .ctxRelease (cpuReset u))) := fun hreg => by
    rw [if_pos hreg] at h
    exact Quiet.interleave (Quiet.interleave (s := u) h)
  calc m.image (fullReset s)
      = m.image (signal .subsysReset (emit .ctxRelease (cpuReset u))) := callHook_image_of_quiet hhook
    _ = m.image (emit .ctxRelease (cpuReset u)) := signal_image_of_quiet .subsysReset htwo.interleave
    _ = m.image (cpuReset u) := emit_image m .ctxRelease (cpuReset u)
    _ = m.image u := cpuReset_image_of_quiet htwo
    _ = m.image (disableWords s) := by cases m <;> rfl

end Quiet

/-! ## `FULLRESET` -/

theorem Memory.read16_write16_of_disjoint {m : Memory} (hm : m.wf = true) {a off : Nat} (v : Word)
    (h : a + 1 < off ∨ off + 1 < a) : (m.write16 off v).read16 a = m.read16 a := by
  rw [Memory.read16, Memory.read16, Memory.read_write16_of_ne hm off v (by omega) (by omega),
    Memory.read_write16_of_ne hm off v (by omega) (by omega)]

/-- `SCANLINES` fits a register word (R7). -/
theorem disabledTrig_toNat (c : Config) : (disabledTrig c).toNat = c.scanlines := by
  have hbounds := Config.scanlines_bounds c
  rw [disabledTrig, BitVec.toNat_ofNat]
  omega

/-- The three words after full reset's stores, and every byte outside them (R95, R222). -/
theorem disableWords_reads {s : State} (hwf : s.rf.wf = true) :
    (disableWords s).rf.read16 0x4E = disabledCtrl ∧ (disableWords s).rf.read16 0x50 = disabledTrig s.cfg ∧
      (disableWords s).rf.read16 0x52 = disabledTrig s.cfg ∧
      ∀ x, x < 0x4E ∨ 0x53 < x → (disableWords s).rf.read x = s.rf.read x := by
  have hctrl : (s.rf.write16 0x4E disabledCtrl).wf = true := Memory.write16_wf _ _ hwf
  have htrigP : ((s.rf.write16 0x4E disabledCtrl).write16 0x50 (disabledTrig s.cfg)).wf = true := Memory.write16_wf _ _ hctrl
  have hrf : (disableWords s).rf =
    ((s.rf.write16 0x4E disabledCtrl).write16 0x50 (disabledTrig s.cfg)).write16 0x52 (disabledTrig s.cfg) := rfl
  rw [hrf]
  refine ⟨?ctrl, ?trigP, Memory.read16_write16 htrigP 0x52 _, fun x hx => ?other⟩
  case ctrl =>
    rw [Memory.read16_write16_of_disjoint htrigP _ (by decide), Memory.read16_write16_of_disjoint hctrl _ (by decide),
      Memory.read16_write16 hwf]
  case trigP => rw [Memory.read16_write16_of_disjoint htrigP _ (by decide), Memory.read16_write16 hctrl]
  case other =>
    rw [Memory.read_write16_of_ne htrigP _ _ (by omega) (by omega), Memory.read_write16_of_ne hctrl _ _ (by omega) (by omega),
      Memory.read_write16_of_ne hwf _ _ (by omega) (by omega)]

/-- Settles O48: full reset's own stores, which quiet collaborators leave as they are (R222). -/
theorem fullresetResult : Obligations.FullresetResult := by
  unfold Obligations.FullresetResult
  intro s hphase hdone quiet
  have hexec : exec .fullreset s = .next (fullReset s) := by
    rw [exec_fullreset, if_pos ((fullresetAccepted_iff s).2 ⟨hphase, hdone⟩)]
  refine ⟨fullReset s, hexec, fullReset_carry s, fullReset_out s, fullReset_only s, fun haux => ?aux, fun hquiet hwf => ?rf⟩
  case aux => exact fullReset_image_of_quiet (m := .aux) haux
  case rf =>
    have hrf : (fullReset s).rf = (disableWords s).rf := fullReset_image_of_quiet (m := .rf) hquiet
    obtain ⟨hctrl, htrigP, htrigS, hother⟩ := disableWords_reads hwf
    rw [hrf, htrigP, htrigS, disabledTrig_toNat]
    exact ⟨hctrl, rfl, rfl, hother⟩

end Sys2Proof.Machine

/-! PROOFS. The state after reset (70_reset_and_hazards.md R270). -/

namespace Sys2Proof.Machine

/-! ## The base case of the two invariants -/

theorem slotOk_default (c : Config) : SlotOk c {} := ⟨.nil _, .nil _⟩

theorem reset_capacity : State.reset.snaps.length = State.reset.cfg.capacity := List.length_replicate

/-- Every slot of the store has empty images at reset (log entry 6). -/
theorem reset_slotOk {slot : Slot} (h : slot ∈ State.reset.snaps) : SlotOk State.reset.cfg slot := by
  have hslot : slot = {} := List.eq_of_mem_replicate h
  rw [hslot]
  exact slotOk_default _

theorem stored_reset : Stored State.reset where
  capacity := reset_capacity
  rf := .nil _
  aux := .nil _
  slots _ h := reset_slotOk h

/-- At reset the port is empty and the driver's tape holds nothing (log entry 8). -/
theorem commanded_reset : Commanded State.reset where
  port := ⟨[], List.forall_mem_nil _, rfl⟩
  driver _ h := absurd h List.not_mem_nil

/-- No frame is in progress at reset, as `phase` is 0 there (R270). -/
theorem frameInv_reset : FrameInv State.reset := frameInv_of_not_framed reset_capacity commanded_reset (.inl rfl)

/-- Settles O58: the stored form from the empty images, the invariant from `phase` 0 (R41, R270). -/
theorem invariantsHoldAtReset : Obligations.InvariantsHoldAtReset := ⟨stored_reset, frameInv_reset⟩

end Sys2Proof.Machine

/-! PROOFS. The encoder and the decoder of the port undo each other (30_encoding.md §2, §4; the layout is log entry 3's). -/

namespace Sys2Proof

theorem ofNat_toNat_byte (b : Byte) : BitVec.ofNat 8 b.toNat = b := by
  rw [BitVec.ofNat_toNat, BitVec.setWidth_eq]

/-! ## Numbers in base 128 -/

/-- The fuel of `encodeNat` is the number of base 128 digits after the first, so it never runs out. -/
theorem log2_div_seven (n : Nat) : n.log2 / 7 = Nat.log 128 n := by
  rw [Nat.log2_eq_log_two, ← Nat.log_pow_left]

theorem encodeNat_of_lt {n : Nat} (h : n < 128) : encodeNat n = [BitVec.ofNat 8 n] := by
  rw [encodeNat, log2_div_seven, Nat.log_of_lt h, encodeDigits]

theorem encodeNat_of_le {n : Nat} (h : 128 ≤ n) :
    encodeNat n = BitVec.ofNat 8 (128 + n % 128) :: encodeNat (n / 128) := by
  rw [encodeNat, encodeNat, log2_div_seven, log2_div_seven, Nat.log_of_one_lt_of_le (by decide) h, encodeDigits,
    if_neg h.not_gt]

theorem decodeNat_encodeNat (n : Nat) (rest : List Byte) : decodeNat (encodeNat n ++ rest) = .ok (n, rest) := by
  induction n using Nat.strong_induction_on with
  | _ n ih =>
    rcases Nat.lt_or_ge n 128 with hlt | hle
    · have hdigit : (BitVec.ofNat 8 n).toNat = n := Nat.mod_eq_of_lt (by omega)
      rw [encodeNat_of_lt hlt, List.singleton_append, decodeNat_cons_of_lt (by omega), hdigit]
    · have hdigit : (BitVec.ofNat 8 (128 + n % 128)).toNat = 128 + n % 128 := Nat.mod_eq_of_lt (by omega)
      rw [encodeNat_of_le hle, List.cons_append, decodeNat_cons_eq_ok (by omega)]
      exact ⟨n / 128, ih _ (by omega), by omega, by omega⟩

/-- A number that is accepted is not overlong, so that its digits are those that the encoder writes. -/
theorem encodeNat_of_decodeNat {bs rest : List Byte} {n : Nat} (h : decodeNat bs = .ok (n, rest)) :
    encodeNat n ++ rest = bs := by
  induction bs generalizing n with
  | nil => cases h
  | cons b bs ih =>
    by_cases hb : b.toNat < 128
    · cases (decodeNat_cons_of_lt hb bs).symm.trans h
      rw [encodeNat_of_lt hb, ofNat_toNat_byte, List.singleton_append]
    · obtain ⟨k, hk, hpos, rfl⟩ := (decodeNat_cons_eq_ok hb _ _ _).1 h
      have hmod : 128 + (b.toNat - 128 + 128 * k) % 128 = b.toNat := by omega
      have hdiv : (b.toNat - 128 + 128 * k) / 128 = k := by omega
      rw [encodeNat_of_le (by omega), hmod, hdiv, ofNat_toNat_byte, List.cons_append, ih hk]

/-! ## Signed numbers -/

theorem unzigzag_zigzag (n : Int) : unzigzag (zigzag n) = n := by
  rw [zigzag, unzigzag]
  split_ifs <;> omega

theorem zigzag_unzigzag (k : Nat) : zigzag (unzigzag k) = k := by
  rw [unzigzag, zigzag]
  split_ifs <;> omega

/-! ## Words -/

theorem highByte_joinBytes (hi lo : Byte) : highByte (joinBytes hi lo) = hi := by
  apply BitVec.eq_of_toNat_eq
  rw [Machine.highByte_toNat, Machine.joinBytes_toNat]
  omega

theorem lowByte_joinBytes (hi lo : Byte) : lowByte (joinBytes hi lo) = lo := by
  apply BitVec.eq_of_toNat_eq
  rw [Machine.lowByte_toNat, Machine.joinBytes_toNat]
  omega

/-! ## Operands -/

theorem decodeCount_encodeNat (mk : Int → Instr) (n : Int) (rest : List Byte) :
    decodeCount mk (encodeNat (zigzag n) ++ rest) = .ok (mk n, rest) :=
  (decodeCount_eq_ok ..).2 ⟨zigzag n, decodeNat_encodeNat _ _, congrArg mk (unzigzag_zigzag n)⟩

theorem decodeIndex_encodeNat (k : Nat) (rest : List Byte) :
    decodeIndex (encodeNat k ++ rest) = .ok (.snapcopy k, rest) :=
  (decodeIndex_eq_ok ..).2 ⟨k, decodeNat_encodeNat _ _, rfl⟩

section EncodeOfOperand

variable {i : Instr} {bs rest : List Byte} {code : Byte}

theorem encode_of_decodeCount {mk : Int → Instr} (hmk : ∀ n, encode (mk n) = code :: encodeNat (zigzag n))
    (h : decodeCount mk bs = .ok (i, rest)) : encode i ++ rest = code :: bs := by
  obtain ⟨k, hk, rfl⟩ := (decodeCount_eq_ok ..).1 h
  rw [hmk, zigzag_unzigzag, List.cons_append, encodeNat_of_decodeNat hk]

theorem encode_of_decodeIndex (h : decodeIndex bs = .ok (i, rest)) : encode i ++ rest = 0x14 :: bs := by
  obtain ⟨k, hk, rfl⟩ := (decodeIndex_eq_ok ..).1 h
  rw [encode, List.cons_append, encodeNat_of_decodeNat hk]

theorem encode_of_decodeWord {mk : Word → Instr} (hmk : ∀ w, encode (mk w) = [code, highByte w, lowByte w])
    (h : decodeWord mk bs = .ok (i, rest)) : encode i ++ rest = code :: bs := by
  match bs, h with
  | hi :: lo :: _, h =>
    cases h
    rw [hmk, highByte_joinBytes, lowByte_joinBytes]
    rfl

/-- An accepted hook byte has the hook in bits 2 to 0, `present` in bit 3 and nothing above. -/
theorem toNat_of_decodeHook {b : Byte} {h : Hook} {present : Bool} (hb : decodeHook b = .ok (h, present)) :
    b.toNat = hookCode h + if present then 8 else 0 := by
  simp only [decodeHook] at hb
  split at hb
  case h_3 => cases hb
  all_goals
    next k hk hdiv =>
      have hmod : b.toNat % 8 = hookCode k := by split at hk <;> cases hk <;> assumption
      cases hb
      simp only [Bool.false_eq_true, if_true, if_false]
      omega

theorem encode_of_decodeHookreg (h : decodeHookreg bs = .ok (i, rest)) : encode i ++ rest = 0x1B :: bs := by
  cases bs with
  | nil => cases h
  | cons b bs =>
    rw [decodeHookreg] at h
    split at h
    next => cases h
    next hook present hb =>
      cases h
      rw [encode, ← toNat_of_decodeHook hb, ofNat_toNat_byte]
      rfl

/-! ## Operations -/

/-- The code of each operation, and behind it the operand that `readsPrefix_decodeOp` names. -/
theorem encode_of_decodeOp (h : decodeOp code bs = .ok (i, rest)) : encode i ++ rest = code :: bs := by
  rw [← ofNat_toNat_byte code]
  unfold decodeOp at h
  split at h
  case h_15 hb | h_16 hb => rw [hb]; exact encode_of_decodeCount (fun _ => rfl) h
  case h_17 hb => rw [hb]; exact encode_of_decodeIndex h
  case h_21 hb => rw [hb]; exact encode_of_decodeHookreg h
  case h_22 hb | h_23 hb | h_24 hb => rw [hb]; exact encode_of_decodeWord (fun _ => rfl) h
  case h_25 => cases h
  all_goals next hb => rw [hb]; cases h; rfl

end EncodeOfOperand

/-- Settles O1: the commands have been read back before; the block's own operations have no operand, a cycle count or a slot
index. -/
theorem decodeOfEncode : Obligations.DecodeOfEncode := by
  unfold Obligations.DecodeOfEncode
  intro i rest
  cases i with
  | idle | setupFrame | catchup | leadin | basesnap | lateguard | active | objcap | vblank | drain | drift | frameend => rfl
  | sched | dispatch => rfl
  | run n => exact decodeCount_encodeNat .run n rest
  | idlecyc n => exact decodeCount_encodeNat .idlecyc n rest
  | snapcopy k => exact decodeIndex_encodeNat k rest
  | setup | fullreset | teardown | hookreg | ctrl | trigP | trigS => exact Machine.decode_encode_command rfl rest

/-- Settles O2: each row of the decoder takes off what the encoder writes for it. -/
theorem encodeOfDecode : Obligations.EncodeOfDecode := by
  unfold Obligations.EncodeOfDecode
  intro bs rest i h
  cases bs with
  | nil => cases h
  | cons b bs => exact encode_of_decodeOp h

end Sys2Proof
